-- ==== Sys2Proof/Syntax.lean ====
section
/-! DEFINITION. The commands of CORE: one constructor per row of spec/opcode_table.json (30_encoding.md R114). -/

namespace Sys2Proof

/-- A command (R3, R110). It has no operand field: its operands are IN_LEN and the bytes of IBUF (R30). -/
inductive Instr where
  /-- LZW_ENCODE, OP 0x1 (R167). -/
  | lzwEncode
  /-- LZW_DECODE, OP 0x2 (R180). -/
  | lzwDecode
  /-- HUF_ENCODE, OP 0x3 (R240). -/
  | hufEncode
  /-- HUF_DECODE, OP 0x4 (R255). -/
  | hufDecode
  deriving DecidableEq, Repr

end Sys2Proof
end

