-- ==== Sys2Proof/Word.lean ====
section
/-! DEFINITION. The word types of CORE and the plainest arithmetic of the spec (00_scope.md R14 to R17). -/

namespace Sys2Proof

/-- A host-visible register's value: 32 bits (R14). -/
abbrev Word := BitVec 32

/-- A symbol, a buffer byte, a frame byte: 8 bits (R14, R22). -/
abbrev Byte := BitVec 8

/-- R17: `ceil_div(a, b)`, the least integer `q` with `q * b >= a`. -/
def ceilDiv (a b : Nat) : Nat := (a + (b - 1)) / b

end Sys2Proof
end

