-- ==== Sys2Proof/Decode.lean ====
section
/-! DEFINITION. The COMMAND word (30_encoding.md R110 to R116): its decoder, total on every word and rejecting by name,
and after it the encoder, both from the opcode table of R114. -/

namespace Sys2Proof

/-- Why a COMMAND word is not a command (R315). -/
inductive CommandError where
  /-- RSVD, bits 31 to 4, is not zero (R113). -/
  | reservedBits
  /-- RSVD is zero and OP is 0x0 or 0x5 to 0xF (R115). -/
  | badOpcode
  deriving DecidableEq, Repr

/-- R111, R112: the OP field, bits 3 to 0. -/
def opField (w : Word) : BitVec 4 := w.extractLsb' 0 4

/-- R111: the RSVD field, bits 31 to 4. -/
def rsvdField (w : Word) : BitVec 28 := w.extractLsb' 4 28

/-- R114: the command an OP value names; the others are reserved (R115). -/
def instrOfOpcode (op : BitVec 4) : Option Instr :=
  if op = 1#4 then some .lzwEncode
  else if op = 2#4 then some .lzwDecode
  else if op = 3#4 then some .hufEncode
  else if op = 4#4 then some .hufDecode
  else none

/-- The command a COMMAND word is, or why it is none, in the order of R116 and R318: RSVD before OP. -/
def decode (w : Word) : Except CommandError Instr :=
  if rsvdField w ≠ 0#28 then .error .reservedBits
  else
    match instrOfOpcode (opField w) with
    | some i => .ok i
    | none => .error .badOpcode

/-- What the decoder reads from a table row's bits. A command is one 32-bit word (R110), so the bits above `nbits`
are zero. -/
def decodeTableWord (nbits w : Nat) : Option Instr :=
  match decode (BitVec.ofNat 32 (w % 2 ^ nbits)) with
  | .ok i => some i
  | .error _ => none

/-- R114: the OP value of a command. -/
def Instr.opcode : Instr → BitVec 4
  | .lzwEncode => 1#4
  | .lzwDecode => 2#4
  | .hufEncode => 3#4
  | .hufDecode => 4#4

/-- R111, R114: the COMMAND word of a command, RSVD zero. -/
def encode (i : Instr) : Word := 0#28 ++ i.opcode

end Sys2Proof
end

