-- ==== Sys2Proof/Config.lean ====
section
/-! DEFINITION. What a CORE instance fixes (the open parameters of 00_scope.md R9 to R13, the platform's placement of
20_memory.md R86), and the free values: what the
spec leaves unspecified while the machine goes on. -/

namespace Sys2Proof

/-- R86: where the platform places the three address spaces of R85 in the system address map: the system address at which
each begins. It is the platform's choice, and no part of CORE. -/
structure Placement where
  /-- The system address of register offset 0x00. -/
  reg : Nat
  /-- The system address of IBUF[0]. -/
  ibuf : Nat
  /-- The system address of OBUF[0]. -/
  obuf : Nat
  deriving DecidableEq, Repr

/-- The open parameters of one CORE instance (R9 to R11), and its place in the system (R86). State holds them, as the CAP registers do (R48), so that a
statement about every state is a statement about every configuration (92_eei_decisions.md D4). -/
structure Config where
  /-- IN_CAP, the capacity of IBUF in bytes (R9). -/
  inCap : Nat
  /-- OUT_CAP, the capacity of OBUF in bytes (R10). -/
  outCap : Nat
  /-- DICT_SIZE, the number of LZW dictionary entries with the 256 seeded ones (R11). -/
  dictSize : Nat
  /-- Where the platform places CORE (R86). -/
  place : Placement
  deriving DecidableEq, Repr

namespace Config

/-- R12: W_MAX, `lzw_width(DICT_SIZE - 1)` (R122). Where DICT_SIZE is 256 that is 8, and R12's own gloss says 16: the
smaller bound is taken, so that what holds under R13 with it holds under R13 with the other too (log entry 13). -/
def wMax (c : Config) : Nat := if c.dictSize ≤ 256 then 8 else if c.dictSize ≤ 65536 then 16 else 32

/-- R13: `LZW_BOUND(n)`. -/
def lzwBound (c : Config) (n : Nat) : Nat := if n = 0 then 0 else 5 + ceilDiv (n * c.wMax) 8

/-- R13: `HUF_BOUND(n)`. -/
def hufBound (n : Nat) : Nat := if n = 0 then 0 else 2 + 256 * (2 + 32) + 5 + n

/-- R13: `ENC_BOUND(n)`. -/
def encBound (c : Config) (n : Nat) : Nat := max (c.lzwBound n) (hufBound n)

/-- R13: the constraint under which the encoders never fail. A configuration that breaks it still has defined
behaviour, so it is no part of `Config.wf`. -/
abbrev MeetsBound (c : Config) : Prop := c.encBound c.inCap ≤ c.outCap

/-- The configuration of 95_test_vectors.md. DESIGN CHOICE (log entry 1): the spec leaves the three parameters open, and
`State.reset` is one state, so it takes this one. No statement of the model rests on it. The placement is a DESIGN CHOICE too
(log entry 14): the spec gives none. -/
def reference : Config :=
  { inCap := 16384, outCap := 65536, dictSize := 4096, place := { reg := 0x0, ibuf := 0x4000, obuf := 0x10000 } }

/-- The free bytes: byte `i` of draw `d`. The spec calls a buffer byte unspecified ("any value", 93 U8, U10, U11, U12),
and nothing constrains what this is. -/
opaque freeByte : Nat → Nat → Byte

/-- The free words: what a result register reads as while BUSY in draw `d` (R52, 93 U12). -/
opaque freeWord : Nat → Word

end Config

end Sys2Proof
end

