-- ==== Sys2Proof/Machine/State.lean ====
section
/-! DEFINITION. The state of CORE and of the host that drives it (10_state.md, 20_memory.md R80), as plain data, and the
state after reset (10_state.md R64). -/

namespace Sys2Proof.Machine

/-- R32: the sequencer. It takes the place of a program counter (R31). STATUS.BUSY is computed from it. -/
inductive Seq where
  | idle
  /-- A command runs; `op` is the latched opcode (R116). -/
  | busy (op : Instr)
  deriving DecidableEq, Repr

/-- R37, R311: the values of STATUS.ERR. The reserved values 4 to 15 have no constructor: CORE never writes them. -/
inductive ErrKind where
  | ok
  | malformed
  | capacity
  | badCommand
  deriving DecidableEq, Repr

/-- R313: the values of ERR_DETAIL. The reserved values 17 to 255 have no constructor: CORE never writes them. -/
inductive Detail where
  | none
  | lzwHdrShort
  | lzwBadWidth
  | lzwLenMismatch
  | lzwBadCode
  | hufHdrShort
  | hufBadCount
  | hufBadLength
  | hufDupSymbol
  | hufNotPrefixFree
  | hufPadMismatch
  | hufLenMismatch
  | hufTrailingBits
  | capInLen
  | capOut
  | badOpcode
  | cmdReservedBits
  deriving DecidableEq, Repr

/-- R51: the eight result registers, which the core writes together in its completion step. A register holds the bits
the map of R33 says it uses; the others read 0. -/
structure Results where
  /-- OUT_LEN (R39). -/
  outLen : Word := 0
  /-- LZW_WIDTH[7:0] (R41). -/
  lzwWidth : BitVec 8 := 0
  /-- LZW_COUNT (R42). -/
  lzwCount : Word := 0
  /-- HUF_SYMBOLS[8:0] (R43). -/
  hufSymbols : BitVec 9 := 0
  /-- HUF_BITLEN (R44). -/
  hufBitlen : Word := 0
  /-- HUF_PAD[2:0] (R45). -/
  hufPad : BitVec 3 := 0
  /-- ERR_DETAIL[7:0] (R46). -/
  errDetail : Detail := .none
  /-- ERR_POS (R47). -/
  errPos : Word := 0
  deriving DecidableEq, Repr

/-- A buffer: the bytes whose values are known, in the canonical form `Memory.wf` of Machine/Ops.lean. An address that is
not listed holds an unspecified byte (R54, R55, R64). -/
abbrev Memory := List Host.Cell

/-- R57: one dictionary entry at or above 256, `(prefix(k), suffix(k))`. -/
structure DictEntry where
  /-- `prefix(k)`, a code below `k`. -/
  pre : Nat
  /-- `suffix(k)`. -/
  suf : Byte
  deriving DecidableEq, Repr

/-- R57, R160: the LZW dictionary. The 256 seeded entries are not listed. The others are, newest first, so the head
has code `nextCode - 1` (D31 leaves the storage free). -/
structure Dict where
  entries : List DictEntry
  deriving DecidableEq, Repr

/-- R58: a Huffman tree node. Children are arena indices. -/
inductive Node where
  | leaf (freq : Nat) (sym : Byte)
  | internal (freq left right : Nat)
  deriving DecidableEq, Repr

/-- R58: the node arena; a node's index is its place in the list. -/
abbrev Arena := List Node

/-- R60: CODE[0..255], a bit string per symbol; the empty one for a symbol that has no entry. `CODE[s].len` is its
length. -/
abbrev CodeTable := List (List Bool)

/-- R56: the working state of a command beside the latched opcode and length. No transaction reads it and no command
reads what an earlier one left in it (R63). Its content between commands is the model's own (log entry 5). -/
structure Hidden where
  /-- The input cursor: bytes for an encoder, codes for LZW_DECODE, payload bits for HUF_DECODE (R31). -/
  cursor : Nat
  /-- The LZW dictionary (R57). -/
  dict : Dict
  /-- The LZW encoder's current match `w`, as a code (R169); in LZW_DECODE the code of the previous entry. -/
  matchCode : Nat
  /-- The previous entry of LZW_DECODE. -/
  prev : List Byte
  /-- The LZW encoder's code buffer (R170); the codes read by LZW_DECODE. -/
  codes : List Nat
  /-- FREQ[0..255] (R59). -/
  freq : List Nat
  /-- The node arena (R58). -/
  arena : Arena
  /-- The codeword table (R60). -/
  code : CodeTable
  /-- The bit writer's bit string BW (R61, R281). -/
  bitWriter : List Bool
  /-- The bit reader's bit string (R61, R283). -/
  bitReader : List Bool
  /-- The bit reader's index (R61, R283). -/
  bitIndex : Nat
  /-- The Huffman decoder's accumulator (R260). -/
  acc : List Bool
  deriving DecidableEq, Repr

/-- The hidden state of State.reset: everything empty. DESIGN CHOICE (log entry 5): R64 leaves it unspecified. -/
def Hidden.init : Hidden :=
  { cursor := 0, dict := { entries := [] }, matchCode := 0, prev := [], codes := [], freq := [], arena := [], code := [],
    bitWriter := [], bitReader := [], bitIndex := 0, acc := [] }

/-- R33: the registers of the register map. -/
inductive Reg where
  | command
  | status
  | inLen
  | outLen
  | lzwWidth
  | lzwCount
  | hufSymbols
  | hufBitlen
  | hufPad
  | errDetail
  | errPos
  | reserved2C
  | capIn
  | capOut
  | capDict
  | reserved3C
  deriving DecidableEq, Repr

/-- R80: a host transaction. A register access carries its width in bits, so that one of another width than 32 can be
written, and refused (R84). -/
inductive Transaction where
  | regRead (width off : Nat)
  | regWrite (width off : Nat) (v : Word)
  | ibufRead (i : Nat)
  | ibufWrite (i : Nat) (b : Byte)
  | obufRead (i : Nat)
  | obufWrite (i : Nat) (b : Byte)
  deriving DecidableEq, Repr

/-- R138, R140: what the host still has to do: a transaction, or a pseudo-instruction whose expansion depends on what
the host reads. The others (`load`, `input`, `run`) are functions of Machine/Transactions.lean. -/
inductive HostLine where
  | txn (t : Transaction)
  /-- `wait`: read STATUS until bit 0 of the result is 0. -/
  | wait
  /-- `dump`: read OUT_LEN, then that many bytes of OBUF. -/
  | dump
  /-- `copy`: read OUT_LEN, copy that many bytes of OBUF to IBUF, write IN_LEN. -/
  | copy
  /-- One turn of the loop of `copy`: `robuf i => b`, then `wibuf i, b`. -/
  | copyByte (i : Nat)
  deriving DecidableEq, Repr

/-- What the host has seen: the result of a read transaction (R80). -/
inductive Seen where
  | reg (off : Nat) (v : Word)
  | ibuf (i : Nat) (b : Byte)
  | obuf (i : Nat) (b : Byte)
  deriving DecidableEq, Repr

/-- Who moves in one step of the total order of R95: the host, the core, or the platform, by a reset (R350). -/
inductive Turn where
  | host
  | core
  | reset
  deriving DecidableEq, Repr

/-- The state. The first group is CORE's, the second the host's, the third the model's own. -/
structure State where
  /-- CAP_IN, CAP_OUT and CAP_DICT (R48). Nothing changes them. -/
  cfg : Config
  /-- SEQ with the latched opcode (R32, R116). STATUS.BUSY is computed from it. -/
  seq : Seq
  /-- `latched_len` (R116). -/
  latchedLen : Word
  /-- STATUS.DONE (R35). -/
  done : Bool
  /-- STATUS.ERR (R37). -/
  err : ErrKind
  /-- STATUS.LAST_OP (R36). -/
  lastOp : BitVec 4
  /-- IN_LEN (R38). -/
  inLen : Word
  /-- The result registers (R51). -/
  res : Results
  /-- IBUF (R54). -/
  ibuf : Memory
  /-- OBUF (R55). -/
  obuf : Memory
  /-- The hidden state (R56). -/
  hidden : Hidden
  /-- What the host has still to do (R29, R138). -/
  host : List HostLine
  /-- What the host has read so far, newest first. -/
  seen : List Seen
  /-- Who moves in the coming steps (R95). Past its end the core moves while BUSY and the host otherwise. -/
  schedule : List Turn
  /-- The next unused draw. -/
  draws : Nat
  /-- The draw that the unspecified bytes of IBUF are of. -/
  ibufDraw : Nat
  /-- The draw that the unspecified bytes of OBUF are of. -/
  obufDraw : Nat
  deriving DecidableEq, Repr

/-- The reasons a step stops with a fault: none. Nothing stops CORE: every error is a result in STATUS.ERR and ERR_DETAIL,
and CORE goes on (60_exceptions.md R321, R325). -/
inductive Fault where
  deriving DecidableEq, Repr

/-- The reasons a step is refused. The transactions of R84 are outside CORE's contract and have no meaning (92 D20). -/
inductive Refusal where
  /-- A command without a meaning yet; raised only by exec's refused arms, of which there are none. Safe. -/
  | notModelled (mnemonic : String)
  /-- R84: a register access of another width than 32 bits, above 0x3C or not at a multiple of 4; raised by the host's
  turn. Safe. -/
  | registerAccess (width off : Nat)
  /-- R84: an IBUF access at or above IN_CAP; raised by the host's turn. Safe. -/
  | ibufIndex (i : Nat)
  /-- R84: an OBUF access at or above OUT_CAP; raised by the host's turn. Safe. -/
  | obufIndex (i : Nat)
  deriving DecidableEq, Repr

/-- R64: the state right after reset in configuration `c`, with no host program loaded. -/
def State.resetWith (c : Config) : State :=
  { cfg := c
    seq := .idle
    latchedLen := 0
    done := false
    err := .ok
    lastOp := 0
    inLen := 0
    res := {}
    ibuf := []
    obuf := []
    hidden := Hidden.init
    host := []
    seen := []
    schedule := []
    draws := 2
    ibufDraw := 0
    obufDraw := 1 }

/-- The machine right after reset (R64, R350), in the configuration of 95_test_vectors.md (log entry 1). -/
def State.reset : State := State.resetWith Config.reference

end Sys2Proof.Machine
end

