-- ==== Sys2Proof/Machine/Flags.lean ====
section
/-! DEFINITION. The flags of CORE (10_state.md R35, R50) and the codes of the result kinds and details
(60_exceptions.md R311, R313). -/

namespace Sys2Proof.Machine

/-- R311: the value of STATUS.ERR. -/
def ErrKind.code : ErrKind → BitVec 4
  | .ok => 0
  | .malformed => 1
  | .capacity => 2
  | .badCommand => 3

/-- R313: the value of ERR_DETAIL. -/
def Detail.code : Detail → BitVec 8
  | .none => 0
  | .lzwHdrShort => 1
  | .lzwBadWidth => 2
  | .lzwLenMismatch => 3
  | .lzwBadCode => 4
  | .hufHdrShort => 5
  | .hufBadCount => 6
  | .hufBadLength => 7
  | .hufDupSymbol => 8
  | .hufNotPrefixFree => 9
  | .hufPadMismatch => 10
  | .hufLenMismatch => 11
  | .hufTrailingBits => 12
  | .capInLen => 13
  | .capOut => 14
  | .badOpcode => 15
  | .cmdReservedBits => 16

/-- R313: the kind each detail belongs to. -/
def Detail.kind : Detail → ErrKind
  | .none => .ok
  | .lzwHdrShort | .lzwBadWidth | .lzwLenMismatch | .lzwBadCode => .malformed
  | .hufHdrShort | .hufBadCount | .hufBadLength | .hufDupSymbol | .hufNotPrefixFree => .malformed
  | .hufPadMismatch | .hufLenMismatch | .hufTrailingBits => .malformed
  | .capInLen | .capOut => .capacity
  | .badOpcode | .cmdReservedBits => .badCommand

/-- R32: STATUS.BUSY is 1 exactly when SEQ is BUSY(op). -/
def State.isBusy (s : State) : Bool :=
  match s.seq with
  | .idle => false
  | .busy _ => true

/-- R35: the STATUS register: LAST_OP in bits 11 to 8, ERR in bits 7 to 4, DONE in bit 1, BUSY in bit 0, the rest 0. -/
def State.statusWord (s : State) : Word :=
  0#20 ++ s.lastOp ++ s.err.code ++ 0#2 ++ BitVec.ofBool s.done ++ BitVec.ofBool s.isBusy

end Sys2Proof.Machine
end

