-- ==== Sys2Proof/Machine/Ops.lean ====
section
/-! DEFINITION. The shared operations: the buffers (10_state.md R54, R55), the register file (R33), the COMMAND write
(30_encoding.md R116), the completion of a command and its errors (60_exceptions.md R310, R321), and reset (R350). -/

namespace Sys2Proof.Machine

/-! ### Memory -/

namespace Memory

/-- The byte listed at an address, or none where the byte is unspecified. -/
def read : Memory → Nat → Option Byte
  | [], _ => none
  | (k, b) :: m, a => if k = a then some b else read m a

/-- Writes one byte and keeps the addresses rising. -/
def write : Memory → Nat → Byte → Memory
  | [], a, b => [(a, b)]
  | (k, v) :: m, a, b =>
    if a < k then (a, b) :: (k, v) :: m
    else if a = k then (a, b) :: m
    else (k, v) :: write m a b

/-- The memory that lists a byte string from address `a` on and nothing else. -/
def ofBytesAt : Nat → List Byte → Memory
  | _, [] => []
  | a, b :: bs => (a, b) :: ofBytesAt (a + 1) bs

/-- The memory that lists a byte string from address 0 on and nothing else. -/
def ofBytes (bs : List Byte) : Memory := ofBytesAt 0 bs

/-- The canonical form: the addresses rise strictly. A listed byte is one whose value is known, so no entry repeats
what an unlisted address reads as, which is a free value. -/
def wf : Memory → Bool
  | [] => true
  | [_] => true
  | (a, _) :: (b, v) :: m => decide (a < b) && wf ((b, v) :: m)

/-- Every listed address is below `n`. -/
def below (n : Nat) (m : Memory) : Bool := m.all fun c => decide (c.1 < n)

end Memory

/-- The byte IBUF holds at an index; where it is unspecified, a free value that stays the same until reset (R54, R64). -/
def State.ibufByte (s : State) (i : Nat) : Byte := (s.ibuf.read i).getD (Config.freeByte s.ibufDraw i)

/-- The byte OBUF holds at an index while IDLE; where it is unspecified, a free value that stays the same until the next
core step or reset (R55, R93, R103). -/
def State.obufByte (s : State) (i : Nat) : Byte := (s.obuf.read i).getD (Config.freeByte s.obufDraw i)

/-- R54, R96: a host write to IBUF is ignored while BUSY. -/
def State.writeIbuf (s : State) (i : Nat) (b : Byte) : State :=
  if s.isBusy then s else { s with ibuf := s.ibuf.write i b }

/-- R55, R97: what a host read of OBUF returns, with the state after it: while BUSY a fresh free value. -/
def State.readObuf (s : State) (i : Nat) : Byte × State :=
  if s.isBusy then (Config.freeByte s.draws i, { s with draws := s.draws + 1 }) else (s.obufByte i, s)

/-! ### Ending a command -/

/-- What a command that succeeds hands to its completion (R310): the output, and each info register it names; the
others are 0. -/
structure Success where
  out : List Byte
  lzwWidth : Nat := 0
  lzwCount : Nat := 0
  hufSymbols : Nat := 0
  hufBitlen : Nat := 0
  hufPad : Nat := 0
  deriving DecidableEq, Repr

/-- R19, R310: an error that ends a command: its kind, detail and position. -/
structure Raise where
  kind : ErrKind
  detail : Detail
  pos : Nat
  deriving DecidableEq, Repr

/-- R19: `raise Malformed(detail, pos)`. -/
def Raise.malformed (d : Detail) (pos : Nat) : Raise := { kind := .malformed, detail := d, pos := pos }

/-- R19, R310: `raise Capacity(detail)`. -/
def Raise.capacity (d : Detail) : Raise := { kind := .capacity, detail := d, pos := 0 }

/-- R19, R310: `raise BadCommand(detail)`. -/
def Raise.badCommand (d : Detail) : Raise := { kind := .badCommand, detail := d, pos := 0 }

/-- R310, R98: the completion of a command that succeeds. OBUF holds the output; its bytes above are unspecified (R103). -/
def State.completeOk (r : Success) (s : State) : State :=
  { s with
    seq := .idle
    done := true
    err := .ok
    res :=
      { outLen := BitVec.ofNat 32 r.out.length
        lzwWidth := BitVec.ofNat 8 r.lzwWidth
        lzwCount := BitVec.ofNat 32 r.lzwCount
        hufSymbols := BitVec.ofNat 9 r.hufSymbols
        hufBitlen := BitVec.ofNat 32 r.hufBitlen
        hufPad := BitVec.ofNat 3 r.hufPad
        errDetail := .none
        errPos := 0 }
    obuf := Memory.ofBytes r.out
    obufDraw := s.draws
    draws := s.draws + 1 }

/-- R310, R321: the completion of a command that fails, the whole of CORE's "trap entry": the kind, detail and position
are recorded, OUT_LEN and the info registers are 0, every OBUF byte is unspecified. Nothing is saved, and there is no
return from it (R325). -/
def State.completeErr (e : Raise) (s : State) : State :=
  { s with
    seq := .idle
    done := true
    err := e.kind
    res := { errDetail := e.detail, errPos := BitVec.ofNat 32 e.pos }
    obuf := []
    obufDraw := s.draws
    draws := s.draws + 1 }

/-! ### The COMMAND write -/

/-- R315: the detail code of a word that is not a command. -/
def badCommandDetail : CommandError → Detail
  | .reservedBits => .cmdReservedBits
  | .badOpcode => .badOpcode

/-- R116: an accepted COMMAND word starts its command. -/
def State.startCommand (i : Instr) (s : State) : State :=
  { s with seq := .busy i, latchedLen := s.inLen, done := false, err := .ok }

/-- R116: the effect of `RegWrite(0x00, v)`. While BUSY it is ignored; a rejected word completes within the write. -/
def State.commandWrite (v : Word) (s : State) : State :=
  match s.seq with
  | .busy _ => s
  | .idle =>
    match decode v with
    | .error e => State.completeErr (Raise.badCommand (badCommandDetail e)) { s with lastOp := opField v }
    | .ok i => State.startCommand i { s with lastOp := opField v }

/-! ### The register file -/

namespace Reg

/-- R33: the byte offset of a register. -/
def offset : Reg → Nat
  | .command => 0x00
  | .status => 0x04
  | .inLen => 0x08
  | .outLen => 0x0C
  | .lzwWidth => 0x10
  | .lzwCount => 0x14
  | .hufSymbols => 0x18
  | .hufBitlen => 0x1C
  | .hufPad => 0x20
  | .errDetail => 0x24
  | .errPos => 0x28
  | .reserved2C => 0x2C
  | .capIn => 0x30
  | .capOut => 0x34
  | .capDict => 0x38
  | .reserved3C => 0x3C

/-- R33: the register map, in the order of its offsets. -/
def all : List Reg :=
  [.command, .status, .inLen, .outLen, .lzwWidth, .lzwCount, .hufSymbols, .hufBitlen, .hufPad, .errDetail, .errPos,
    .reserved2C, .capIn, .capOut, .capDict, .reserved3C]

/-- The register at a byte offset. -/
def ofOffset (off : Nat) : Option Reg := all.find? fun r => r.offset == off

/-- R51: the registers that only a completion step writes. -/
def isResult : Reg → Bool
  | .outLen | .lzwWidth | .lzwCount | .hufSymbols | .hufBitlen | .hufPad | .errDetail | .errPos => true
  | .command | .status | .inLen | .reserved2C | .capIn | .capOut | .capDict | .reserved3C => false

end Reg

/-- R33 to R49: the value a register holds. COMMAND and the reserved offsets read 0; the bits a register does not use
read 0. -/
def State.regValue (s : State) : Reg → Word
  | .command => 0
  | .status => s.statusWord
  | .inLen => s.inLen
  | .outLen => s.res.outLen
  | .lzwWidth => s.res.lzwWidth.setWidth 32
  | .lzwCount => s.res.lzwCount
  | .hufSymbols => s.res.hufSymbols.setWidth 32
  | .hufBitlen => s.res.hufBitlen
  | .hufPad => s.res.hufPad.setWidth 32
  | .errDetail => s.res.errDetail.code.setWidth 32
  | .errPos => s.res.errPos
  | .reserved2C => 0
  | .capIn => BitVec.ofNat 32 s.cfg.inCap
  | .capOut => BitVec.ofNat 32 s.cfg.outCap
  | .capDict => BitVec.ofNat 32 s.cfg.dictSize
  | .reserved3C => 0

/-- R52, R93: what a read of a register returns, with the state after it. A result register read while BUSY returns a
fresh free value (93 U12); no other read has an effect. -/
def State.readReg (s : State) (r : Reg) : Word × State :=
  if s.isBusy && r.isResult then (Config.freeWord s.draws, { s with draws := s.draws + 1 }) else (s.regValue r, s)

/-- R38, R96: IN_LEN stores what is written while IDLE. -/
def State.writeInLen (v : Word) (s : State) : State := if s.isBusy then s else { s with inLen := v }

/-- R53, R93: a write of a register. Only COMMAND and IN_LEN are written; every other write is ignored. -/
def State.writeReg (s : State) (r : Reg) (v : Word) : State :=
  match r with
  | .command => s.commandWrite v
  | .inLen => s.writeInLen v
  | .status | .outLen | .lzwWidth | .lzwCount | .hufSymbols | .hufBitlen | .hufPad | .errDetail | .errPos => s
  | .reserved2C | .capIn | .capOut | .capDict | .reserved3C => s

/-! ### Reset -/

/-- R350, R352: the reset event, between any two steps. A running command is abandoned; IBUF and OBUF are unspecified
anew; the hidden state is unspecified and unobservable, and stays as it is (log entry 5). Reset is no event of the host,
whose program goes on (log entry 9). -/
def State.resetEvent (s : State) : State :=
  { s with
    seq := .idle
    done := false
    err := .ok
    lastOp := 0
    inLen := 0
    res := {}
    ibuf := []
    obuf := []
    ibufDraw := s.draws
    obufDraw := s.draws + 1
    draws := s.draws + 2 }

end Sys2Proof.Machine
end

