-- ==== Sys2Proof/Machine/Framing.lean ====
section
/-! DEFINITION. The shared bit and byte framing utilities (43_framing.md). -/

namespace Sys2Proof.Machine

/-- R280: `bits_of(v, w)`, the `w`-bit string of `v`, most significant bit first. -/
def bitsOf (v w : Nat) : List Bool := (List.range w).map fun j => v.testBit (w - 1 - j)

/-- R283: `value(bits)`, the number a bit string is, most significant bit first. -/
def value (bits : List Bool) : Nat := bits.foldl (fun a b => 2 * a + b.toNat) 0

/-- R282: one packed byte: up to eight bits, the first in bit 7, and 0 for those missing. -/
def packByte (bits : List Bool) : Byte := BitVec.ofNat 8 (value (bits ++ List.replicate (8 - bits.length) false))

/-- R282: the first `m` bytes of a packed bit string. -/
def packBytes : Nat → List Bool → List Byte
  | 0, _ => []
  | m + 1, bits => packByte (bits.take 8) :: packBytes m (bits.drop 8)

/-- R282: `pack(bits)`, MSB-first, zero-padded. -/
def pack (bits : List Bool) : List Byte := packBytes (ceilDiv bits.length 8) bits

/-- R283: `unpack(bytes, n)`, the first `n` bits of a byte string, MSB-first. -/
def unpack (bytes : List Byte) (n : Nat) : List Bool := (bytes.flatMap fun b => bitsOf b.toNat 8).take n

/-- R284: `BE16(v)`. -/
def be16 (v : Nat) : List Byte := [BitVec.ofNat 8 (v / 2 ^ 8), BitVec.ofNat 8 v]

/-- R284: `BE32(v)`. -/
def be32 (v : Nat) : List Byte :=
  [BitVec.ofNat 8 (v / 2 ^ 24), BitVec.ofNat 8 (v / 2 ^ 16), BitVec.ofNat 8 (v / 2 ^ 8), BitVec.ofNat 8 v]

/-- R16: `F[p]` as a number. Every caller checks the length first (R285); past the end it is 0, which no rule reads
(log entry 11). -/
def byteAt (F : List Byte) (p : Nat) : Nat := (F.getD p 0).toNat

/-- R285: `BE16_read(F, p)`. -/
def be16Read (F : List Byte) (p : Nat) : Nat := byteAt F p * 2 ^ 8 + byteAt F (p + 1)

/-- R285: `BE32_read(F, p)`. -/
def be32Read (F : List Byte) (p : Nat) : Nat :=
  byteAt F p * 2 ^ 24 + byteAt F (p + 1) * 2 ^ 16 + byteAt F (p + 2) * 2 ^ 8 + byteAt F (p + 3)

/-- R286: `pad_len(b)`. -/
def padLen (b : Nat) : Nat := (8 - b % 8) % 8

/-- The bits of symbol `s` in a codeword table (R60); the empty string where it has no entry. -/
def CodeTable.bits (t : CodeTable) (s : Byte) : List Bool := t.getD s.toNat []

/-- R287: one entry of a serialized table. -/
def serializeEntry (s : Byte) (bits : List Bool) : List Byte := [s, BitVec.ofNat 8 bits.length] ++ pack bits

/-- R287: `serialize_table(CODE, C)`, the entries in ascending order of symbol (R134). -/
def serializeTable (t : CodeTable) (c : Nat) : List Byte :=
  be16 c ++
    (List.range 256).flatMap fun n =>
      let s := BitVec.ofNat 8 n
      if 0 < (t.bits s).length then serializeEntry s (t.bits s) else []

/-- An entry read from a serialized table: a symbol and its codeword (R288). -/
abbrev Entry := Byte × List Bool

/-- R288: the entry loop of `parse_table`, for `c` entries from offset `p` on, with the entries in frame order and the
offset behind them. -/
def parseEntries (F : List Byte) : Nat → Nat → Except Raise (List Entry × Nat)
  | 0, p => .ok ([], p)
  | c + 1, p =>
    if F.length < p + 2 then .error (Raise.malformed .hufHdrShort 0)
    else
      let sym := F.getD p 0
      let len := byteAt F (p + 1)
      if len = 0 then .error (Raise.malformed .hufBadLength 0)
      else
        let q := p + 2 + ceilDiv len 8
        if F.length < q then .error (Raise.malformed .hufHdrShort 0)
        else
          let cw := unpack ((F.drop (p + 2)).take (ceilDiv len 8)) len
          match parseEntries F c q with
          | .error e => .error e
          | .ok (t, r) => .ok ((sym, cw) :: t, r)

/-- R288: `parse_table(F)`: the count, the entries in frame order, the offset of the trailer. -/
def parseTable (F : List Byte) : Except Raise (Nat × List Entry × Nat) :=
  if F.length < 2 then .error (Raise.malformed .hufHdrShort 0)
  else
    let c := be16Read F 0
    if 256 < c then .error (Raise.malformed .hufBadCount 0)
    else
      match parseEntries F c 2 with
      | .error e => .error e
      | .ok (t, p) => .ok (c, t, p)

end Sys2Proof.Machine
end

