-- ==== Sys2Proof/Machine/HufTree.lean ====
section
/-! DEFINITION. The Huffman tree builder (41_huffman_tree.md), the first sub-phase of HUF_ENCODE. -/

namespace Sys2Proof.Machine

/-- R210: `freq_count(X)`: FREQ[s] is the number of positions that hold `s`. -/
def freqCount (X : List Byte) : List Nat := (List.range 256).map fun s => X.countP fun x => x.toNat == s

/-- R211: the leaves, in ascending order of symbol, one per symbol with a frequency above 0. -/
def leaves (freq : List Nat) : Arena :=
  (List.range 256).filterMap fun s =>
    if 0 < freq.getD s 0 then some (.leaf (freq.getD s 0) (BitVec.ofNat 8 s)) else none

/-- The frequency of a node (R58). -/
def Node.freq : Node → Nat
  | .leaf f _ => f
  | .internal f _ _ => f

/-- The frequency of the node at an arena index. Every index asked for is in the arena (log entry 11). -/
def Arena.freqAt (a : Arena) (x : Nat) : Nat :=
  match a[x]? with
  | some n => n.freq
  | none => 0

/-- R213: `x` comes before `y`: the pair `(freq(x), x)` is the smaller one, compared lexicographically. -/
def Arena.before (a : Arena) (x y : Nat) : Bool :=
  decide (a.freqAt x < a.freqAt y) || (a.freqAt x == a.freqAt y && decide (x ≤ y))

/-- R213: `take_min()`: the first index of the live set, and the live set without it. -/
def takeMin (a : Arena) : List Nat → Option (Nat × List Nat)
  | [] => none
  | x :: xs =>
    match takeMin a xs with
    | none => some (x, [])
    | some (y, ys) => if a.before x y then some (x, xs) else some (y, x :: ys)

/-- R214: the merge steps, at most `n` of them, while the live set holds more than one index. The first index removed is
the left child, the second the right one; the new node is appended (R212). -/
def mergeLoop : Nat → Arena → List Nat → Arena
  | 0, a, _ => a
  | n + 1, a, live =>
    match takeMin a live with
    | none => a
    | some (x, live1) =>
      match takeMin a live1 with
      | none => a
      | some (y, live2) =>
        mergeLoop n (a ++ [.internal (a.freqAt x + a.freqAt y) x y]) (live2 ++ [a.length])

/-- R218: the leaves below node `x` with their codewords, `path` being the edge bits from the root to `x`: 0 to a left
child, 1 to a right one. The order of the walk is not observable (D31). The first argument bounds the depth. -/
def derive (a : Arena) : Nat → Nat → List Bool → List Entry
  | 0, _, _ => []
  | n + 1, x, path =>
    match a[x]? with
    | none => []
    | some (.leaf _ s) => [(s, path)]
    | some (.internal _ l r) => derive a n l (path ++ [false]) ++ derive a n r (path ++ [true])

/-- R60, R219: the codeword table with the given entries, and no entry for any other symbol. -/
def codeTable (es : List Entry) : CodeTable :=
  (List.range 256).map fun s =>
    match es.find? fun e => e.1.toNat == s with
    | some e => e.2
    | none => []

/-- What the builder leaves (R220): FREQ, the arena, CODE, and n_sym. -/
structure HufBuild where
  freq : List Nat
  arena : Arena
  code : CodeTable
  nSym : Nat
  deriving DecidableEq, Repr

/-- R216, R218: the entries of the tree over `n` leaves. A single symbol has the codeword `0`; otherwise the root is the
last node (R215). -/
def hufEntries (n : Nat) (a : Arena) : List Entry :=
  match n, a with
  | 1, .leaf _ s :: _ => [(s, [false])]
  | _, _ => derive a a.length (a.length - 1) []

/-- R220: `huf_build(X)`. -/
def hufBuild (X : List Byte) : HufBuild :=
  let freq := freqCount X
  let ls := leaves freq
  let a := mergeLoop (ls.length - 1) ls (List.range ls.length)
  { freq := freq, arena := a, code := codeTable (hufEntries ls.length a), nSym := ls.length }

/-- R222, R223, R225: the total length in bits, the sum over all symbols of frequency times codeword length. R223 bounds it by
8 * len(X), and gives len(X) for a single symbol (the obligation HufTableBounds). -/
def HufBuild.totalLength (h : HufBuild) : Nat :=
  ((List.range 256).map fun s => h.freq.getD s 0 * (h.code.bits (BitVec.ofNat 8 s)).length).sum

end Sys2Proof.Machine
end

