-- ==== Sys2Proof/Machine/Operands.lean ====
section
/-! DEFINITION. The operands of a command: the latched length and the bytes of IBUF below it (10_state.md R30,
30_encoding.md R117), and the running of a command on them (60_exceptions.md R310). -/

namespace Sys2Proof.Machine

/-- R18: `MemRead(IBUF, a, n)`. -/
def State.memRead (s : State) (a n : Nat) : List Byte := (List.range n).map fun i => s.ibufByte (a + i)

/-- R310: the input of the running command, `MemRead(IBUF, 0, latched_len)`. -/
def State.input (s : State) : List Byte := s.memRead 0 s.latchedLen.toNat

/-- What a command computes from the configuration and its input, as a function (R116): an error, or a success with the
hidden state it leaves. -/
abbrev Engine := Config → List Byte → Except Raise (Success × Hidden)

/-- R310: the core step of a command. The length is checked before anything is read (R316). -/
def State.runCommand (engine : Engine) (s : State) : State :=
  if s.cfg.inCap < s.latchedLen.toNat then s.completeErr (Raise.capacity .capInLen)
  else
    match engine s.cfg s.input with
    | .error e => s.completeErr e
    | .ok (r, h) => State.completeOk r { s with hidden := h }

end Sys2Proof.Machine
end

