-- ==== Sys2Proof/Machine/Huffman.lean ====
section
/-! DEFINITION. The Huffman bit coder: HUF_ENCODE and HUF_DECODE (42_huffman_coder.md). -/

namespace Sys2Proof.Machine

/-! ### HUF_ENCODE -/

/-- R242: the payload, the codewords of the input symbols in input order. -/
def hufPayload (t : CodeTable) (X : List Byte) : List Bool := X.flatMap fun x => t.bits x

/-- R125, R241: the frame of a table of `c` entries and a payload. -/
def hufFrame (t : CodeTable) (c : Nat) (payload : List Bool) : List Byte :=
  serializeTable t c ++ be32 payload.length ++ [BitVec.ofNat 8 (padLen payload.length)] ++ pack payload

/-- R241: HUF_ENCODE. -/
def hufEncode : Engine := fun cfg X =>
  if X.length = 0 then .ok ({ out := [] }, Hidden.init)
  else
    let h := hufBuild X
    let bw := hufPayload h.code X
    let frame := hufFrame h.code h.nSym bw
    if cfg.outCap < frame.length then .error (Raise.capacity .capOut)
    else
      .ok ({ out := frame, hufSymbols := h.nSym, hufBitlen := bw.length, hufPad := padLen bw.length },
        { Hidden.init with
          cursor := X.length, freq := h.freq, arena := h.arena, code := h.code, bitWriter := bw })

/-! ### HUF_DECODE -/

/-- R257: no two entries have the same symbol. -/
def uniqueSymbols : List Entry → Bool
  | [] => true
  | e :: es => es.all (fun f => !(e.1 == f.1)) && uniqueSymbols es

/-- R258, R25: no codeword is a prefix of, or equal to, another entry's. -/
def prefixFree : List Entry → Bool
  | [] => true
  | e :: es => es.all (fun f => !(e.2.isPrefixOf f.2) && !(f.2.isPrefixOf e.2)) && prefixFree es

/-- R259: `parse_trailer(F, p)`: the payload bit-length and the pad length. -/
def parseTrailer (F : List Byte) (p : Nat) : Except Raise (Nat × Nat) :=
  if F.length < p + 5 then .error (Raise.malformed .hufHdrShort 0)
  else
    let b := be32Read F p
    let pad := byteAt F (p + 4)
    if pad ≠ padLen b then .error (Raise.malformed .hufPadMismatch 0)
    else if F.length - (p + 5) ≠ ceilDiv b 8 then .error (Raise.malformed .hufLenMismatch 0)
    else .ok (b, pad)

/-- The variables of `scan` (R260): the accumulator, the payload index at which it began, the output. -/
structure HufScan where
  acc : List Bool
  start : Nat
  out : List Byte
  deriving DecidableEq, Repr

/-- R260: one turn of the scan, for the payload bit `b` at index `j`. -/
def hufScanStep (outCap : Nat) (T : List Entry) (j : Nat) (b : Bool) (d : HufScan) : Except Raise HufScan :=
  match T.find? fun e => e.2 == d.acc ++ [b] with
  | none => .ok { d with acc := d.acc ++ [b] }
  | some e =>
    if outCap < d.out.length + 1 then .error (Raise.capacity .capOut)
    else .ok { acc := [], start := j + 1, out := d.out ++ [e.1] }

/-- R260: the scan of the payload bits from index `j` on. -/
def hufScanLoop (outCap : Nat) (T : List Entry) : Nat → List Bool → HufScan → Except Raise HufScan
  | _, [], d => .ok d
  | j, b :: bs, d =>
    match hufScanStep outCap T j b d with
    | .error e => .error e
    | .ok d' => hufScanLoop outCap T (j + 1) bs d'

/-- R260: the variables of the scan before the first bit. -/
def HufScan.init : HufScan := { acc := [], start := 0, out := [] }

/-- R260, R261: `scan(bits, T)`. A non-empty final accumulator is an error at the index where it began. -/
def hufScan (outCap : Nat) (T : List Entry) (bits : List Bool) : Except Raise HufScan :=
  match hufScanLoop outCap T 0 bits HufScan.init with
  | .error e => .error e
  | .ok d => if d.acc.length = 0 then .ok d else .error (Raise.malformed .hufTrailingBits d.start)

/-- R256: HUF_DECODE on a non-empty frame whose table is parsed: the checks in order, then the scan. -/
def hufDecodeBody (outCap : Nat) (F : List Byte) (c : Nat) (T : List Entry) (p : Nat) :
    Except Raise (Success × Hidden) :=
  if !uniqueSymbols T then .error (Raise.malformed .hufDupSymbol 0)
  else if !prefixFree T then .error (Raise.malformed .hufNotPrefixFree 0)
  else
    match parseTrailer F p with
    | .error e => .error e
    | .ok (b, pad) =>
      let bits := unpack (F.drop (p + 5)) b
      match hufScan outCap T bits with
      | .error e => .error e
      | .ok d =>
        .ok ({ out := d.out, hufSymbols := c, hufBitlen := b, hufPad := pad },
          { Hidden.init with
            cursor := b, code := codeTable T, bitReader := bits, bitIndex := b, acc := d.acc })

/-- R256: HUF_DECODE. It uses the frame's table as it stands and builds no tree (R267). -/
def hufDecode : Engine := fun cfg F =>
  if F.length = 0 then .ok ({ out := [] }, Hidden.init)
  else
    match parseTable F with
    | .error e => .error e
    | .ok (c, T, p) => hufDecodeBody cfg.outCap F c T p

/-! ### The meanings -/

/-- HUF_ENCODE (R240 to R254): the core step of the command, on the latched length. -/
def execHufEncode (s : State) : Host.Outcome State Fault Refusal := .next (s.runCommand hufEncode)

/-- HUF_DECODE (R255 to R267): the core step of the command, on the latched length. -/
def execHufDecode (s : State) : Host.Outcome State Fault Refusal := .next (s.runCommand hufDecode)

end Sys2Proof.Machine
end

