-- ==== Sys2Proof/Machine/Lzw.lean ====
section
/-! DEFINITION. The LZW engine: the dictionary, LZW_ENCODE and LZW_DECODE (40_lzw.md). -/

namespace Sys2Proof.Machine

/-! ### The dictionary -/

/-- R161: `dict_init()`: only the 256 seeded entries. -/
def Dict.init : Dict := { entries := [] }

/-- R160: the code the dictionary assigns next. -/
def Dict.nextCode (d : Dict) : Nat := 256 + d.entries.length

/-- R162, R163: `insert(p, c)`; no effect once `nextCode = DICT_SIZE`. -/
def Dict.insert (dictSize : Nat) (d : Dict) (p : Nat) (c : Byte) : Dict :=
  if d.nextCode < dictSize then { entries := { pre := p, suf := c } :: d.entries } else d

/-- R164: `str(k)` over a list of entries, newest first. A code that is no entry has no string: the empty one here, which
no rule asks for (log entry 11). -/
def strIn : List DictEntry → Nat → List Byte
  | [], k => if k < 256 then [BitVec.ofNat 8 k] else []
  | e :: es, k => if k = 256 + es.length then strIn es e.pre ++ [e.suf] else strIn es k

/-- R164: `str(k)`. -/
def Dict.str (d : Dict) (k : Nat) : List Byte := strIn d.entries k

/-- R165: `find(p, c)` over a list of entries, newest first. -/
def findIn (p : Nat) (c : Byte) : List DictEntry → Option Nat
  | [] => none
  | e :: es => if e.pre = p ∧ e.suf = c then some (256 + es.length) else findIn p c es

/-- R165: `find(p, c)`. -/
def Dict.find (d : Dict) (p : Nat) (c : Byte) : Option Nat := findIn p c d.entries

/-! ### LZW_ENCODE -/

/-- R122: `lzw_width(m)`, the least of 1, 2, 4, 8, 16, 32 that covers `m`. Every code is below 2^32. -/
def lzwWidth (m : Nat) : Nat :=
  if m < 2 ^ 1 then 1
  else if m < 2 ^ 2 then 2
  else if m < 2 ^ 4 then 4
  else if m < 2 ^ 8 then 8
  else if m < 2 ^ 16 then 16
  else 32

/-- The variables of `lzw_codes` (R168): the dictionary, the current match as a code (R169), the codes emitted. -/
structure LzwEnc where
  dict : Dict
  w : Nat
  codes : List Nat
  deriving DecidableEq, Repr

/-- R168: one turn of the scan, for symbol `c`. -/
def lzwEncStep (dictSize : Nat) (e : LzwEnc) (c : Byte) : LzwEnc :=
  match e.dict.find e.w c with
  | some k => { e with w := k }
  | none => { dict := e.dict.insert dictSize e.w c, w := c.toNat, codes := e.codes ++ [e.w] }

/-- R168: the scan of a non-empty input, its first symbol `x` apart. -/
def lzwScan (dictSize : Nat) (x : Byte) (xs : List Byte) : LzwEnc :=
  xs.foldl (lzwEncStep dictSize) { dict := Dict.init, w := x.toNat, codes := [] }

/-- R168: `lzw_codes(X)`. -/
def lzwCodes (dictSize : Nat) : List Byte → List Nat
  | [] => []
  | x :: xs => (lzwScan dictSize x xs).codes ++ [(lzwScan dictSize x xs).w]

/-- R170: `max(codes)`. -/
def maxCode (codes : List Nat) : Nat := codes.foldl max 0

/-- R118, R123: the CODES bit string of a frame. -/
def lzwPayload (codes : List Nat) (w : Nat) : List Bool := codes.flatMap fun c => bitsOf c w

/-- R118, R170: the frame of a sequence of codes. -/
def lzwFrame (codes : List Nat) : List Byte :=
  let w := lzwWidth (maxCode codes)
  [BitVec.ofNat 8 w] ++ be32 codes.length ++ pack (lzwPayload codes w)

/-- R170: LZW_ENCODE. -/
def lzwEncode : Engine := fun cfg X =>
  match X with
  | [] => .ok ({ out := [] }, Hidden.init)
  | x :: xs =>
    let e := lzwScan cfg.dictSize x xs
    let codes := e.codes ++ [e.w]
    let w := lzwWidth (maxCode codes)
    let frame := lzwFrame codes
    if cfg.outCap < frame.length then .error (Raise.capacity .capOut)
    else
      .ok ({ out := frame, lzwWidth := w, lzwCount := codes.length },
        { Hidden.init with
          cursor := X.length, dict := e.dict, matchCode := e.w, codes := codes, bitWriter := lzwPayload codes w })

/-! ### LZW_DECODE -/

/-- R120: the legal values of field W. -/
def legalWidth (w : Nat) : Bool := [1, 2, 4, 8, 16, 32].contains w

/-- R123, R181: the first `n` codes of a bit string, `w` bits each. -/
def codesOf (w : Nat) : Nat → List Bool → List Nat
  | 0, _ => []
  | n + 1, bits => value (bits.take w) :: codesOf w n (bits.drop w)

/-- R181: the checks of `lzw_parse` on a non-empty frame, with W, N and the codes. -/
def lzwParse (F : List Byte) : Except Raise (Nat × Nat × List Nat) :=
  if F.length < 5 then .error (Raise.malformed .lzwHdrShort 0)
  else
    let w := byteAt F 0
    if !legalWidth w then .error (Raise.malformed .lzwBadWidth 0)
    else
      let n := be32Read F 1
      if F.length ≠ 5 + ceilDiv (n * w) 8 then .error (Raise.malformed .lzwLenMismatch 0)
      else .ok (w, n, codesOf w n (unpack (F.drop 5) (n * w)))

/-- The variables of the code loop of R182: the dictionary, the previous code with its entry (`pk` and `prev`, none before
the first code), the output. -/
structure LzwDec where
  dict : Dict
  prev : Option (Nat × List Byte)
  out : List Byte
  deriving DecidableEq, Repr

/-- R182 to R184: the string of code `k`, or none where `k` is not decodable. -/
def lzwEntry (dictSize : Nat) (d : LzwDec) (k : Nat) : Option (List Byte) :=
  match d.prev with
  | none => if 256 ≤ k then none else some [BitVec.ofNat 8 k]
  | some (_, prev) =>
    if k < d.dict.nextCode then some (d.dict.str k)
    else if k = d.dict.nextCode ∧ d.dict.nextCode < dictSize then some (prev ++ [prev.headD 0])
    else none

/-- R182, R185: `insert(pk, entry[0])`, after every code but the first. -/
def lzwLearn (dictSize : Nat) (d : LzwDec) (entry : List Byte) : Dict :=
  match d.prev with
  | none => d.dict
  | some (pk, _) => d.dict.insert dictSize pk (entry.headD 0)

/-- R182: one turn of the code loop, for code `k` at index `i`. The code is checked before its output (R320). -/
def lzwDecStep (cfg : Config) (i k : Nat) (d : LzwDec) : Except Raise LzwDec :=
  match lzwEntry cfg.dictSize d k with
  | none => .error (Raise.malformed .lzwBadCode i)
  | some entry =>
    if cfg.outCap < d.out.length + entry.length then .error (Raise.capacity .capOut)
    else .ok { dict := lzwLearn cfg.dictSize d entry, prev := some (k, entry), out := d.out ++ entry }

/-- R182: the code loop from index `i` on. -/
def lzwDecLoop (cfg : Config) : Nat → List Nat → LzwDec → Except Raise LzwDec
  | _, [], d => .ok d
  | i, k :: ks, d =>
    match lzwDecStep cfg i k d with
    | .error e => .error e
    | .ok d' => lzwDecLoop cfg (i + 1) ks d'

/-- R182: the variables of the code loop before the first code. -/
def LzwDec.init : LzwDec := { dict := Dict.init, prev := none, out := [] }

/-- R182: LZW_DECODE. -/
def lzwDecode : Engine := fun cfg F =>
  if F.length = 0 then .ok ({ out := [] }, Hidden.init)
  else
    match lzwParse F with
    | .error e => .error e
    | .ok (w, n, codes) =>
      match lzwDecLoop cfg 0 codes LzwDec.init with
      | .error e => .error e
      | .ok d =>
        .ok ({ out := d.out, lzwWidth := w, lzwCount := n },
          { Hidden.init with
            cursor := n, dict := d.dict, matchCode := (d.prev.getD (0, [])).1, prev := (d.prev.getD (0, [])).2,
            codes := codes, bitReader := unpack (F.drop 5) (n * w), bitIndex := n * w })

/-! ### The meanings -/

/-- LZW_ENCODE (R167 to R177): the core step of the command, on the latched length. -/
def execLzwEncode (s : State) : Host.Outcome State Fault Refusal := .next (s.runCommand lzwEncode)

/-- LZW_DECODE (R180 to R193): the core step of the command, on the latched length. -/
def execLzwDecode (s : State) : Host.Outcome State Fault Refusal := .next (s.runCommand lzwDecode)

end Sys2Proof.Machine
end

