-- ==== Sys2Proof/Machine/Dispatch.lean ====
section
/-! DEFINITION. The meaning of each command: its core step (60_exceptions.md R310). -/

namespace Sys2Proof.Machine

def exec (i : Instr) (s : State) : Host.Outcome State Fault Refusal :=
  match i with
  | .lzwEncode => Sys2Proof.Machine.execLzwEncode s
  | .lzwDecode => Sys2Proof.Machine.execLzwDecode s
  | .hufEncode => Sys2Proof.Machine.execHufEncode s
  | .hufDecode => Sys2Proof.Machine.execHufDecode s

end Sys2Proof.Machine
end

