-- ==== Sys2Proof/Machine/Transactions.lean ====
section
/-! DEFINITION. The host's transactions (20_memory.md R80 to R84, R93) and its program lines and pseudo-instructions
(30_encoding.md R138 to R140). -/

namespace Sys2Proof.Machine

/-! ### Transactions -/

/-- R82: a register access CORE accepts: 32 bits wide, at a multiple of 4 from 0x00 to 0x3C. -/
def registerOk (width off : Nat) : Bool := width == 32 && off % 4 == 0 && decide (off ≤ 0x3C)

/-- R84: why a transaction is outside CORE's contract, if it is. The width, offset or index alone decides it, whether
or not a command runs (log entry 10). -/
def Transaction.refusal (c : Config) : Transaction → Option Refusal
  | .regRead width off => if registerOk width off then none else some (.registerAccess width off)
  | .regWrite width off _ => if registerOk width off then none else some (.registerAccess width off)
  | .ibufRead i => if i < c.inCap then none else some (.ibufIndex i)
  | .ibufWrite i _ => if i < c.inCap then none else some (.ibufIndex i)
  | .obufRead i => if i < c.outCap then none else some (.obufIndex i)
  | .obufWrite i _ => if i < c.outCap then none else some (.obufIndex i)

/-- R82, R83: the transaction is within CORE's contract. -/
def Transaction.inContract (c : Config) (t : Transaction) : Bool := (t.refusal c).isNone

/-- The host sees the result of a read. -/
def State.sees (s : State) (r : Seen) : State := { s with seen := r :: s.seen }

/-- R80: the host reads the register `r` and sees the result. -/
def State.hostReadReg (s : State) (r : Reg) : State := (s.readReg r).2.sees (.reg r.offset (s.readReg r).1)

/-- R80: the host reads a byte of OBUF and sees the result. -/
def State.hostReadObuf (s : State) (i : Nat) : State := (s.readObuf i).2.sees (.obuf i (s.readObuf i).1)

/-- R80, R93: the effect of a transaction that is within the contract. ObufWrite has none. -/
def State.perform (s : State) : Transaction → State
  | .regRead _ off =>
    match Reg.ofOffset off with
    | some r => s.hostReadReg r
    | none => s
  | .regWrite _ off v =>
    match Reg.ofOffset off with
    | some r => s.writeReg r v
    | none => s
  | .ibufRead i => s.sees (.ibuf i (s.ibufByte i))
  | .ibufWrite i b => s.writeIbuf i b
  | .obufRead i => s.hostReadObuf i
  | .obufWrite _ _ => s

/-- R81, R84: a transaction takes effect as one step, or is refused. -/
def transact (t : Transaction) (s : State) : Host.Outcome State Fault Refusal :=
  match t.refusal s.cfg with
  | some r => .refused r
  | none => .next (s.perform t)

/-! ### Program lines -/

namespace HostLine

/-- R138: `wreg NAME, value`. -/
def wreg (r : Reg) (v : Word) : HostLine := .txn (.regWrite 32 r.offset v)

/-- R138: `rreg NAME`. -/
def rreg (r : Reg) : HostLine := .txn (.regRead 32 r.offset)

/-- R138: `wibuf i, byte`. -/
def wibuf (i : Nat) (b : Byte) : HostLine := .txn (.ibufWrite i b)

/-- R138: `ribuf i`. -/
def ribuf (i : Nat) : HostLine := .txn (.ibufRead i)

/-- R138: `robuf i`. -/
def robuf (i : Nat) : HostLine := .txn (.obufRead i)

/-- R140: `load i, BYTES`. -/
def load : Nat → List Byte → List HostLine
  | _, [] => []
  | i, b :: bs => wibuf i b :: load (i + 1) bs

/-- R140: `input BYTES`. -/
def input (bs : List Byte) : List HostLine := load 0 bs ++ [wreg .inLen (BitVec.ofNat 32 bs.length)]

/-- R140: `run OP`. -/
def run (i : Instr) : List HostLine := [wreg .command (encode i), .wait]

/-- R140: the lines of `dump` after its read of OUT_LEN answered `n`. -/
def dumpRest (n : Nat) : List HostLine := (List.range n).map robuf

/-- R140: the lines of `copy` after its read of OUT_LEN answered `n`. -/
def copyRest (n : Nat) : List HostLine := (List.range n).map .copyByte ++ [wreg .inLen (BitVec.ofNat 32 n)]

end HostLine

/-- The host puts lines before what it has still to do. -/
def State.hostNext (ls : List HostLine) (s : State) : State := { s with host := ls ++ s.host }

/-- One host step: the line, already taken off the program, is run. Each step makes one transaction (R81). -/
def runLine (line : HostLine) (s : State) : Host.Outcome State Fault Refusal :=
  match line with
  | .txn t => transact t s
  | .wait => .next ((s.hostReadReg .status).hostNext (if (s.readReg .status).1.getLsbD 0 then [.wait] else []))
  | .dump => .next ((s.hostReadReg .outLen).hostNext (HostLine.dumpRest (s.readReg .outLen).1.toNat))
  | .copy => .next ((s.hostReadReg .outLen).hostNext (HostLine.copyRest (s.readReg .outLen).1.toNat))
  | .copyByte i =>
    match (Transaction.obufRead i).refusal s.cfg with
    | some r => .refused r
    | none => .next ((s.hostReadObuf i).hostNext [HostLine.wibuf i (s.readObuf i).1])

/-- The host's turn: its next line. A host with no line left does nothing (R353, R361). -/
def hostTurn (s : State) : Host.Outcome State Fault Refusal :=
  match s.host with
  | [] => .next s
  | line :: rest => runLine line { s with host := rest }

end Sys2Proof.Machine
end

