-- ==== Sys2Proof/Machine/Sequencer.lean ====
section
/-! DEFINITION. The total order of steps (20_memory.md R95): whose turn it is, and what a turn does. -/

namespace Sys2Proof.Machine

/-- R310: the core's turn: the completion step of the running command. It is not enabled while IDLE: nothing happens. -/
def coreTurn (s : State) : Host.Outcome State Fault Refusal :=
  match s.seq with
  | .idle => .next s
  | .busy i => exec i s

/-- The step of the agent whose turn it is. -/
def takeTurn (t : Turn) (s : State) : Host.Outcome State Fault Refusal :=
  match t with
  | .host => hostTurn s
  | .core => coreTurn s
  | .reset => .next s.resetEvent

/-- Whose turn it is past the end of the schedule: the core's while a command runs, so that every started command
completes (R360), and the host's otherwise. -/
def State.defaultTurn (s : State) : Turn := if s.isBusy then .core else .host

/-- One step of the machine: the next turn of the schedule, or the default one. -/
def nextTurn (s : State) : Host.Outcome State Fault Refusal :=
  match s.schedule with
  | t :: rest => takeTurn t { s with schedule := rest }
  | [] => takeTurn s.defaultTurn s

/-- The state in which the word `v` has just been written to COMMAND (R116) and the core moves next. CORE does not fetch:
this is how a command comes to be the one the next step runs (log entry 8). -/
def State.placeCommand (s : State) (v : Word) : State :=
  { State.commandWrite v { s with seq := .idle } with schedule := .core :: s.schedule }

end Sys2Proof.Machine
end

