-- ==== Sys2Proof/Machine/Step.lean ====
section
/-! DEFINITION. The step of the machine, and how a command word is placed for it. -/

namespace Sys2Proof.Machine

/-- One step of the total order of 20_memory.md R95. -/
def step (s : State) : Host.Outcome State Fault Refusal := nextTurn s

/-- The state in which the command word `w` of `nbits` bits has been written to COMMAND and the core moves next, so that
the very next step runs it (log entry 8). -/
def State.withFetchWord (s : State) (nbits w : Nat) : State := s.placeCommand (BitVec.ofNat 32 (w % 2 ^ nbits))

end Sys2Proof.Machine
end

