-- ==== Sys2Proof/WellFormed.lean ====
section
/-! DEFINITION. What is well formed: a command, a COMMAND word (30_encoding.md R113 to R115) and a configuration
(00_scope.md R9 to R11). The contract of a host transaction is `Transaction.inContract` of Machine/Transactions.lean. -/

namespace Sys2Proof

/-- A COMMAND word that is a command: RSVD zero (R113) and OP not reserved (R115). -/
def commandWordWf (w : Word) : Bool :=
  rsvdField w == 0#28 && decide (1 ≤ (opField w).toNat) && decide ((opField w).toNat ≤ 4)

/-- A command is well formed when its word is. It has no operand, so every command is. -/
def Instr.wf (i : Instr) : Bool := commandWordWf (encode i)

namespace Config

/-- R9: 1 <= IN_CAP <= 2^29 - 1. -/
def inCapOk (c : Config) : Bool := decide (1 ≤ c.inCap) && decide (c.inCap ≤ 2 ^ 29 - 1)

/-- R10: 1 <= OUT_CAP <= 2^32 - 1. -/
def outCapOk (c : Config) : Bool := decide (1 ≤ c.outCap) && decide (c.outCap ≤ 2 ^ 32 - 1)

/-- R11: 256 <= DICT_SIZE <= 2^31. -/
def dictSizeOk (c : Config) : Bool := decide (256 ≤ c.dictSize) && decide (c.dictSize ≤ 2 ^ 31)

/-- The parameters are in the ranges of R9 to R11. Every placement is allowed: CORE does not see it (R86). -/
def wf (c : Config) : Bool := c.inCapOk && c.outCapOk && c.dictSizeOk

/-- The `m` addresses from `a` on and the `n` addresses from `b` on have none in common. -/
def apart (a m b n : Nat) : Bool := decide (a + m ≤ b) || decide (b + n ≤ a)

/-- R85, R86: the placement of the three spaces, 64, IN_CAP and OUT_CAP bytes long, keeps them disjoint. A platform whose
host reaches them at one system address map needs it; CORE does not. -/
def placementOk (c : Config) : Bool :=
  apart c.place.reg 64 c.place.ibuf c.inCap && apart c.place.reg 64 c.place.obuf c.outCap &&
    apart c.place.ibuf c.inCap c.place.obuf c.outCap

end Config

end Sys2Proof
end

