-- ==== Sys2Proof/Safety.lean ====
section
/-! DEFINITION. What statements are made of: the invariant of CORE's state, what a command that succeeds or fails leaves
and leaves alone, whose turn it is, the host programs that are never refused; and, apart from the functions the machine runs,
what a frame says bit by bit, what codes decode to, and the source's own LZW encoder over byte strings. -/

namespace Sys2Proof.Machine

/-- R41, R120: the values LZW_WIDTH can hold. -/
def widthOk (w : Nat) : Bool := [0, 1, 2, 4, 8, 16, 32].contains w

/-- R321: OUT_LEN and the info registers are 0. -/
def Results.infoZero (r : Results) : Bool :=
  r.outLen == 0 && r.lzwWidth == 0 && r.lzwCount == 0 && r.hufSymbols == 0 && r.hufBitlen == 0 && r.hufPad == 0

/-- The invariant of CORE's state. Every step keeps it. -/
structure State.Inv (s : State) : Prop where
  /-- R9 to R11: the configuration is in range. -/
  cfg_wf : s.cfg.wf = true
  /-- IBUF is in canonical form. -/
  ibuf_wf : s.ibuf.wf = true
  /-- R54: IBUF has IN_CAP bytes. -/
  ibuf_below : s.ibuf.below s.cfg.inCap = true
  /-- R55, R103: the bytes of OBUF whose values are known are those below OUT_LEN. -/
  obuf_lists : s.obuf.map Prod.fst = List.range s.res.outLen.toNat
  /-- R39: OUT_LEN is at most OUT_CAP. -/
  outLen_le : s.res.outLen.toNat ≤ s.cfg.outCap
  /-- R52: what STATUS reads while BUSY. -/
  busy_status : ∀ i, s.seq = .busy i → s.done = false ∧ s.err = .ok ∧ s.lastOp = i.opcode
  /-- R35, R50: before the first completion ERR is OK. -/
  notDone_ok : s.done = false → s.err = .ok
  /-- R313: while IDLE the detail is one of the kind's. -/
  detail_kind : s.seq = .idle → s.res.errDetail.kind = s.err
  /-- R321: an error leaves OUT_LEN and the info registers 0. -/
  error_zero : s.res.errDetail ≠ .none → s.res.infoZero = true
  /-- R314: only two details record a position. -/
  errPos_zero : s.res.errDetail ≠ .lzwBadCode → s.res.errDetail ≠ .hufTrailingBits → s.res.errPos = 0
  /-- R41 to R45: at most one engine's info registers are not 0. -/
  one_engine : (s.res.lzwWidth = 0 ∧ s.res.lzwCount = 0) ∨
    (s.res.hufSymbols = 0 ∧ s.res.hufBitlen = 0 ∧ s.res.hufPad = 0)
  /-- R41, R120: LZW_WIDTH is a legal width, or 0. -/
  width_ok : widthOk s.res.lzwWidth.toNat = true
  /-- R43: HUF_SYMBOLS is at most 256. -/
  symbols_le : s.res.hufSymbols.toNat ≤ 256
  /-- R45, R248: HUF_PAD is the pad length of HUF_BITLEN. -/
  pad_eq : s.res.hufPad.toNat = padLen s.res.hufBitlen.toNat
  /-- The draws in use are behind the next unused one. -/
  draws_lt : s.ibufDraw < s.draws ∧ s.obufDraw < s.draws

/-- `t` differs from `s` in nothing of CORE's: only in what the host has to do and has seen, in whose turn it is, and in the
count of draws. -/
def State.SameCore (s t : State) : Prop :=
  t = { s with host := t.host, seen := t.seen, schedule := t.schedule, draws := t.draws }

/-- R82, R83: a host line whose transactions are all within the contract, whatever the host reads. `dump` and `copy` depend on
OUT_LEN, and are left out. -/
def HostLine.inContract (c : Config) : HostLine → Bool
  | .txn t => t.inContract c
  | .wait => true
  | .dump | .copy => false
  | .copyByte i => decide (i < c.outCap) && decide (i < c.inCap)

/-- R52, R82, R83: while BUSY, the lines that the next `n` turns of the host run are within the contract. A host that waits
waits on, so the lines behind a `wait` are not run. A `dump` or a `copy` reads OUT_LEN, which answers any value, so it may
only be the last line that is run. The lines of `copyByte` are those of R140's `copy`. -/
def HostLine.turnsInContract (c : Config) : Nat → List HostLine → Bool
  | 0, _ => true
  | _ + 1, [] => true
  | n + 1, .txn t :: rest => t.inContract c && turnsInContract c n rest
  | _ + 1, .wait :: _ => true
  | n + 1, .dump :: _ => n == 0
  | n + 1, .copy :: _ => n == 0
  | n + 1, .copyByte i :: rest => decide (i < c.outCap) && turnsInContract c n (wibuf i 0 :: rest)

/-- R84: the next line of the host makes a transaction that is outside the contract, for the reason `r`. -/
def State.NextLineRefused (s : State) (r : Refusal) : Prop :=
  ∃ line rest, s.host = line :: rest ∧
    ((∃ x, line = .txn x ∧ x.refusal s.cfg = some r) ∨
      ∃ i, line = .copyByte i ∧ (Transaction.obufRead i).refusal s.cfg = some r)

/-! ### What a command leaves -/

/-- What a register reads as while IDLE, as a number. -/
def State.reg (s : State) (r : Reg) : Nat := (s.regValue r).toNat

/-- R98, R310: what the machine holds once a command has succeeded with the output `out` and the named info registers. -/
structure State.Succeeded (s : State) (out : List Byte) (width count symbols bitlen pad : Nat) : Prop where
  seq : s.seq = .idle
  done : s.done = true
  err : s.err = .ok
  outLen : s.reg .outLen = out.length
  lzwWidth : s.reg .lzwWidth = width
  lzwCount : s.reg .lzwCount = count
  hufSymbols : s.reg .hufSymbols = symbols
  hufBitlen : s.reg .hufBitlen = bitlen
  hufPad : s.reg .hufPad = pad
  errDetail : s.reg .errDetail = 0
  errPos : s.reg .errPos = 0
  obuf : ∀ i, i < out.length → s.obufByte i = out.getD i 0

/-- R321: what the state `t` after a failure in state `s` holds. Every byte of OBUF is a byte of a draw that `s` had not
used, so nothing is known of it. -/
structure State.Failed (s t : State) (d : Detail) (pos : Nat) : Prop where
  seq : t.seq = .idle
  done : t.done = true
  err : t.err = d.kind
  failed : t.err ≠ .ok
  errDetail : t.reg .errDetail = d.code.toNat
  errPos : t.reg .errPos = pos
  outLen : t.reg .outLen = 0
  lzwWidth : t.reg .lzwWidth = 0
  lzwCount : t.reg .lzwCount = 0
  hufSymbols : t.reg .hufSymbols = 0
  hufBitlen : t.reg .hufBitlen = 0
  hufPad : t.reg .hufPad = 0
  obuf : ∀ i, t.obufByte i = Config.freeByte s.draws i

/-- R38, R91, R321: what a command leaves unchanged, however it ends: the configuration, IN_LEN, LAST_OP, the latched length,
every byte of IBUF, and everything of the host's. The result registers, BUSY, DONE, ERR, OBUF and the hidden state are what a
command writes. -/
structure State.CommandFrame (s t : State) : Prop where
  cfg : t.cfg = s.cfg
  inLen : t.inLen = s.inLen
  lastOp : t.lastOp = s.lastOp
  latchedLen : t.latchedLen = s.latchedLen
  ibuf : ∀ i, t.ibufByte i = s.ibufByte i
  host : t.host = s.host
  seen : t.seen = s.seen
  schedule : t.schedule = s.schedule

/-- R80: a read of the register at offset `off` answers `n`, and changes nothing but what the host has seen. -/
def State.Reads (s : State) (off n : Nat) : Prop :=
  ∃ v : Word, v.toNat = n ∧ transact (.regRead 32 off) s = .next (s.sees (.reg off v))

/-! ### Turns -/

/-- Whose turn it is in the next step (R95). -/
def State.turn (s : State) : Turn := s.schedule.headD s.defaultTurn

/-- The next step of the machine is a host line that writes `v` to COMMAND. -/
def State.WritesCommand (s : State) (v : Word) : Prop :=
  s.turn = .host ∧ ∃ rest, s.host = .txn (.regWrite 32 0 v) :: rest

/-! ### Frames, bit by bit -/

/-- R88: bit `j` of the bit string packed in a byte string: bit `7 - (j mod 8)` of byte `j div 8`. -/
def bitAt (F : List Byte) (j : Nat) : Bool := (F.getD (j / 8) 0).getLsbD (7 - j % 8)

/-- R118 to R124: `F` is an LZW frame of width `w` whose code fields hold `ks`. The pad bits may be any. -/
structure LzwFrameReads (F : List Byte) (w : Nat) (ks : List Nat) : Prop where
  legal : w ∈ [1, 2, 4, 8, 16, 32]
  width : byteAt F 0 = w
  count : be32Read F 1 = ks.length
  length : F.length = 5 + ceilDiv (ks.length * w) 8
  lt : ∀ k ∈ ks, k < 2 ^ w
  bits : ∀ i, i < ks.length → ∀ j, j < w → (ks.getD i 0).testBit (w - 1 - j) = bitAt (F.drop 5) (i * w + j)

/-- R182 to R185: the codes `ks` decode to the strings `es` where DICT_SIZE is `n`. A code below 256 is its byte. Entry
`256 + j` of the dictionary is the string of code `j` and the first byte of the string of code `j + 1`, so code `i` may name
it when `j < i`; for `j + 1 = i` that is the self-referential case (R184). -/
def LzwDecodesTo (n : Nat) (ks : List Nat) (es : List (List Byte)) : Prop :=
  es.length = ks.length ∧
    ∀ i, i < ks.length →
      (ks.getD i 0 < 256 ∧ es.getD i [] = [BitVec.ofNat 8 (ks.getD i 0)]) ∨
      (∃ j, j < i ∧ ks.getD i 0 = 256 + j ∧ 256 + j < n ∧
        es.getD i [] = es.getD j [] ++ [(es.getD (j + 1) []).headD 0])

/-- R125, R129: `G` is the table part of a Huffman frame, with the entries `T` in frame order. The pad bits of a codeword
field may be any. -/
inductive TableReads : List Byte → List Entry → Prop
  | nil : TableReads [] []
  | cons (s : Byte) (bits : List Bool) (field G : List Byte) (T : List Entry) (pos : 1 ≤ bits.length)
      (le : bits.length ≤ 255) (size : field.length = ceilDiv bits.length 8)
      (reads : ∀ j, j < bits.length → bits.getD j false = bitAt field j) (rest : TableReads G T) :
      TableReads (s :: BitVec.ofNat 8 bits.length :: (field ++ G)) ((s, bits) :: T)

/-- R125: `F` begins with the symbol count and the entries `T`, and `R` is what follows. -/
def HufTableAt (F : List Byte) (T : List Entry) (R : List Byte) : Prop :=
  ∃ hi lo G, F = hi :: lo :: (G ++ R) ∧ hi.toNat * 2 ^ 8 + lo.toNat = T.length ∧ T.length ≤ 256 ∧ TableReads G T

/-- R125, R130 to R132: `R` is the trailer and the payload of a Huffman frame whose payload bits are `bits`. The pad bits may
be any. -/
structure HufTrailerAt (R : List Byte) (bits : List Bool) : Prop where
  length : R.length = 5 + ceilDiv bits.length 8
  bitlen : be32Read R 0 = bits.length
  pad : byteAt R 4 = padLen bits.length
  reads : ∀ j, j < bits.length → bits.getD j false = bitAt (R.drop 5) j

/-- R257, R258: the entries have different symbols, and no codeword is a prefix of, or equal to, another's. -/
def TableSound (T : List Entry) : Prop :=
  (T.map Prod.fst).Nodup ∧ T.Pairwise fun e f => ¬ e.2 <+: f.2 ∧ ¬ f.2 <+: e.2

/-- R137, R260: the bits are the codewords, in the table `T`, of the bytes `out`. -/
def Spells (T : List Entry) (bits : List Bool) (out : List Byte) : Prop :=
  ∃ word : List Entry, (∀ e ∈ word, e ∈ T) ∧ bits = word.flatMap Prod.snd ∧ out = word.map Prod.fst

/-- R213: the pair `(freq(x), x)` is not larger than `(freq(y), y)`, compared lexicographically. -/
def NotAfter (a : Arena) (x y : Nat) : Prop := a.freqAt x < a.freqAt y ∨ (a.freqAt x = a.freqAt y ∧ x ≤ y)

/-- R213: the arena index `x` is live when the node with index `i` is made: it is in the arena, and no node made before is its
parent. -/
def LiveAt (a : Arena) (i x : Nat) : Prop :=
  x < i ∧ ∀ j f l r, j < i → a[j]? = some (.internal f l r) → x ≠ l ∧ x ≠ r

/-- R218: the edge bits from the node at index `x` down to the leaf of `s`: 0 to a left child, 1 to a right one. -/
inductive PathTo (a : Arena) (s : Byte) : Nat → List Bool → Prop
  | leaf {x f : Nat} (h : a[x]? = some (.leaf f s)) : PathTo a s x []
  | left {x f l r : Nat} {bits : List Bool} (h : a[x]? = some (.internal f l r)) (p : PathTo a s l bits) :
      PathTo a s x (false :: bits)
  | right {x f l r : Nat} {bits : List Bool} (h : a[x]? = some (.internal f l r)) (p : PathTo a s r bits) :
      PathTo a s x (true :: bits)

/-- R222: an assignment of prefix-free codewords of at least one bit to the distinct symbols of `X`. -/
structure Assigns (E : List Entry) (X : List Byte) : Prop where
  nodup : (E.map Prod.fst).Nodup
  symbols : ∀ s, s ∈ E.map Prod.fst ↔ s ∈ X
  free : E.Pairwise fun e f => ¬ e.2 <+: f.2 ∧ ¬ f.2 <+: e.2
  pos : ∀ e ∈ E, 1 ≤ e.2.length

/-- R222, R225: the total length of `X` in an assignment, the sum of frequency times codeword length. -/
def totalLength (E : List Entry) (X : List Byte) : Nat := (E.map fun e => X.count e.1 * e.2.length).sum

/-! ### The source's LZW encoder -/

/-- The seeded dictionary of the source: code `k` is the one-byte string `[k]` (R161). -/
def seededStrings : List (List Byte) := (List.range 256).map fun k => [BitVec.ofNat 8 k]

/-- R168, quoting the source: the encoder over a dictionary of byte strings, listed by code, with the current match `w` as a
byte string. The dictionary holds at most `n` entries and does not grow past them (R163). -/
def sourceEncode (n : Nat) : List (List Byte) → List Byte → List Byte → List Nat
  | d, w, [] => if w = [] then [] else [d.idxOf w]
  | d, w, c :: cs =>
    if w ++ [c] ∈ d then sourceEncode n d (w ++ [c]) cs
    else d.idxOf w :: sourceEncode n (if d.length < n then d ++ [w ++ [c]] else d) [c] cs

end Sys2Proof.Machine
end

