-- ==== Sys2Proof/Certificates/Slice0/Obligations.lean ====
section
/-! DEFINITION. The statements for the provers. Each docstring says which rule of spec/ a statement formalises, and what of it
is the model's own. A command is run by `exec`; a host transaction is made by `transact`. -/

section
open Sys2Proof Sys2Proof.Machine

/-! ## The COMMAND word -/

/-- R114: the words of the opcode table are the four commands. -/
def Obligations.CommandWordsOfTheTable : Prop :=
  decode 0x00000001#32 = .ok .lzwEncode ∧ decode 0x00000002#32 = .ok .lzwDecode ∧
    decode 0x00000003#32 = .ok .hufEncode ∧ decode 0x00000004#32 = .ok .hufDecode

/-- R111, R113, R115: every 32-bit word is either the encoding of one command, which decodes to it, or is rejected: for its
reserved bits when it is 16 or more, and otherwise for its opcode. -/
def Obligations.EachWordHasOneMeaning : Prop :=
  ∀ w : Word,
    (∀ i, decode w = .ok i ↔ w = encode i) ∧
    (decode w = .error .reservedBits ↔ 16 ≤ w.toNat) ∧
    (decode w = .error .badOpcode ↔ w.toNat = 0 ∨ (5 ≤ w.toNat ∧ w.toNat ≤ 15))

/-- R315, R318: the effect of a COMMAND write. While BUSY it is ignored. While IDLE a word that is no command completes at
once with BAD_COMMAND, reserved bits before the opcode, and a command starts and cannot fail in the write. LAST_OP records
the low four bits of the word in both cases. -/
def Obligations.CommandWriteEffect : Prop :=
  ∀ (s : State) (v : Word), ∃ t, transact (.regWrite 32 0x00 v) s = .next t ∧
    (∀ op, s.seq = .busy op → t = s) ∧
    (s.seq = .idle → 16 ≤ v.toNat →
      s.Failed t .cmdReservedBits 0 ∧ t.lastOp.toNat = v.toNat % 16 ∧ { s with lastOp := t.lastOp }.CommandFrame t) ∧
    (s.seq = .idle → v.toNat = 0 ∨ (5 ≤ v.toNat ∧ v.toNat ≤ 15) →
      s.Failed t .badOpcode 0 ∧ t.lastOp.toNat = v.toNat % 16 ∧ { s with lastOp := t.lastOp }.CommandFrame t) ∧
    (∀ i, s.seq = .idle → v = encode i →
      t = { s with seq := .busy i, latchedLen := s.inLen, done := false, err := .ok, lastOp := i.opcode } ∧
        t.lastOp.toNat = v.toNat % 16)

/-! ## The registers and the buffers -/

/-- R96: while a command runs, host writes to IBUF, IN_LEN and COMMAND change nothing, and no turn of the host, whatever its
line, changes anything of CORE's; so the bytes and the length that the command reads are those of its start. -/
def Obligations.HostCannotDisturbARunningCommand : Prop :=
  ∀ (s : State) (op : Instr), s.seq = .busy op →
    (∀ v, transact (.regWrite 32 0x00 v) s = .next s) ∧
    (∀ v, transact (.regWrite 32 0x08 v) s = .next s) ∧
    (∀ i b, i < s.cfg.inCap → transact (.ibufWrite i b) s = .next s) ∧
    (∀ t, hostTurn s = .next t →
      s.SameCore t ∧ t.seq = .busy op ∧ t.latchedLen = s.latchedLen ∧ t.input = s.input)

/-- R38: IN_LEN. A write while IDLE stores all 32 bits; one while BUSY is ignored; a read returns the stored value; the next
command consumes that many bytes of IBUF from offset 0, and rejects a length above IN_CAP; no command writes IN_LEN. -/
def Obligations.InLenRegister : Prop :=
  (∀ (s : State) (v : Word), s.seq = .idle → transact (.regWrite 32 0x08 v) s = .next { s with inLen := v }) ∧
  (∀ (s : State) (op : Instr) (v : Word), s.seq = .busy op → transact (.regWrite 32 0x08 v) s = .next s) ∧
  (∀ s : State, transact (.regRead 32 0x08) s = .next (s.sees (.reg 0x08 s.inLen))) ∧
  (∀ (s t : State) (i : Instr), s.seq = .idle → transact (.regWrite 32 0x00 (encode i)) s = .next t →
    t.latchedLen = s.inLen ∧ t.input = (List.range s.inLen.toNat).map s.ibufByte) ∧
  (∀ (i : Instr) (s : State), s.cfg.inCap < s.latchedLen.toNat → ∃ t, exec i s = .next t ∧ s.Failed t .capInLen 0) ∧
  (∀ (i : Instr) (s t : State), exec i s = .next t → t.inLen = s.inLen)

/-- R53, R55, R93: of the transactions within the contract only the writes of COMMAND, IN_LEN and IBUF change anything of
CORE's. A read changes what the host has seen, and the count of draws (log entry 3). -/
def Obligations.OnlyThreeTransactionsChangeCore : Prop :=
  ∀ (s : State) (x : Transaction), x.inContract s.cfg = true → (∀ v, x ≠ .regWrite 32 0x00 v) →
    (∀ v, x ≠ .regWrite 32 0x08 v) → (∀ i b, x ≠ .ibufWrite i b) → ∃ t, transact x s = .next t ∧ s.SameCore t

/-- R33, R35, R41 to R49: what each offset of the register map reads as while IDLE: the fields of STATUS at their places,
every other register its value, COMMAND and the reserved offsets 0. -/
def Obligations.RegisterMapWhileIdle : Prop :=
  ∀ s : State, s.cfg.wf = true → s.seq = .idle →
    s.Reads 0x00 0 ∧
    s.Reads 0x04 (s.lastOp.toNat * 2 ^ 8 + s.err.code.toNat * 2 ^ 4 + s.done.toNat * 2) ∧
    s.Reads 0x08 s.inLen.toNat ∧ s.Reads 0x0C s.res.outLen.toNat ∧ s.Reads 0x10 s.res.lzwWidth.toNat ∧
    s.Reads 0x14 s.res.lzwCount.toNat ∧ s.Reads 0x18 s.res.hufSymbols.toNat ∧ s.Reads 0x1C s.res.hufBitlen.toNat ∧
    s.Reads 0x20 s.res.hufPad.toNat ∧ s.Reads 0x24 s.res.errDetail.code.toNat ∧ s.Reads 0x28 s.res.errPos.toNat ∧
    s.Reads 0x2C 0 ∧ s.Reads 0x30 s.cfg.inCap ∧ s.Reads 0x34 s.cfg.outCap ∧ s.Reads 0x38 s.cfg.dictSize ∧ s.Reads 0x3C 0

/-- R33, R34, R49, R52: what every offset of the register map reads as while BUSY. A result register answers a free word;
that each read is a draw of its own is the model's choice (log entry 3). STATUS answers BUSY and the opcode; IN_LEN and
the CAP registers answer as always; COMMAND and the reserved offsets answer 0, without a side effect. -/
def Obligations.ReadsWhileBusy : Prop :=
  ∀ (s : State) (op : Instr), s.Inv → s.seq = .busy op →
    (∀ r : Reg, r.isResult = true → transact (.regRead 32 r.offset) s =
      .next ({ s with draws := s.draws + 1 }.sees (.reg r.offset (Config.freeWord s.draws)))) ∧
    s.Reads 0x00 0 ∧ s.Reads 0x04 (op.opcode.toNat * 2 ^ 8 + 1) ∧ s.Reads 0x08 s.inLen.toNat ∧ s.Reads 0x2C 0 ∧
    s.Reads 0x30 s.cfg.inCap ∧ s.Reads 0x34 s.cfg.outCap ∧ s.Reads 0x38 s.cfg.dictSize ∧ s.Reads 0x3C 0

/-- R48: the CAP registers hold the parameters after reset, and no step changes what they read as. -/
def Obligations.CapRegistersNeverChange : Prop :=
  (∀ c : Config, c.wf = true → (State.resetWith c).Reads 0x30 c.inCap ∧ (State.resetWith c).Reads 0x34 c.outCap ∧
    (State.resetWith c).Reads 0x38 c.dictSize) ∧
  (∀ s t : State, s.cfg.wf = true → step s = .next t →
    t.Reads 0x30 s.cfg.inCap ∧ t.Reads 0x34 s.cfg.outCap ∧ t.Reads 0x38 s.cfg.dictSize)

/-- R84: a transaction outside the contract is refused, and so is a host program that issues one; R80 to R83: every other
transaction takes effect. That a transaction outside the contract is refused also while BUSY, and an ObufWrite out of
range too, where R96 and R55 ignore such writes, is the model's choice (log entry 10). -/
def Obligations.TransactionsOutsideTheContract : Prop :=
  ∀ s : State,
    (∀ width off, width ≠ 32 ∨ off % 4 ≠ 0 ∨ 0x3C < off →
      transact (.regRead width off) s = .refused (.registerAccess width off) ∧
        ∀ v, transact (.regWrite width off v) s = .refused (.registerAccess width off)) ∧
    (∀ off, off % 4 = 0 → off ≤ 0x3C →
      (∃ t, transact (.regRead 32 off) s = .next t) ∧ ∀ v, ∃ t, transact (.regWrite 32 off v) s = .next t) ∧
    (∀ i, s.cfg.inCap ≤ i → transact (.ibufRead i) s = .refused (.ibufIndex i) ∧
      ∀ b, transact (.ibufWrite i b) s = .refused (.ibufIndex i)) ∧
    (∀ i, i < s.cfg.inCap → (∃ t, transact (.ibufRead i) s = .next t) ∧ ∀ b, ∃ t, transact (.ibufWrite i b) s = .next t) ∧
    (∀ i, s.cfg.outCap ≤ i → transact (.obufRead i) s = .refused (.obufIndex i) ∧
      ∀ b, transact (.obufWrite i b) s = .refused (.obufIndex i)) ∧
    (∀ i, i < s.cfg.outCap → (∃ t, transact (.obufRead i) s = .next t) ∧ ∀ b, ∃ t, transact (.obufWrite i b) s = .next t) ∧
    (∀ x r rest, s.host = .txn x :: rest → transact x s = .refused r → hostTurn s = .refused r)

/-- R54, R55, R97: a write of IBUF while IDLE stores its byte and leaves every other byte; a read of IBUF returns the
byte; a write of OBUF is ignored; a read of OBUF returns the byte while IDLE and a free byte while BUSY, of a draw of its
own (the model's choice, log entry 3). -/
def Obligations.BufferTransactions : Prop :=
  ∀ s : State, s.Inv →
    (∀ i b, i < s.cfg.inCap → s.seq = .idle → ∃ t, transact (.ibufWrite i b) s = .next t ∧ t.ibufByte i = b ∧
      (∀ j, j ≠ i → t.ibufByte j = s.ibufByte j) ∧ t = { s with ibuf := t.ibuf }) ∧
    (∀ i, i < s.cfg.inCap → transact (.ibufRead i) s = .next (s.sees (.ibuf i (s.ibufByte i)))) ∧
    (∀ i b, i < s.cfg.outCap → transact (.obufWrite i b) s = .next s) ∧
    (∀ i, i < s.cfg.outCap → s.seq = .idle → transact (.obufRead i) s = .next (s.sees (.obuf i (s.obufByte i)))) ∧
    (∀ i op, i < s.cfg.outCap → s.seq = .busy op → transact (.obufRead i) s =
      .next ({ s with draws := s.draws + 1 }.sees (.obuf i (Config.freeByte s.draws i))))

/-! ## Completion and errors -/

/-- R310, R91: every command, in every state, completes in its core step: with a success or with one error. IBUF, IN_LEN,
LAST_OP and what is the host's stay as they are. -/
def Obligations.EveryCommandCompletes : Prop :=
  ∀ (i : Instr) (s : State), s.cfg.wf = true → ∃ t, exec i s = .next t ∧ s.CommandFrame t ∧
    ((∃ out width count symbols bitlen pad, t.Succeeded out width count symbols bitlen pad ∧
      out.length ≤ s.cfg.outCap) ∨ (∃ d pos, s.Failed t d pos))

/-- R316: a latched length above IN_CAP fails before any byte of IBUF is read, for every command; a length of 0 is legal for
every command. -/
def Obligations.OversizedLengthFails : Prop :=
  (∀ (i : Instr) (s : State), s.cfg.inCap < s.latchedLen.toNat → ∃ t, exec i s = .next t ∧ s.Failed t .capInLen 0 ∧
    s.CommandFrame t ∧
    ∀ (m : Memory) (d : Nat), exec i { s with ibuf := m, ibufDraw := d } = .next { t with ibuf := m, ibufDraw := d }) ∧
  (∀ (i : Instr) (s : State), s.latchedLen = 0 → ∃ t, exec i s = .next t ∧ t.err = .ok)

/-- R321: what a failed command changes, whichever it is: the kind, detail and position are recorded, OUT_LEN and the info
registers are 0, every byte of OBUF is unspecified; IBUF, IN_LEN and the CAP registers are unchanged. A rejected COMMAND
word is such a failure too. -/
def Obligations.FailedCommandEffects : Prop :=
  (∀ (i : Instr) (s t : State), s.cfg.wf = true → exec i s = .next t → t.err ≠ .ok →
    (∃ d pos, s.Failed t d pos) ∧ s.CommandFrame t) ∧
  (∀ (s t : State) (v : Word) (e : CommandError), s.seq = .idle → decode v = .error e →
    transact (.regWrite 32 0x00 v) s = .next t → (∃ d, s.Failed t d 0) ∧ { s with lastOp := t.lastOp }.CommandFrame t)

/-- R172, R188, R245, R263, R312, R314: the details each command can end with; its kind is the detail's; only two details
record a position. -/
def Obligations.EachCommandRaisesOnlyItsErrors : Prop :=
  ∀ (i : Instr) (s t : State), s.cfg.wf = true → exec i s = .next t →
    t.err = t.res.errDetail.kind ∧
    (t.res.errDetail ≠ .lzwBadCode → t.res.errDetail ≠ .hufTrailingBits → t.res.errPos = 0) ∧
    (i = .lzwEncode ∨ i = .hufEncode → t.res.errDetail ∈ [.none, .capInLen, .capOut]) ∧
    (i = .lzwDecode →
      t.res.errDetail ∈ [.none, .capInLen, .lzwHdrShort, .lzwBadWidth, .lzwLenMismatch, .lzwBadCode, .capOut]) ∧
    (i = .hufDecode →
      t.res.errDetail ∈ [.none, .capInLen, .hufHdrShort, .hufBadCount, .hufBadLength, .hufDupSymbol, .hufNotPrefixFree,
        .hufPadMismatch, .hufLenMismatch, .capOut, .hufTrailingBits])

/-- R317: CAP_OUT. An encoder whose frame is longer than OUT_CAP fails, which happens only in a configuration that violates
R13. A decoder fails as soon as what it has decoded is longer than OUT_CAP, whatever follows. -/
def Obligations.OutputOverflow : Prop :=
  (∀ s : State, s.cfg.wf = true → s.latchedLen.toNat ≤ s.cfg.inCap → s.input ≠ [] →
    s.cfg.outCap < (lzwFrame (lzwCodes s.cfg.dictSize s.input)).length →
    (∃ t, exec .lzwEncode s = .next t ∧ s.Failed t .capOut 0 ∧ s.CommandFrame t) ∧ ¬ s.cfg.MeetsBound) ∧
  (∀ s : State, s.cfg.wf = true → s.latchedLen.toNat ≤ s.cfg.inCap → s.input ≠ [] →
    s.cfg.outCap <
      (hufFrame (hufBuild s.input).code (hufBuild s.input).nSym (hufPayload (hufBuild s.input).code s.input)).length →
    (∃ t, exec .hufEncode s = .next t ∧ s.Failed t .capOut 0 ∧ s.CommandFrame t) ∧ ¬ s.cfg.MeetsBound) ∧
  (∀ (s : State) (w : Nat) (ks rest : List Nat) (es : List (List Byte)), s.cfg.wf = true →
    s.latchedLen.toNat ≤ s.cfg.inCap → LzwFrameReads s.input w (ks ++ rest) → LzwDecodesTo s.cfg.dictSize ks es →
    s.cfg.outCap < es.flatten.length → ∃ t, exec .lzwDecode s = .next t ∧ s.Failed t .capOut 0 ∧ s.CommandFrame t) ∧
  (∀ (s : State) (T : List Entry) (R : List Byte) (bits rest : List Bool) (out : List Byte), s.cfg.wf = true →
    s.latchedLen.toNat ≤ s.cfg.inCap → HufTableAt s.input T R → TableSound T → HufTrailerAt R (bits ++ rest) →
    Spells T bits out → s.cfg.outCap < out.length →
    ∃ t, exec .hufDecode s = .next t ∧ s.Failed t .capOut 0 ∧ s.CommandFrame t)

/-- R119, R126: the empty input gives the empty output, for every command. -/
def Obligations.EmptyInputs : Prop :=
  ∀ (i : Instr) (s : State), s.latchedLen = 0 →
    ∃ t, exec i s = .next t ∧ t.Succeeded [] 0 0 0 0 0 ∧ s.CommandFrame t

/-! ## LZW_ENCODE -/

/-- R171: the registers and OBUF after LZW_ENCODE succeeds, W and N of the frame. -/
def Obligations.LzwEncodeResult : Prop :=
  ∀ s : State, s.cfg.wf = true → s.latchedLen.toNat ≤ s.cfg.inCap →
    (s.input = [] → ∃ t, exec .lzwEncode s = .next t ∧ t.Succeeded [] 0 0 0 0 0 ∧ s.CommandFrame t) ∧
    (∀ codes, s.input ≠ [] → codes = lzwCodes s.cfg.dictSize s.input → (lzwFrame codes).length ≤ s.cfg.outCap →
      ∃ t, exec .lzwEncode s = .next t ∧
        t.Succeeded (lzwFrame codes) (lzwWidth (maxCode codes)) codes.length 0 0 0 ∧ s.CommandFrame t)

/-- R118: the layout of an LZW frame: W in byte 0, N big-endian in bytes 1 to 4, then the codes as W-bit fields, MSB-first;
the pad bits are 0; W is the least of the six widths under which every code fits (R122). -/
def Obligations.LzwFrameLayout : Prop :=
  ∀ codes : List Nat, codes ≠ [] → codes.length < 2 ^ 32 → (∀ k ∈ codes, k < 2 ^ 32) →
    ∃ w, LzwFrameReads (lzwFrame codes) w codes ∧
      (∀ v, v ∈ [1, 2, 4, 8, 16, 32] → (∀ k ∈ codes, k < 2 ^ v) → w ≤ v) ∧
      (∀ j, codes.length * w ≤ j → j < 8 * ((lzwFrame codes).length - 5) → bitAt ((lzwFrame codes).drop 5) j = false)

/-- R169, an inference that the spec marks as its own: with `w` held as a code, the encoder emits the codes of the
source's algorithm, which holds it as a byte string and searches a dictionary of byte strings. -/
def Obligations.LzwEncodeIsTheSourcesAlgorithm : Prop :=
  ∀ (n : Nat) (X : List Byte), 256 ≤ n → lzwCodes n X = sourceEncode n seededStrings [] X

/-- R165, an inference that the spec marks as its own: in a dictionary that the encoder has built, `find(p, c)` answers
`k` exactly when `str(p) ++ [c]` is in the dictionary with code `k`. -/
def Obligations.FindIsTheMapping : Prop :=
  ∀ (n : Nat) (x : Byte) (xs : List Byte) (p : Nat) (c : Byte) (k : Nat), 256 ≤ n →
    p < (lzwScan n x xs).dict.nextCode →
    ((lzwScan n x xs).dict.find p c = some k ↔
      k < (lzwScan n x xs).dict.nextCode ∧ (lzwScan n x xs).dict.str k = (lzwScan n x xs).dict.str p ++ [c])

/-- R162: `insert(p, c)` gives the next code the string `str(p) ++ [c]` and leaves every other code's string; once the
dictionary is full it does nothing (R163). A code below 256 is its byte (R161, R164). -/
def Obligations.DictionaryGrowth : Prop :=
  ∀ (n : Nat) (d : Dict) (p : Nat) (c : Byte), p < d.nextCode →
    (d.nextCode < n → (d.insert n p c).nextCode = d.nextCode + 1 ∧ (d.insert n p c).str d.nextCode = d.str p ++ [c] ∧
      ∀ k, k < d.nextCode → (d.insert n p c).str k = d.str k) ∧
    (n ≤ d.nextCode → d.insert n p c = d) ∧
    (∀ b : Byte, d.str b.toNat = [b]) ∧ Dict.init.nextCode = 256

/-- R173, R177, inferences that the spec marks as its own: corner cases of the encoder: the bounds on the number of codes
and on the codes; one byte; DICT_SIZE 256; no repeated pair; "AA" and "AAA". -/
def Obligations.LzwEncodeCornerCases : Prop :=
  (∀ (n : Nat) (X : List Byte), 256 ≤ n → X ≠ [] → 1 ≤ (lzwCodes n X).length ∧ (lzwCodes n X).length ≤ X.length ∧
    ∀ k ∈ lzwCodes n X, k < n ∧ k < 256 + X.length - 1) ∧
  (∀ (n : Nat) (b : Byte), lzwCodes n [b] = [b.toNat]) ∧
  (∀ X : List Byte, lzwCodes 256 X = X.map BitVec.toNat) ∧
  (∀ (n : Nat) (X : List Byte), 256 ≤ n → (X.zip X.tail).Nodup → lzwCodes n X = X.map BitVec.toNat) ∧
  (∀ (n : Nat) (a : Byte), 256 < n → lzwCodes n [a, a] = [a.toNat, a.toNat] ∧ lzwCodes n [a, a, a] = [a.toNat, 256])

/-! ## LZW_DECODE -/

/-- R181: the checks of the frame parse, in their order, and what passes them; the empty frame, which is checked first. -/
def Obligations.LzwParseChecks : Prop :=
  ∀ s : State, s.cfg.wf = true → s.latchedLen.toNat ≤ s.cfg.inCap →
    (s.input.length = 0 → ∃ t, exec .lzwDecode s = .next t ∧ t.Succeeded [] 0 0 0 0 0 ∧ s.CommandFrame t) ∧
    (1 ≤ s.input.length → s.input.length < 5 →
      ∃ t, exec .lzwDecode s = .next t ∧ s.Failed t .lzwHdrShort 0 ∧ s.CommandFrame t) ∧
    (5 ≤ s.input.length → byteAt s.input 0 ∉ [1, 2, 4, 8, 16, 32] →
      ∃ t, exec .lzwDecode s = .next t ∧ s.Failed t .lzwBadWidth 0 ∧ s.CommandFrame t) ∧
    (5 ≤ s.input.length → byteAt s.input 0 ∈ [1, 2, 4, 8, 16, 32] →
      s.input.length ≠ 5 + ceilDiv (be32Read s.input 1 * byteAt s.input 0) 8 →
      ∃ t, exec .lzwDecode s = .next t ∧ s.Failed t .lzwLenMismatch 0 ∧ s.CommandFrame t) ∧
    (5 ≤ s.input.length → byteAt s.input 0 ∈ [1, 2, 4, 8, 16, 32] →
      s.input.length = 5 + ceilDiv (be32Read s.input 1 * byteAt s.input 0) 8 →
      ∃ ks, LzwFrameReads s.input (byteAt s.input 0) ks ∧
        lzwParse s.input = .ok (byteAt s.input 0, be32Read s.input 1, ks))

/-- R187: the registers and OBUF after LZW_DECODE succeeds on a frame whose codes decode to `es`, W and N of the frame;
and on the empty frame; on an error those of R321. -/
def Obligations.LzwDecodeResult : Prop :=
  ∀ s : State, s.cfg.wf = true → s.latchedLen.toNat ≤ s.cfg.inCap →
    (s.input = [] → ∃ t, exec .lzwDecode s = .next t ∧ t.Succeeded [] 0 0 0 0 0 ∧ s.CommandFrame t) ∧
    (∀ w ks es, LzwFrameReads s.input w ks → LzwDecodesTo s.cfg.dictSize ks es → es.flatten.length ≤ s.cfg.outCap →
      ∃ t, exec .lzwDecode s = .next t ∧ t.Succeeded es.flatten w ks.length 0 0 0 ∧ s.CommandFrame t) ∧
    (∀ t, exec .lzwDecode s = .next t → t.err ≠ .ok → ∃ d pos, s.Failed t d pos)

/-- R182 to R186: LZW_DECODE succeeds with the output `out` exactly on the frames whose codes decode to strings that make up
`out`, where `out` fits OBUF. -/
def Obligations.LzwDecodeExactly : Prop :=
  ∀ (cfg : Config) (F out : List Byte), 256 ≤ cfg.dictSize → F ≠ [] →
    ((∃ r h, lzwDecode cfg F = .ok (r, h) ∧ r.out = out) ↔
      ∃ w ks es, LzwFrameReads F w ks ∧ LzwDecodesTo cfg.dictSize ks es ∧ out = es.flatten ∧ out.length ≤ cfg.outCap)

/-- R183, an inference that the spec marks as its own, and R182 and R320 for the codes after the first: a code of 256 or
more that is the first, is beyond the next code to be assigned, or is no code below DICT_SIZE fails with LZW_BAD_CODE at
its index, whatever follows, when the output before it fits. -/
def Obligations.LzwBadCodes : Prop :=
  ∀ (s : State) (w : Nat) (ks : List Nat) (k : Nat) (rest : List Nat) (es : List (List Byte)), s.cfg.wf = true →
    s.latchedLen.toNat ≤ s.cfg.inCap → LzwFrameReads s.input w (ks ++ k :: rest) →
    LzwDecodesTo s.cfg.dictSize ks es → es.flatten.length ≤ s.cfg.outCap → 256 ≤ k →
    (ks = [] ∨ 256 + ks.length ≤ k ∨ s.cfg.dictSize ≤ k) →
    ∃ t, exec .lzwDecode s = .next t ∧ s.Failed t .lzwBadCode ks.length ∧ s.CommandFrame t

/-- R184: the self-referential case. A code equal to the next code, not the first, read while the dictionary is not full,
decodes to `prev ++ [prev[0]]`, and the insert that follows gives it that string. Once the dictionary is full, a code at or
above DICT_SIZE is corrupt. -/
def Obligations.LzwSelfReference : Prop :=
  ∀ (cfg : Config) (i pk : Nat) (prev : List Byte) (d : LzwDec), d.prev = some (pk, prev) → pk < d.dict.nextCode →
    d.dict.str pk = prev →
    (d.dict.nextCode < cfg.dictSize → d.out.length + prev.length + 1 ≤ cfg.outCap →
      ∃ e, lzwDecStep cfg i d.dict.nextCode d = .ok e ∧ e.out = d.out ++ (prev ++ [prev.headD 0]) ∧
        e.prev = some (d.dict.nextCode, prev ++ [prev.headD 0]) ∧ e.dict.nextCode = d.dict.nextCode + 1 ∧
        e.dict.str d.dict.nextCode = prev ++ [prev.headD 0]) ∧
    (∀ k, d.dict.nextCode = cfg.dictSize → cfg.dictSize ≤ k →
      lzwDecStep cfg i k d = .error (Raise.malformed .lzwBadCode i))

/-- R191, an inference that the spec marks as its own, on the machine: LZW_DECODE of what LZW_ENCODE has written, copied
to IBUF, gives the encoder's input back. R191 does not say that the frame, which the same instance reads from IBUF, must
be at most IN_CAP bytes long; the copy of R104 and R316 need it, so it is a premise here (log entry 13). -/
def Obligations.LzwRoundTrip : Prop :=
  ∀ s t u : State, s.cfg.wf = true → s.latchedLen.toNat ≤ s.cfg.inCap → s.latchedLen.toNat ≤ s.cfg.outCap →
    exec .lzwEncode s = .next t → t.err = .ok → u.cfg = s.cfg → u.latchedLen = t.res.outLen →
    t.res.outLen.toNat ≤ s.cfg.inCap → (∀ i, i < t.res.outLen.toNat → u.ibufByte i = t.obufByte i) →
    ∃ v, exec .lzwDecode u = .next v ∧ v.err = .ok ∧ v.res.outLen = s.latchedLen ∧
      ∀ i, i < s.latchedLen.toNat → v.obufByte i = s.ibufByte i

/-- R192, an inference that the spec marks as its own: a frame made with DICT_SIZE E decodes to the same bytes where
DICT_SIZE is at least E; otherwise it decodes to the same bytes or fails with LZW_BAD_CODE; it never decodes to different
bytes. -/
def Obligations.LzwAcrossInstances : Prop :=
  ∀ (E D : Config) (X : List Byte) (r : Success) (h : Hidden), E.wf = true → D.wf = true → X.length ≤ E.inCap →
    lzwEncode E X = .ok (r, h) →
    (E.dictSize ≤ D.dictSize → X.length ≤ D.outCap → ∃ r' h', lzwDecode D r.out = .ok (r', h') ∧ r'.out = X) ∧
    (D.dictSize < E.dictSize → X.length ≤ D.outCap → (∃ r' h', lzwDecode D r.out = .ok (r', h') ∧ r'.out = X) ∨
      ∃ j, lzwDecode D r.out = .error (Raise.malformed .lzwBadCode j)) ∧
    (∀ r' h', lzwDecode D r.out = .ok (r', h') → r'.out = X)

/-- R174, R252, inferences that the spec marks as its own: in a configuration that meets R13 the encoders never fail on an
input of at most IN_CAP bytes. -/
def Obligations.EncodersNeverFail : Prop :=
  ∀ (i : Instr) (s : State), i = .lzwEncode ∨ i = .hufEncode → s.cfg.wf = true → s.cfg.MeetsBound →
    s.latchedLen.toNat ≤ s.cfg.inCap →
    ∃ t out width count symbols bitlen pad, exec i s = .next t ∧ t.Succeeded out width count symbols bitlen pad ∧
      out.length ≤ s.cfg.outCap

/-! ## The Huffman tree -/

/-- R213: `take_min()` removes from the live set, and returns, the index with the smallest pair of frequency and index. -/
def Obligations.TakeMinIsTheLeastPair : Prop :=
  ∀ (a : Arena) (live : List Nat), live ≠ [] → ∃ x rest, takeMin a live = some (x, rest) ∧ live.Perm (x :: rest) ∧
    ∀ y ∈ live, NotAfter a x y

/-- R211 to R214: the arena of an input with n_sym distinct symbols: its leaves in ascending order of symbol, then
n_sym - 1 internal nodes in the order of the merge steps. Each joins two live indices: the left child has the least pair of
frequency and index of all, the right child the least of the others. -/
def Obligations.HufArenaShape : Prop :=
  ∀ X : List Byte, X ≠ [] → ∃ syms : List Byte,
    syms.Pairwise (fun a b => a.toNat < b.toNat) ∧ (∀ s, s ∈ syms ↔ s ∈ X) ∧ (hufBuild X).nSym = syms.length ∧
    (hufBuild X).arena.length = 2 * syms.length - 1 ∧ (hufBuild X).arena.length ≤ 511 ∧
    (∀ i, i < syms.length → (hufBuild X).arena[i]? = some (.leaf (X.count (syms.getD i 0)) (syms.getD i 0))) ∧
    (∀ i, syms.length ≤ i → i < (hufBuild X).arena.length → ∃ f l r, (hufBuild X).arena[i]? = some (.internal f l r) ∧
      f = (hufBuild X).arena.freqAt l + (hufBuild X).arena.freqAt r ∧ l ≠ r ∧
      LiveAt (hufBuild X).arena i l ∧ LiveAt (hufBuild X).arena i r ∧
      ∀ y, LiveAt (hufBuild X).arena i y →
        NotAfter (hufBuild X).arena l y ∧ (y ≠ l → NotAfter (hufBuild X).arena r y))

/-- R218: with two distinct symbols or more, the codeword of a symbol is the path of edge bits from the root, the last node,
to the symbol's leaf, the edge that leaves the root first. -/
def Obligations.HufCodewordsArePaths : Prop :=
  ∀ (X : List Byte) (s : Byte), 2 ≤ (hufBuild X).nSym → s ∈ X →
    PathTo (hufBuild X).arena s ((hufBuild X).arena.length - 1) ((hufBuild X).code.bits s)

/-- R221: no codeword in the table is a prefix of another symbol's, or equal to it. -/
def Obligations.HufTableIsPrefixFree : Prop :=
  ∀ (X : List Byte) (x y : Byte), x ∈ X → y ∈ X → x ≠ y → ¬ (hufBuild X).code.bits x <+: (hufBuild X).code.bits y

/-- R215, R219, R223, R227, inferences that the spec marks as its own: the root has the frequency len(X); the table has a
codeword for each distinct symbol and none for another; a codeword has 1 to n_sym - 1 bits, or 1 bit when n_sym is 1; the
total length, the sum of frequency times codeword length, and so the payload's length, is at most 8 * len(X), and len(X)
when n_sym is 1. -/
def Obligations.HufTableBounds : Prop :=
  ∀ X : List Byte, X ≠ [] →
    (hufBuild X).arena.freqAt ((hufBuild X).arena.length - 1) = X.length ∧ (hufBuild X).nSym = X.dedup.length ∧
    (∀ x, x ∉ X → ((hufBuild X).code.bits x).length = 0) ∧
    (∀ x, x ∈ X → 1 ≤ ((hufBuild X).code.bits x).length ∧
      ((hufBuild X).nSym = 1 → ((hufBuild X).code.bits x).length = 1) ∧
      (2 ≤ (hufBuild X).nSym → ((hufBuild X).code.bits x).length ≤ (hufBuild X).nSym - 1)) ∧
    (hufBuild X).totalLength ≤ 8 * X.length ∧ (hufPayload (hufBuild X).code X).length ≤ 8 * X.length ∧
    ((hufBuild X).nSym = 1 →
      (hufBuild X).totalLength = X.length ∧ (hufPayload (hufBuild X).code X).length = X.length)

/-- R222: the total length is minimal among all prefix-free assignments of codewords to the distinct symbols; for a single
symbol it is len(X). -/
def Obligations.HufIsOptimal : Prop :=
  ∀ X : List Byte, X ≠ [] → ∃ T : List Entry, Assigns T X ∧ (∀ e ∈ T, (hufBuild X).code.bits e.1 = e.2) ∧
    (∀ E : List Entry, Assigns E X → totalLength T X ≤ totalLength E X) ∧
    ((hufBuild X).nSym = 1 → totalLength T X = X.length)

/-- R225: the payload's length is the sum of the codeword lengths of the input's symbols, and the sum over all symbols of
frequency times codeword length. -/
def Obligations.HufPayloadLength : Prop :=
  ∀ X : List Byte, X ≠ [] →
    (hufPayload (hufBuild X).code X).length = (X.map fun x => ((hufBuild X).code.bits x).length).sum ∧
    (hufPayload (hufBuild X).code X).length =
      ((List.range 256).map fun s =>
        (freqCount X).getD s 0 * ((hufBuild X).code.bits (BitVec.ofNat 8 s)).length).sum

/-- R253, an inference that the spec marks as its own: a symbol with a strictly larger frequency never has a longer
codeword; and the example of Scenario 1. -/
def Obligations.HufLargerFrequencyIsNotLonger : Prop :=
  (∀ (X : List Byte) (x y : Byte), y ∈ X → X.count y < X.count x →
    ((hufBuild X).code.bits x).length ≤ ((hufBuild X).code.bits y).length) ∧
  ([0x41, 0x42, 0x43, 0x44].map fun x =>
      ((hufBuild [0x41, 0x41, 0x41, 0x41, 0x42, 0x42, 0x42, 0x43, 0x43, 0x44]).code.bits x).length) = [1, 2, 3, 3]

/-! ## HUF_ENCODE and HUF_DECODE -/

/-- R244: the registers and OBUF after HUF_ENCODE succeeds: the frame, the number of distinct symbols, the payload's
length and its pad. -/
def Obligations.HufEncodeResult : Prop :=
  ∀ s : State, s.cfg.wf = true → s.latchedLen.toNat ≤ s.cfg.inCap →
    (s.input = [] → ∃ t, exec .hufEncode s = .next t ∧ t.Succeeded [] 0 0 0 0 0 ∧ s.CommandFrame t) ∧
    (∀ b payload frame, s.input ≠ [] → b = hufBuild s.input → payload = hufPayload b.code s.input →
      frame = hufFrame b.code b.nSym payload → frame.length ≤ s.cfg.outCap →
      ∃ t, exec .hufEncode s = .next t ∧
        t.Succeeded frame 0 0 s.input.dedup.length payload.length (padLen payload.length) ∧ s.CommandFrame t)

/-- R125: the layout of the frame HUF_ENCODE writes: the symbol count, an entry per distinct symbol in ascending order
(R134), the trailer and the payload, which spells the input; and the same with every pad bit 0. -/
def Obligations.HufFrameLayout : Prop :=
  ∀ (X : List Byte) (b : HufBuild) (payload : List Bool) (frame : List Byte), X ≠ [] → X.length < 2 ^ 29 →
    b = hufBuild X → payload = hufPayload b.code X → frame = hufFrame b.code b.nSym payload →
    ∃ (T : List Entry) (R : List Byte), T.Pairwise (fun e f => e.1.toNat < f.1.toNat) ∧
      (∀ x, x ∈ X ↔ (x, b.code.bits x) ∈ T) ∧ T.length = X.dedup.length ∧
      HufTableAt frame T R ∧ TableSound T ∧ HufTrailerAt R payload ∧ Spells T payload X ∧
      frame = be16 T.length ++ (T.flatMap fun e => [e.1, BitVec.ofNat 8 e.2.length] ++ pack e.2) ++
        (be32 payload.length ++ [BitVec.ofNat 8 (padLen payload.length)] ++ pack payload)

/-- R246, an inference that the spec marks as its own, from R216: the frame of one symbol repeated `k` times. -/
def Obligations.HufSingleSymbolFrame : Prop :=
  ∀ (x : Byte) (k : Nat), 1 ≤ k →
    hufFrame (hufBuild (List.replicate k x)).code (hufBuild (List.replicate k x)).nSym
        (hufPayload (hufBuild (List.replicate k x)).code (List.replicate k x)) =
      [0x00, 0x01, x, 0x01, 0x00] ++ be32 k ++ [BitVec.ofNat 8 (padLen k)] ++ List.replicate (ceilDiv k 8) 0x00

/-- R288: the checks of the table parse, in their order, entry by entry, and what passes them. -/
def Obligations.HufParseChecks : Prop :=
  ∀ s : State, s.cfg.wf = true → s.latchedLen.toNat ≤ s.cfg.inCap →
    (s.input.length = 1 → ∃ t, exec .hufDecode s = .next t ∧ s.Failed t .hufHdrShort 0 ∧ s.CommandFrame t) ∧
    (2 ≤ s.input.length → 256 < be16Read s.input 0 →
      ∃ t, exec .hufDecode s = .next t ∧ s.Failed t .hufBadCount 0 ∧ s.CommandFrame t) ∧
    (∀ hi lo G T R, s.input = hi :: lo :: (G ++ R) → hi.toNat * 2 ^ 8 + lo.toNat ≤ 256 → TableReads G T →
      T.length < hi.toNat * 2 ^ 8 + lo.toNat →
      (R.length < 2 → ∃ t, exec .hufDecode s = .next t ∧ s.Failed t .hufHdrShort 0 ∧ s.CommandFrame t) ∧
      (2 ≤ R.length → byteAt R 1 = 0 →
        ∃ t, exec .hufDecode s = .next t ∧ s.Failed t .hufBadLength 0 ∧ s.CommandFrame t) ∧
      (2 ≤ R.length → byteAt R 1 ≠ 0 → R.length < 2 + ceilDiv (byteAt R 1) 8 →
        ∃ t, exec .hufDecode s = .next t ∧ s.Failed t .hufHdrShort 0 ∧ s.CommandFrame t)) ∧
    (∀ T R, HufTableAt s.input T R → parseTable s.input = .ok (T.length, T, s.input.length - R.length))

/-- R257, R258: a table in which two entries have the same symbol fails; otherwise one in which a codeword is a prefix of,
or equal to, another's fails; both whatever follows the table. A sound table passes, also one that is incomplete. -/
def Obligations.HufTableChecks : Prop :=
  ∀ (s : State) (T : List Entry) (R : List Byte), s.cfg.wf = true → s.latchedLen.toNat ≤ s.cfg.inCap →
    HufTableAt s.input T R →
    (¬ (T.map Prod.fst).Nodup →
      ∃ t, exec .hufDecode s = .next t ∧ s.Failed t .hufDupSymbol 0 ∧ s.CommandFrame t) ∧
    ((T.map Prod.fst).Nodup → (∃ i j, i < T.length ∧ j < T.length ∧ i ≠ j ∧
      (T.getD i (0, [])).2 <+: (T.getD j (0, [])).2) →
      ∃ t, exec .hufDecode s = .next t ∧ s.Failed t .hufNotPrefixFree 0 ∧ s.CommandFrame t) ∧
    (TableSound T → ∃ t, exec .hufDecode s = .next t ∧ t.res.errDetail ≠ .hufDupSymbol ∧
      t.res.errDetail ≠ .hufNotPrefixFree)

/-- R259: the checks of the trailer behind a sound table, in their order. -/
def Obligations.HufTrailerChecks : Prop :=
  ∀ (s : State) (T : List Entry) (R : List Byte), s.cfg.wf = true → s.latchedLen.toNat ≤ s.cfg.inCap →
    HufTableAt s.input T R → TableSound T →
    (R.length < 5 → ∃ t, exec .hufDecode s = .next t ∧ s.Failed t .hufHdrShort 0 ∧ s.CommandFrame t) ∧
    (5 ≤ R.length → byteAt R 4 ≠ padLen (be32Read R 0) →
      ∃ t, exec .hufDecode s = .next t ∧ s.Failed t .hufPadMismatch 0 ∧ s.CommandFrame t) ∧
    (5 ≤ R.length → byteAt R 4 = padLen (be32Read R 0) → R.length - 5 ≠ ceilDiv (be32Read R 0) 8 →
      ∃ t, exec .hufDecode s = .next t ∧ s.Failed t .hufLenMismatch 0 ∧ s.CommandFrame t) ∧
    (5 ≤ R.length → byteAt R 4 = padLen (be32Read R 0) → R.length - 5 = ceilDiv (be32Read R 0) 8 →
      ∃ bits, HufTrailerAt R bits ∧
        parseTrailer s.input (s.input.length - R.length) = .ok (bits.length, padLen bits.length))

/-- R261, an inference that the spec marks as its own: payload bits that follow the last codeword and begin with no
codeword fail, at the index where they begin. -/
def Obligations.HufTrailingBits : Prop :=
  ∀ (s : State) (T : List Entry) (R : List Byte) (bits rest : List Bool) (out : List Byte), s.cfg.wf = true →
    s.latchedLen.toNat ≤ s.cfg.inCap → HufTableAt s.input T R → TableSound T → HufTrailerAt R (bits ++ rest) →
    Spells T bits out → out.length ≤ s.cfg.outCap → rest ≠ [] → (∀ e ∈ T, ¬ e.2 <+: rest) →
    ∃ t, exec .hufDecode s = .next t ∧ s.Failed t .hufTrailingBits bits.length ∧ s.CommandFrame t

/-- R262: the registers and OBUF after HUF_DECODE succeeds on a frame whose payload spells `out`, with the count, bit
length and pad of the frame; and on the empty frame; on an error those of R321. -/
def Obligations.HufDecodeResult : Prop :=
  ∀ s : State, s.cfg.wf = true → s.latchedLen.toNat ≤ s.cfg.inCap →
    (s.input = [] → ∃ t, exec .hufDecode s = .next t ∧ t.Succeeded [] 0 0 0 0 0 ∧ s.CommandFrame t) ∧
    (∀ T R bits out, HufTableAt s.input T R → TableSound T → HufTrailerAt R bits → Spells T bits out →
      out.length ≤ s.cfg.outCap →
      ∃ t, exec .hufDecode s = .next t ∧ t.Succeeded out 0 0 T.length bits.length (padLen bits.length) ∧
        s.CommandFrame t) ∧
    (∀ t, exec .hufDecode s = .next t → t.err ≠ .ok → ∃ d pos, s.Failed t d pos)

/-- R256 to R261: HUF_DECODE succeeds with the output `out` exactly on the frames with a sound table, a right trailer and a
payload that spells `out`, where `out` fits OBUF. -/
def Obligations.HufDecodeExactly : Prop :=
  ∀ (cfg : Config) (F out : List Byte), F ≠ [] →
    ((∃ r h, hufDecode cfg F = .ok (r, h) ∧ r.out = out) ↔
      ∃ T R bits, HufTableAt F T R ∧ TableSound T ∧ HufTrailerAt R bits ∧ Spells T bits out ∧ out.length ≤ cfg.outCap)

/-- R266, an inference that the spec marks as its own, on the machine: HUF_DECODE of what HUF_ENCODE has written, copied
to IBUF, gives the encoder's input back. As in LzwRoundTrip, that the frame fits IBUF is a premise that R266 does not name
(log entry 13). -/
def Obligations.HufRoundTrip : Prop :=
  ∀ s t u : State, s.cfg.wf = true → s.latchedLen.toNat ≤ s.cfg.inCap → s.latchedLen.toNat ≤ s.cfg.outCap →
    exec .hufEncode s = .next t → t.err = .ok → u.cfg = s.cfg → u.latchedLen = t.res.outLen →
    t.res.outLen.toNat ≤ s.cfg.inCap → (∀ i, i < t.res.outLen.toNat → u.ibufByte i = t.obufByte i) →
    ∃ v, exec .hufDecode u = .next v ∧ v.err = .ok ∧ v.res.outLen = s.latchedLen ∧
      ∀ i, i < s.latchedLen.toNat → v.obufByte i = s.ibufByte i

/-! ## The framing utilities -/

/-- R282, and R283 and R286, which the spec marks as its own inferences: `pack` writes bit `j` at its place and 0 in every
pad bit; `unpack` reads bit `j` from its place and inverts `pack`; `value` is the positional sum and inverts `bits_of`;
`pad_len`. -/
def Obligations.PackAndUnpack : Prop :=
  (∀ bits : List Bool, (pack bits).length = ceilDiv bits.length 8 ∧
    (∀ j, j < 8 * (pack bits).length → bitAt (pack bits) j = bits.getD j false) ∧ unpack (pack bits) bits.length = bits) ∧
  (∀ (bytes : List Byte) (n : Nat), n ≤ 8 * bytes.length → (unpack bytes n).length = n ∧
    ∀ j, j < n → (unpack bytes n).getD j false = bitAt bytes j) ∧
  (∀ bits : List Bool, value bits =
    ((List.range bits.length).map fun j => (bits.getD j false).toNat * 2 ^ (bits.length - 1 - j)).sum) ∧
  (∀ v w : Nat, v < 2 ^ w → value (bitsOf v w) = v) ∧
  (∀ b : Nat, padLen b = (8 - b % 8) % 8 ∧ padLen b = 8 * ceilDiv b 8 - b ∧ padLen b ≤ 7)

/-- R284, R285: the big-endian writers and readers. -/
def Obligations.BigEndianFields : Prop :=
  (∀ (F : List Byte) (p : Nat), p + 2 ≤ F.length →
    be16Read F p = (F.getD p 0).toNat * 2 ^ 8 + (F.getD (p + 1) 0).toNat) ∧
  (∀ (F : List Byte) (p : Nat), p + 4 ≤ F.length →
    be32Read F p = (F.getD p 0).toNat * 2 ^ 24 + (F.getD (p + 1) 0).toNat * 2 ^ 16 + (F.getD (p + 2) 0).toNat * 2 ^ 8 +
      (F.getD (p + 3) 0).toNat) ∧
  (∀ v : Nat, v < 2 ^ 16 → (be16 v).map BitVec.toNat = [v / 2 ^ 8, v % 2 ^ 8]) ∧
  (∀ v : Nat, v < 2 ^ 32 →
    (be32 v).map BitVec.toNat = [v / 2 ^ 24, v / 2 ^ 16 % 2 ^ 8, v / 2 ^ 8 % 2 ^ 8, v % 2 ^ 8]) ∧
  (∀ (v : Nat) (A B : List Byte), v < 2 ^ 16 → be16Read (A ++ be16 v ++ B) A.length = v) ∧
  (∀ (v : Nat) (A B : List Byte), v < 2 ^ 32 → be32Read (A ++ be32 v ++ B) A.length = v)

/-! ## The machine -/

/-- R95, R310: a step is the turn of the agent that moves: in the core's turn, the running command's `exec`; in the
host's, its next line; and the step after a command word is placed runs the command it decodes to. The schedule that says
who moves, and the placing of a word, are the model's choices (log entries 6 and 8). -/
def Obligations.StepRunsTheCommand : Prop :=
  (∀ (s : State) (i : Instr), s.turn = .core → s.seq = .busy i →
    step s = exec i { s with schedule := s.schedule.tail }) ∧
  (∀ s : State, s.turn = .core → s.seq = .idle → step s = .next { s with schedule := s.schedule.tail }) ∧
  (∀ s : State, s.turn = .host → step s = hostTurn { s with schedule := s.schedule.tail }) ∧
  (∀ (s : State) (nbits w : Nat) (i : Instr), decode (BitVec.ofNat 32 (w % 2 ^ nbits)) = .ok i →
    step (s.withFetchWord nbits w) =
      exec i { s with seq := .busy i, latchedLen := s.inLen, done := false, err := .ok, lastOp := i.opcode })

/-- R64, R351: what a reset leaves, in whatever state it comes: IDLE, every register at its value after reset, the CAP
registers at their constants, and every byte of both buffers unspecified. A command that was running never completes
(R352). That the host's lines and what it has seen stay is the model's choice (log entry 9). -/
def Obligations.ResetEvent : Prop :=
  ∀ s : State, s.cfg.wf = true → s.turn = .reset → ∃ t, step s = .next t ∧ t.seq = .idle ∧
    t.Reads 0x00 0 ∧ t.Reads 0x04 0 ∧ t.Reads 0x08 0 ∧ t.Reads 0x0C 0 ∧ t.Reads 0x10 0 ∧ t.Reads 0x14 0 ∧ t.Reads 0x18 0 ∧
    t.Reads 0x1C 0 ∧ t.Reads 0x20 0 ∧ t.Reads 0x24 0 ∧ t.Reads 0x28 0 ∧ t.Reads 0x2C 0 ∧ t.Reads 0x30 s.cfg.inCap ∧
    t.Reads 0x34 s.cfg.outCap ∧ t.Reads 0x38 s.cfg.dictSize ∧ t.Reads 0x3C 0 ∧
    (∀ i, t.ibufByte i = Config.freeByte s.draws i) ∧ (∀ i, t.obufByte i = Config.freeByte (s.draws + 1) i) ∧
    coreTurn t = .next t ∧ t.host = s.host ∧ t.seen = s.seen

/-- R32, R50, R51: SEQ, the flags, LAST_OP and the result registers change in four steps only: the core's completion of a
running command, which writes ERR with the result kind and the result registers with the command's results; a reset; a
COMMAND write that starts a command; and a COMMAND write that is rejected, which fails as R321 says (R315). Every other
step leaves them, among them the core's turn while IDLE and the host's turn with no line left, which are steps by the
model's choice (log entry 6). -/
def Obligations.WhatChangesTheFlags : Prop :=
  ∀ s t : State, step s = .next t →
    (s.turn = .core → ∀ op, s.seq = .busy op →
      t.seq = .idle ∧ t.done = true ∧ t.lastOp = s.lastOp ∧ t.err = t.res.errDetail.kind ∧
        ∃ u, exec op s = .next u ∧ t.err = u.err ∧ t.res = u.res) ∧
    (s.turn = .reset → t.seq = .idle ∧ t.done = false ∧ t.err = .ok ∧ t.lastOp = 0 ∧ t.res = {}) ∧
    (∀ v i, s.WritesCommand v → s.seq = .idle → decode v = .ok i →
      t.seq = .busy i ∧ t.done = false ∧ t.err = .ok ∧ t.lastOp = i.opcode ∧ t.res = s.res) ∧
    (∀ v e, s.WritesCommand v → s.seq = .idle → decode v = .error e →
      s.Failed t (badCommandDetail e) 0 ∧ t.err = .badCommand ∧ t.lastOp = opField v) ∧
    (s.turn ≠ .reset → ¬ (s.turn = .core ∧ ∃ op, s.seq = .busy op) →
      ¬ ((∃ v, s.WritesCommand v) ∧ s.seq = .idle) →
      t.seq = s.seq ∧ t.done = s.done ∧ t.err = s.err ∧ t.lastOp = s.lastOp ∧ t.res = s.res)

/-- The invariant holds after reset, in every configuration in range. -/
def Obligations.InvariantAtReset : Prop :=
  State.reset.Inv ∧ ∀ c : Config, c.wf = true → (State.resetWith c).Inv

/-- Every step keeps the invariant of CORE's state. -/
def Obligations.InvariantKept : Prop :=
  ∀ s t : State, s.Inv → step s = .next t → t.Inv

/-- The buffers' memory, a representation that is the model's choice (log entry 2; the spec's R54, R55 and R85 say only
that a buffer is bytes at indices): a write keeps the canonical form and changes one byte only, and memories in canonical
form that read the same are the same data. -/
def Obligations.MemoryForm : Prop :=
  (∀ (m : Memory) (a : Nat) (b : Byte), m.wf = true → (m.write a b).wf = true ∧
    ∀ j, (m.write a b).read j = if j = a then some b else m.read j) ∧
  (∀ m n : Memory, m.wf = true → n.wf = true → (∀ a, m.read a = n.read a) → m = n)

/-- R360, R95: a started command completes, after any number `k` of host turns, with the result it has when it completes
at once: whatever the host's lines are, if none of the `k` turns is refused; and none is refused if the lines that these
turns run are within the contract. That a schedule says how many turns come first is the model's choice (log entry 6), and
so are the lines that a host expands as it runs (log entry 7). -/
def Obligations.StartedCommandsComplete : Prop :=
  ∀ (s : State) (op : Instr) (k : Nat) (rest : List Turn), s.seq = .busy op →
    s.schedule = List.replicate k .host ++ .core :: rest →
    (HostLine.turnsInContract s.cfg k s.host = true → ∃ v : State, Sys2Proof.core.run k s = Host.Outcome.next v) ∧
    (∀ v : State, Sys2Proof.core.run k s = Host.Outcome.next v →
      ∃ t u : State, Sys2Proof.core.run (k + 1) s = Host.Outcome.next t ∧ exec op s = .next u ∧ t.seq = .idle ∧
        t.done = true ∧ t.err = u.err ∧ t.res = u.res ∧ t.schedule = rest ∧
        ∀ i, i < u.res.outLen.toNat → t.obufByte i = u.obufByte i)

/-- R84, R95: a step is refused exactly in a host's turn whose next line makes a transaction outside the contract, and
with that transaction's refusal; a host whose lines are within the contract, whatever it reads, is never refused, and its
lines stay so (`dump` and `copy`, whose transactions depend on what OUT_LEN answers, are not counted as such lines). The
turns, and the lines that a host expands as it runs, are the model's choices (log entries 6 and 7), and so is the refusal
while BUSY (log entry 10). -/
def Obligations.HostsInContractAreNotRefused : Prop :=
  (∀ (s : State) (r : Refusal), step s = .refused r ↔ s.turn = .host ∧ s.NextLineRefused r) ∧
  (∀ s : State, (∀ l ∈ s.host, l.inContract s.cfg = true) →
    ∃ t, step s = .next t ∧ ∀ l ∈ t.host, l.inContract t.cfg = true)

/-- R63, R91, R116: the result of a command depends on the capacities, DICT_SIZE, the latched length and the bytes of IBUF
below it, and on nothing else: not on what an earlier command left in the hidden state, the registers, OBUF or the rest of
IBUF, and not on where the platform places CORE (R86). -/
def Obligations.OnlyTheInputMatters : Prop :=
  ∀ (i : Instr) (s u t : State), s.cfg.wf = true → u.cfg.inCap = s.cfg.inCap →
    u.cfg.outCap = s.cfg.outCap → u.cfg.dictSize = s.cfg.dictSize → u.latchedLen = s.latchedLen →
    (∀ j, j < s.latchedLen.toNat → u.ibufByte j = s.ibufByte j) → exec i s = .next t →
    ∃ v, exec i u = .next v ∧ v.err = t.err ∧ v.res = t.res ∧
      ∀ j, j < t.res.outLen.toNat → v.obufByte j = t.obufByte j

end
end

