-- ==== Sys2Proof/Machine/AddressMap.lean ====
section
/-! DEFINITION. The system address map (20_memory.md R85, R86): what a host that reaches CORE at system addresses makes of
them, by the platform's placement. CORE itself sees offsets and indices only. -/

namespace Sys2Proof

/-- R85: the three address spaces of CORE. There is no other: no vector table and no I/O region (R86). -/
inductive Space where
  | reg
  | ibuf
  | obuf
  deriving DecidableEq, Repr

namespace Config

/-- R86: the system address at which a space begins. -/
def spaceBase (c : Config) : Space → Nat
  | .reg => c.place.reg
  | .ibuf => c.place.ibuf
  | .obuf => c.place.obuf

/-- R85: the size of a space in bytes. -/
def spaceSize (c : Config) : Space → Nat
  | .reg => 64
  | .ibuf => c.inCap
  | .obuf => c.outCap

/-- The system address of an offset or index in a space. -/
def address (c : Config) (sp : Space) (off : Nat) : Nat := c.spaceBase sp + off

/-- The system address lies in the space. -/
def inSpace (c : Config) (sp : Space) (a : Nat) : Bool :=
  decide (c.spaceBase sp ≤ a) && decide (a < c.spaceBase sp + c.spaceSize sp)

/-- R86: what stands at a system address: an offset or index in one of the spaces, or nothing of CORE's. -/
def locate (c : Config) (a : Nat) : Option (Space × Nat) :=
  if c.inSpace .reg a then some (.reg, a - c.spaceBase .reg)
  else if c.inSpace .ibuf a then some (.ibuf, a - c.spaceBase .ibuf)
  else if c.inSpace .obuf a then some (.obuf, a - c.spaceBase .obuf)
  else none

end Config

namespace Machine

/-- R82, R83: a byte read at an offset or index in a space. DEDUCED (log entry 14): registers have no byte access (R82), so in REG
it is a register access of 8 bits, which is refused (R84). -/
def Transaction.readByte : Space → Nat → Transaction
  | .reg, off => .regRead 8 off
  | .ibuf, i => .ibufRead i
  | .obuf, i => .obufRead i

/-- R82, R83: a byte write at an offset or index in a space. DEDUCED (log entry 14): registers have no byte access (R82), so in REG
it is a register access of 8 bits, which is refused (R84). -/
def Transaction.writeByte (b : Byte) : Space → Nat → Transaction
  | .reg, off => .regWrite 8 off (b.setWidth 32)
  | .ibuf, i => .ibufWrite i b
  | .obuf, i => .obufWrite i b

namespace HostLine

/-- R82, R86: the host line of a 32-bit read at a system address in REG. DESIGN CHOICE (log entry 14): at any other address
there is none; a wider access to a buffer is the platform's composition of byte accesses (R83), `readBytesAt`. -/
def readWordAt (c : Config) (a : Nat) : Option HostLine :=
  match c.locate a with
  | some (.reg, off) => some (.txn (.regRead 32 off))
  | some (.ibuf, _) | some (.obuf, _) | none => none

/-- R82, R86: the host line of a 32-bit write at a system address in REG. DESIGN CHOICE (log entry 14): at any other address
there is none; which byte of a word comes first in a buffer is the platform's, so a wider write is `writeBytesAt`. -/
def writeWordAt (c : Config) (a : Nat) (v : Word) : Option HostLine :=
  match c.locate a with
  | some (.reg, off) => some (.txn (.regWrite 32 off v))
  | some (.ibuf, _) | some (.obuf, _) | none => none

/-- R86: the host line of a byte read at a system address, if anything of CORE's stands there. -/
def readByteAt (c : Config) (a : Nat) : Option HostLine :=
  (c.locate a).map fun p => .txn (Transaction.readByte p.1 p.2)

/-- R86: the host line of a byte write at a system address, if anything of CORE's stands there. -/
def writeByteAt (c : Config) (a : Nat) (b : Byte) : Option HostLine :=
  (c.locate a).map fun p => .txn (Transaction.writeByte b p.1 p.2)

/-- R83: a wider read, composed of byte accesses, each at its own address: the `n` bytes from system address `a` on. -/
def readBytesAt (c : Config) (a n : Nat) : Option (List HostLine) := (List.range n).mapM fun k => readByteAt c (a + k)

/-- R83: a wider write, composed of byte accesses: the byte at the lowest address is the first of the byte string. -/
def writeBytesAt (c : Config) (a : Nat) (bs : List Byte) : Option (List HostLine) :=
  (bs.zipIdx a).mapM fun p => writeByteAt c p.2 p.1

end HostLine

end Machine

end Sys2Proof
end

