-- ==== Sys2Proof/Laws/AddressMap.lean ====
section
/-! SUPPORT. The system address map (20_memory.md R85, R86): a placement that keeps the spaces apart gives every unit of every
space an address of its own, and nothing else one. -/

namespace Sys2Proof

namespace Config

theorem inSpace_iff {c : Config} {sp : Space} {a : Nat} :
    c.inSpace sp a = true ↔ ∃ off, off < c.spaceSize sp ∧ a = c.address sp off := by
  simp only [inSpace, address, Bool.and_eq_true, decide_eq_true_eq]
  constructor
  · rintro ⟨h1, h2⟩
    exact ⟨a - c.spaceBase sp, by omega, by omega⟩
  · rintro ⟨off, h, rfl⟩
    omega

/-- What is found at an address stands there. -/
theorem locate_sound {c : Config} {a off : Nat} {sp : Space} (h : c.locate a = some (sp, off)) :
    off < c.spaceSize sp ∧ a = c.address sp off := by
  unfold locate at h
  split at h
  · rename_i hs
    obtain ⟨o, h1, rfl⟩ := inSpace_iff.mp hs
    cases h
    simpa [address] using h1
  · split at h
    · rename_i hs
      obtain ⟨o, h1, rfl⟩ := inSpace_iff.mp hs
      cases h
      simpa [address] using h1
    · split at h
      · rename_i hs
        obtain ⟨o, h1, rfl⟩ := inSpace_iff.mp hs
        cases h
        simpa [address] using h1
      · cases h

/-- R86: where nothing is found there is nothing of CORE's. -/
theorem locate_none {c : Config} {a : Nat} (h : c.locate a = none) (sp : Space) (off : Nat) (ho : off < c.spaceSize sp) :
    a ≠ c.address sp off := by
  rintro rfl
  have hin := inSpace_iff.mpr ⟨off, ho, rfl⟩
  unfold locate at h
  split_ifs at h with h1 h2 h3
  cases sp
  exacts [h1 hin, h2 hin, h3 hin]

/-- R85, R86: an address in one space is in no other. -/
theorem locate_address {c : Config} (hp : c.placementOk = true) {sp : Space} {off : Nat} (ho : off < c.spaceSize sp) :
    c.locate (c.address sp off) = some (sp, off) := by
  cases h : c.locate (c.address sp off) with
  | none => exact absurd rfl (locate_none h sp off ho)
  | some p =>
    obtain ⟨sp', off'⟩ := p
    obtain ⟨ho', he⟩ := locate_sound h
    simp only [placementOk, apart, Bool.and_eq_true, Bool.or_eq_true, decide_eq_true_eq] at hp
    cases sp <;> cases sp' <;> simp only [address, spaceBase, spaceSize] at ho ho' he <;>
      first
        | (obtain rfl : off = off' := by omega
           rfl)
        | omega

end Config

namespace Machine

/-- R86: the word line at the address of a register is the transaction at its offset, wherever the platform places it. -/
theorem HostLine.wordAt_address {c : Config} (hp : c.placementOk = true) {off : Nat} (ho : off < 64) :
    readWordAt c (c.address .reg off) = some (.txn (.regRead 32 off)) ∧
      ∀ v, writeWordAt c (c.address .reg off) v = some (.txn (.regWrite 32 off v)) := by
  simp [readWordAt, writeWordAt, Config.locate_address (sp := .reg) hp ho]

/-- R86: the byte line at an address of a space is the byte access at its offset or index. -/
theorem HostLine.byteAt_address {c : Config} (hp : c.placementOk = true) {sp : Space} {off : Nat}
    (ho : off < c.spaceSize sp) :
    readByteAt c (c.address sp off) = some (.txn (Transaction.readByte sp off)) ∧
      ∀ b, writeByteAt c (c.address sp off) b = some (.txn (Transaction.writeByte b sp off)) := by
  simp [readByteAt, writeByteAt, Config.locate_address hp ho]

/-- R82, R84: registers have no byte access. -/
theorem Transaction.byte_reg_refusal (c : Config) (off : Nat) :
    (Transaction.readByte .reg off).refusal c = some (.registerAccess 8 off) ∧
      ∀ b, (Transaction.writeByte b .reg off).refusal c = some (.registerAccess 8 off) :=
  ⟨rfl, fun _ => rfl⟩

/-- R83: within the spaces the contract asks nothing more of a byte access to a buffer. -/
theorem Transaction.byte_buffer_inContract {c : Config} {sp : Space} (hs : sp ≠ .reg) {i : Nat} (hi : i < c.spaceSize sp) :
    (Transaction.readByte sp i).inContract c = true ∧ ∀ b, (Transaction.writeByte b sp i).inContract c = true := by
  cases sp with
  | reg => exact absurd rfl hs
  | ibuf =>
    have : i < c.inCap := hi
    simp [readByte, writeByte, inContract, refusal, this]
  | obuf =>
    have : i < c.outCap := hi
    simp [readByte, writeByte, inContract, refusal, this]

end Machine

end Sys2Proof
end

