-- ==== Sys2Proof/Laws/Framing.lean ====
section
/-! SUPPORT. What the framing utilities compute (43_framing.md): lengths, and that reading inverts writing. -/

namespace Sys2Proof.Machine

/-! ### Numbers and bit strings -/

theorem ceilDiv_eight (n : Nat) : ceilDiv n 8 = (n + 7) / 8 := rfl

theorem value_foldl (bits : List Bool) (a : Nat) :
    bits.foldl (fun a b => 2 * a + b.toNat) a = a * 2 ^ bits.length + value bits := by
  induction bits generalizing a with
  | nil => simp [value]
  | cons b bs ih =>
    simp only [List.foldl_cons, List.length_cons, value]
    rw [ih, ih (2 * 0 + b.toNat)]
    ring

theorem value_nil : value [] = 0 := rfl

theorem value_cons (b : Bool) (bs : List Bool) : value (b :: bs) = b.toNat * 2 ^ bs.length + value bs := by
  have := value_foldl bs (2 * 0 + b.toNat)
  simpa [value] using this

theorem value_append (xs ys : List Bool) : value (xs ++ ys) = value xs * 2 ^ ys.length + value ys := by
  unfold value
  rw [List.foldl_append, value_foldl]
  rfl

theorem value_lt (bits : List Bool) : value bits < 2 ^ bits.length := by
  induction bits with
  | nil => simp [value_nil]
  | cons b bs ih =>
    rw [value_cons, List.length_cons, pow_succ]
    cases b <;> simp <;> omega

@[simp] theorem bitsOf_length (v w : Nat) : (bitsOf v w).length = w := by simp [bitsOf]

theorem bitsOf_zero (v : Nat) : bitsOf v 0 = [] := rfl

theorem bitsOf_succ (v w : Nat) : bitsOf v (w + 1) = v.testBit w :: bitsOf v w := by
  simp only [bitsOf, List.range_succ_eq_map, List.map_cons, List.map_map]
  congr 1
  apply List.map_congr_left
  intro j _
  simp only [Function.comp]
  congr 1
  omega

theorem value_bitsOf_mod (v w : Nat) : value (bitsOf v w) = v % 2 ^ w := by
  induction w with
  | zero => simp [bitsOf_zero, value_nil, Nat.mod_one]
  | succ w ih =>
    rw [bitsOf_succ, value_cons, bitsOf_length, ih, Nat.mod_pow_succ, Nat.toNat_testBit, mul_comm, add_comm]

/-- R283: `value(bits_of(v, w)) = v`. -/
theorem value_bitsOf {v w : Nat} (h : v < 2 ^ w) : value (bitsOf v w) = v := by
  rw [value_bitsOf_mod, Nat.mod_eq_of_lt h]

theorem bitsOf_value (bits : List Bool) : bitsOf (value bits) bits.length = bits := by
  induction bits with
  | nil => rfl
  | cons b bs ih =>
    rw [List.length_cons, bitsOf_succ, value_cons]
    have hlt := value_lt bs
    congr 1
    · cases b
      · simpa using Nat.testBit_lt_two_pow hlt
      · simp [Nat.testBit_two_pow_add_eq, Nat.testBit_lt_two_pow hlt]
    · conv_rhs => rw [← ih]
      simp only [bitsOf]
      apply List.map_congr_left
      intro j hj
      have hj' := List.mem_range.mp hj
      cases b
      · simp
      · simp only [Bool.toNat_true, one_mul]
        rw [Nat.testBit_two_pow_add_gt (by omega)]

/-! ### Packing -/

theorem packBytes_length (m : Nat) (bits : List Bool) : (packBytes m bits).length = m := by
  induction m generalizing bits with
  | zero => rfl
  | succ m ih => simp [packBytes, ih]

/-- R282: `len(pack(bits)) = ceil_div(len(bits), 8)`. -/
theorem pack_length (bits : List Bool) : (pack bits).length = ceilDiv bits.length 8 := packBytes_length _ _

theorem bitsOf_packByte (bits : List Bool) (h : bits.length ≤ 8) :
    bitsOf (packByte bits).toNat 8 = bits ++ List.replicate (8 - bits.length) false := by
  have hlen : (bits ++ List.replicate (8 - bits.length) false).length = 8 := by simp; omega
  have hlt := value_lt (bits ++ List.replicate (8 - bits.length) false)
  rw [hlen] at hlt
  have := bitsOf_value (bits ++ List.replicate (8 - bits.length) false)
  rw [hlen] at this
  rw [packByte, BitVec.toNat_ofNat, Nat.mod_eq_of_lt hlt, this]

/-- The bits of a packed bit string are its bits, and zero pad bits to the next byte (R282). -/
theorem packBytes_bits (m : Nat) (bits : List Bool) (h : bits.length ≤ 8 * m) :
    ((packBytes m bits).flatMap fun b => bitsOf b.toNat 8) = bits ++ List.replicate (8 * m - bits.length) false := by
  induction m generalizing bits with
  | zero =>
    have : bits = [] := List.eq_nil_of_length_eq_zero (by omega)
    simp [packBytes, this]
  | succ m ih =>
    have htake : (bits.take 8).length ≤ 8 := by simp
    simp only [packBytes, List.flatMap_cons]
    rw [ih _ (by simp; omega), bitsOf_packByte _ htake]
    by_cases hb : bits.length ≤ 8
    · rw [List.take_of_length_le hb, List.drop_of_length_le hb, List.nil_append, List.append_assoc,
        List.replicate_append_replicate]
      congr 2
      simp
      omega
    · have : (bits.take 8).length = 8 := by simp; omega
      rw [this]
      simp only [Nat.sub_self, List.replicate_zero, List.append_nil]
      rw [← List.append_assoc, List.take_append_drop]
      congr 2
      simp
      omega

theorem pack_bits (bits : List Bool) :
    ((pack bits).flatMap fun b => bitsOf b.toNat 8) =
      bits ++ List.replicate (8 * ceilDiv bits.length 8 - bits.length) false :=
  packBytes_bits _ _ (by rw [ceilDiv_eight]; omega)

/-- R283: `unpack(pack(s), len(s)) = s`. -/
theorem unpack_pack (bits : List Bool) : unpack (pack bits) bits.length = bits := by
  rw [unpack, pack_bits, List.take_left']
  rfl

theorem unpack_length (bytes : List Byte) (n : Nat) (h : n ≤ 8 * bytes.length) : (unpack bytes n).length = n := by
  have : ((bytes.flatMap fun b => bitsOf b.toNat 8)).length = 8 * bytes.length := by
    induction bytes with
    | nil => rfl
    | cons b bs ih => simp; omega
  simp [unpack, this, h]

/-- R286: `pad_len(b) = 8 * ceil_div(b, 8) - b`. -/
theorem padLen_eq (b : Nat) : padLen b = 8 * ceilDiv b 8 - b := by
  rw [ceilDiv_eight, padLen]
  omega

theorem padLen_lt (b : Nat) : padLen b < 8 := by
  rw [padLen]
  omega

/-! ### Byte fields -/

theorem be16_length (v : Nat) : (be16 v).length = 2 := rfl

theorem be32_length (v : Nat) : (be32 v).length = 4 := rfl

theorem byteAt_append_left {F G : List Byte} {p : Nat} (h : p < F.length) : byteAt (F ++ G) p = byteAt F p := by
  simp [byteAt, List.getD_eq_getElem?_getD, List.getElem?_append_left h]

theorem byteAt_append_right {F G : List Byte} {p : Nat} (h : F.length ≤ p) :
    byteAt (F ++ G) p = byteAt G (p - F.length) := by
  simp [byteAt, List.getD_eq_getElem?_getD, List.getElem?_append_right h]

/-- R284, R285: reading a 16-bit field gives what was written. -/
theorem be16Read_be16 {v : Nat} (h : v < 2 ^ 16) (F : List Byte) : be16Read (be16 v ++ F) 0 = v := by
  simp [be16Read, be16, byteAt]
  omega

/-- R284, R285: reading a 32-bit field gives what was written. -/
theorem be32Read_be32 {v : Nat} (h : v < 2 ^ 32) (F G : List Byte) : be32Read (F ++ be32 v ++ G) F.length = v := by
  have hb : ∀ j < 4, byteAt (F ++ be32 v ++ G) (F.length + j) = byteAt (be32 v) j := by
    intro j hj
    rw [byteAt_append_left (by simp [be32_length]; omega), byteAt_append_right (by omega)]
    congr 1
    omega
  unfold be32Read
  rw [hb 1 (by omega), hb 2 (by omega), hb 3 (by omega), show byteAt (F ++ be32 v ++ G) F.length = byteAt (be32 v) 0 from hb 0 (by omega)]
  simp [be32, byteAt]
  omega

theorem be32Read_lt (F : List Byte) (p : Nat) : be32Read F p < 2 ^ 32 := by
  have h : ∀ q, byteAt F q < 2 ^ 8 := fun q => (F.getD q 0).isLt
  have h0 := h p
  have h1 := h (p + 1)
  have h2 := h (p + 2)
  have h3 := h (p + 3)
  unfold be32Read
  omega

end Sys2Proof.Machine
end

