-- ==== Sys2Proof/Laws/Bits.lean ====
section
/-! SUPPORT. Packed bit strings, bit by bit (20_memory.md R88, 43_framing.md R280 to R283). -/

namespace Sys2Proof.Machine

theorem bitsOf_getD {v w j : Nat} (h : j < w) : (bitsOf v w).getD j false = v.testBit (w - 1 - j) := by
  rw [List.getD_eq_getElem _ _ (by simpa using h)]
  simp [bitsOf]

/-- R88: the bits of a byte string, one after the other. -/
theorem flatMap_bits_getD (F : List Byte) (j : Nat) :
    (F.flatMap fun b => bitsOf b.toNat 8).getD j false = bitAt F j := by
  induction F generalizing j with
  | nil => simp [bitAt]
  | cons b F ih =>
    rw [List.flatMap_cons]
    by_cases h : j < 8
    · rw [List.getD_append _ _ _ _ (by simpa using h), bitsOf_getD h]
      have : j / 8 = 0 := by omega
      have hj : j % 8 = j := by omega
      rw [bitAt, this, hj]
      simp [BitVec.testBit_toNat]
    · rw [List.getD_append_right _ _ _ _ (by simpa using Nat.not_lt.mp h), bitsOf_length, ih]
      obtain ⟨i, rfl⟩ : ∃ i, j = i + 8 := ⟨j - 8, by omega⟩
      have h1 : (i + 8) / 8 = i / 8 + 1 := by omega
      have h2 : (i + 8) % 8 = i % 8 := by omega
      rw [bitAt, bitAt, h1, h2, Nat.add_sub_cancel, List.getD_cons_succ]

/-- R283: bit `j` of what `unpack` returns. -/
theorem unpack_getD (F : List Byte) {n j : Nat} (h : j < n) : (unpack F n).getD j false = bitAt F j := by
  rw [← flatMap_bits_getD, unpack, List.getD_eq_getElem?_getD, List.getElem?_take_of_lt h, ← List.getD_eq_getElem?_getD]

/-- Two bit strings of one length are equal when their bits are. -/
theorem bits_ext {a b : List Bool} (hl : a.length = b.length) (h : ∀ j, j < a.length → a.getD j false = b.getD j false) :
    a = b := by
  refine List.ext_getElem hl fun j h1 h2 => ?_
  have := h j h1
  rwa [List.getD_eq_getElem _ _ h1, List.getD_eq_getElem _ _ h2] at this

/-- R283: a bit string whose bits are those of a byte string is what `unpack` returns. -/
theorem eq_unpack {F : List Byte} {bits : List Bool} (hl : bits.length ≤ 8 * F.length)
    (h : ∀ j, j < bits.length → bits.getD j false = bitAt F j) : bits = unpack F bits.length := by
  refine bits_ext (unpack_length F _ hl).symm fun j hj => ?_
  rw [h j hj, unpack_getD F hj]

/-- R282: bit `j` of what `pack` writes: a bit of the string, or a pad bit. -/
theorem pack_bitAt (bits : List Bool) (j : Nat) : bitAt (pack bits) j = bits.getD j false := by
  rw [← flatMap_bits_getD, pack_bits]
  by_cases h : j < bits.length
  · rw [List.getD_append _ _ _ _ h]
  · rw [List.getD_append_right _ _ _ _ (by omega), List.getD_eq_default bits _ (by omega)]
    rw [List.getD_eq_getElem?_getD, List.getElem?_replicate]
    split <;> rfl

end Sys2Proof.Machine
end

