-- ==== Sys2Proof/Laws/HufMerge.lean ====
section
/-! SUPPORT. The merge steps of the Huffman tree builder (41_huffman_tree.md R212 to R215): the tree they leave in the arena,
its leaves, and that its cost is least. -/

namespace Sys2Proof.Machine

/-! ### Trees -/

/-- A Huffman tree, as a tree; the arena holds it by indices. -/
inductive HTree where
  | leaf (freq : Nat) (sym : Byte)
  | node (left right : HTree)

namespace HTree

/-- The frequency of the root. -/
def weight : HTree → Nat
  | leaf f _ => f
  | node l r => l.weight + r.weight

/-- The leaves, from left to right, each with its frequency. -/
def leaves : HTree → List (Nat × Byte)
  | leaf f s => [(f, s)]
  | node l r => l.leaves ++ r.leaves

/-- The entries of the codeword table below `path` (R218). -/
def entries : HTree → List Bool → List Entry
  | leaf _ s, path => [(s, path)]
  | node l r, path => l.entries (path ++ [false]) ++ r.entries (path ++ [true])

/-- The total code length, below the root: the sum of frequency times depth (R225). -/
def cost : HTree → Nat
  | leaf _ _ => 0
  | node l r => l.cost + r.cost + (l.weight + r.weight)

theorem entries_sym (t : HTree) (path : List Bool) : (t.entries path).map Prod.fst = t.leaves.map Prod.snd := by
  induction t generalizing path with
  | leaf f s => rfl
  | node l r ihl ihr => simp [entries, leaves, ihl, ihr]

theorem leaves_ne_nil (t : HTree) : 1 ≤ t.leaves.length := by
  induction t with
  | leaf f s => simp [leaves]
  | node l r ihl ihr => simp [leaves]; omega

theorem weight_eq (t : HTree) : t.weight = (t.leaves.map Prod.fst).sum := by
  induction t with
  | leaf f s => simp [weight, leaves]
  | node l r ihl ihr => simp [weight, leaves, ihl, ihr]

/-- Every codeword continues the path to the subtree. -/
theorem entries_prefix {t : HTree} {path : List Bool} {e : Entry} (h : e ∈ t.entries path) : path <+: e.2 := by
  induction t generalizing path with
  | leaf f s => simp [entries] at h; subst h; exact List.prefix_rfl
  | node l r ihl ihr =>
    rw [entries, List.mem_append] at h
    rcases h with h | h
    · exact (List.prefix_append _ _).trans (ihl h)
    · exact (List.prefix_append _ _).trans (ihr h)

/-- R221: no codeword of a tree is a prefix of another. -/
theorem entries_pairwise (t : HTree) (path : List Bool) :
    (t.entries path).Pairwise fun e f => ¬ e.2 <+: f.2 ∧ ¬ f.2 <+: e.2 := by
  induction t generalizing path with
  | leaf f s => simp [entries]
  | node l r ihl ihr =>
    rw [entries, List.pairwise_append]
    refine ⟨ihl _, ihr _, ?_⟩
    intro e he f hf
    have he' := entries_prefix he
    have hf' := entries_prefix hf
    have key : ∀ {a b : List Bool} {x y : Bool}, x ≠ y → path ++ [x] <+: a → path ++ [y] <+: b → ¬ a <+: b := by
      intro a b x y hxy ha hb hab
      have := List.prefix_of_prefix_length_le (ha.trans hab) hb (by simp)
      have := this.eq_of_length (by simp)
      simp at this
      exact hxy this
    exact ⟨key (by simp) he' hf', key (by simp) hf' he'⟩

/-- R227: a codeword is shorter than the number of leaves. -/
theorem entries_length {t : HTree} {path : List Bool} {e : Entry} (h : e ∈ t.entries path) :
    e.2.length + 1 ≤ path.length + t.leaves.length := by
  induction t generalizing path with
  | leaf f s => simp [entries] at h; subst h; simp [leaves]
  | node l r ihl ihr =>
    have hl := l.leaves_ne_nil
    have hr := r.leaves_ne_nil
    rw [entries, List.mem_append] at h
    simp only [leaves, List.length_append]
    rcases h with h | h
    · have := ihl h
      simp at this
      omega
    · have := ihr h
      simp at this
      omega

/-- R225: the codewords' total length, each weighed by the frequency of its symbol. -/
theorem entries_cost {t : HTree} {g : Byte → Nat} (h : ∀ l ∈ t.leaves, l.1 = g l.2) (path : List Bool) :
    ((t.entries path).map fun e => g e.1 * e.2.length).sum = t.cost + t.weight * path.length := by
  induction t generalizing path with
  | leaf f s =>
    have := h (f, s) (by simp [leaves])
    simp [entries, cost, weight, ← this]
  | node l r ihl ihr =>
    simp only [leaves, List.mem_append] at h
    simp only [entries, cost, weight, List.map_append, List.sum_append]
    rw [ihl fun x hx => h x (.inl hx), ihr fun x hx => h x (.inr hx)]
    simp
    ring

end HTree

/-! ### Trees in the arena -/

/-- The arena holds the tree `t` at index `x`: children stand below their parent (R58). -/
inductive Holds (a : Arena) : Nat → HTree → Prop
  | leaf {x f : Nat} {s : Byte} (h : a[x]? = some (.leaf f s)) : Holds a x (.leaf f s)
  | node {x l r : Nat} {tl tr : HTree} (h : a[x]? = some (.internal (tl.weight + tr.weight) l r)) (hl : Holds a l tl)
      (hr : Holds a r tr) (hlx : l < x) (hrx : r < x) : Holds a x (.node tl tr)

theorem Holds.lt {a : Arena} {x : Nat} {t : HTree} (h : Holds a x t) : x < a.length := by
  cases h with
  | leaf h => exact (List.getElem?_eq_some_iff.mp h).1
  | node h => exact (List.getElem?_eq_some_iff.mp h).1

theorem Holds.append {a : Arena} {x : Nat} {t : HTree} (h : Holds a x t) (b : Arena) : Holds (a ++ b) x t := by
  induction h with
  | leaf h => exact .leaf (by rw [List.getElem?_append_left (List.getElem?_eq_some_iff.mp h).1]; exact h)
  | node h _ _ hlx hrx ihl ihr =>
    exact .node (by rw [List.getElem?_append_left (List.getElem?_eq_some_iff.mp h).1]; exact h) ihl ihr hlx hrx

theorem Holds.freqAt {a : Arena} {x : Nat} {t : HTree} (h : Holds a x t) : a.freqAt x = t.weight := by
  cases h with
  | leaf h => simp [Arena.freqAt, h, Node.freq, HTree.weight]
  | node h => simp [Arena.freqAt, h, Node.freq, HTree.weight]

/-- R218: the walk gives the entries of the tree. -/
theorem Holds.derive {a : Arena} {x : Nat} {t : HTree} (h : Holds a x t) {n : Nat} (hn : x < n) (path : List Bool) :
    derive a n x path = t.entries path := by
  induction h generalizing n path with
  | leaf h =>
    cases n with
    | zero => omega
    | succ n => simp [Machine.derive, h, HTree.entries]
  | node h _ _ hlx hrx ihl ihr =>
    cases n with
    | zero => omega
    | succ n =>
      simp only [Machine.derive, h, HTree.entries]
      rw [ihl (by omega), ihr (by omega)]

/-! ### Selection -/

theorem before_freq {a : Arena} {x y : Nat} (h : a.before x y = true) : a.freqAt x ≤ a.freqAt y := by
  simp [Arena.before] at h
  omega

theorem before_refl (a : Arena) (x : Nat) : a.before x x = true := by simp [Arena.before]

theorem before_trans {a : Arena} {x y z : Nat} (h : a.before x y = true) (h' : a.before y z = true) :
    a.before x z = true := by
  simp [Arena.before] at h h' ⊢
  omega

theorem before_of_not {a : Arena} {x y : Nat} (h : ¬ a.before x y = true) : a.before y x = true := by
  simp [Arena.before] at h ⊢
  omega

/-- R213: `take_min` removes a member of the live set that comes before every other. -/
theorem takeMin_spec {a : Arena} {l l' : List Nat} {x : Nat} (h : takeMin a l = some (x, l')) :
    l.Perm (x :: l') ∧ ∀ y ∈ l, a.before x y = true := by
  induction l generalizing x l' with
  | nil => simp [takeMin] at h
  | cons z zs ih =>
    rw [takeMin] at h
    cases ht : takeMin a zs with
    | none =>
      rw [ht] at h
      have hz : zs = [] := by
        cases zs with
        | nil => rfl
        | cons u us =>
          rw [takeMin] at ht
          cases hu : takeMin a us with
          | none => simp [hu] at ht
          | some p => simp only [hu] at ht; split at ht <;> simp at ht
      simp at h
      obtain ⟨rfl, rfl⟩ := h
      subst hz
      simp [before_refl]
    | some p =>
      obtain ⟨y, ys⟩ := p
      rw [ht] at h
      obtain ⟨hp, hmin⟩ := ih ht
      simp only at h
      split at h
      · rename_i hb
        simp at h
        obtain ⟨rfl, rfl⟩ := h
        refine ⟨List.Perm.refl _, ?_⟩
        intro w hw
        rcases List.mem_cons.mp hw with rfl | hw
        · exact before_refl _ _
        · exact before_trans hb (hmin w hw)
      · rename_i hb
        simp at h
        obtain ⟨rfl, rfl⟩ := h
        refine ⟨(hp.cons z).trans (List.Perm.swap _ _ _), ?_⟩
        intro w hw
        rcases List.mem_cons.mp hw with rfl | hw
        · exact before_of_not hb
        · exact hmin w hw

theorem takeMin_some {a : Arena} {l : List Nat} (h : l ≠ []) : ∃ x l', takeMin a l = some (x, l') := by
  cases l with
  | nil => exact absurd rfl h
  | cons z zs =>
    rw [takeMin]
    cases takeMin a zs with
    | none => exact ⟨_, _, rfl⟩
    | some p =>
      obtain ⟨y, ys⟩ := p
      simp only
      split <;> exact ⟨_, _, rfl⟩

end Sys2Proof.Machine
end

