-- ==== Sys2Proof/Laws/HufOptimal.lean ====
section
/-! SUPPORT. One merge step never costs more than any assignment of depths that satisfies Kraft's inequality
(41_huffman_tree.md R222). An assignment is a list of pairs, a weight and a depth. -/

namespace Sys2Proof.Machine

/-- The total length of an assignment of depths: the sum of weight times depth. -/
def depthCost (L : List (Nat × Nat)) : Nat := (L.map fun p => p.1 * p.2).sum

/-- The Kraft sum of an assignment, scaled by 2^D. -/
def kraftSum (D : Nat) (L : List (Nat × Nat)) : Nat := (L.map fun p => 2 ^ (D - p.2)).sum

/-- Kraft's inequality, for depths of at most D. -/
def Kraft (L : List (Nat × Nat)) : Prop := ∃ D, (∀ p ∈ L, p.2 ≤ D) ∧ kraftSum D L ≤ 2 ^ D

theorem perm_map_lift {α β : Type} {f : α → β} {l m : List β} (h : l.Perm m) :
    ∀ {xs : List α}, xs.map f = m → ∃ ys : List α, ys.Perm xs ∧ ys.map f = l := by
  induction h with
  | nil => intro xs hx; exact ⟨xs, .refl _, hx⟩
  | cons b _ ih =>
    intro xs hx
    cases xs with
    | nil => simp at hx
    | cons x xs =>
      simp at hx
      obtain ⟨ys, hp, hy⟩ := ih hx.2
      exact ⟨x :: ys, hp.cons x, by simp [hx.1, hy]⟩
  | swap b c l =>
    intro xs hx
    match xs, hx with
    | x :: y :: xs, hx =>
      simp at hx
      exact ⟨y :: x :: xs, .swap _ _ _, by simp [hx]⟩
  | trans _ _ ih1 ih2 =>
    intro xs hx
    obtain ⟨ys, hp, hy⟩ := ih2 hx
    obtain ⟨zs, hq, hz⟩ := ih1 hy
    exact ⟨zs, hq.trans hp, hz⟩

theorem depthCost_cons (p : Nat × Nat) (L : List (Nat × Nat)) : depthCost (p :: L) = p.1 * p.2 + depthCost L := by
  simp [depthCost]

theorem depthCost_perm {L M : List (Nat × Nat)} (h : L.Perm M) : depthCost L = depthCost M := (h.map _).sum_eq

theorem kraftSum_cons (D : Nat) (p : Nat × Nat) (L : List (Nat × Nat)) :
    kraftSum D (p :: L) = 2 ^ (D - p.2) + kraftSum D L := by
  simp [kraftSum]

theorem kraftSum_depths {D : Nat} {L M : List (Nat × Nat)} (h : (L.map Prod.snd).Perm (M.map Prod.snd)) :
    kraftSum D L = kraftSum D M := by
  have := (h.map fun d => 2 ^ (D - d)).sum_eq
  simpa [kraftSum, List.map_map, Function.comp_def] using this

theorem Kraft.depths {L M : List (Nat × Nat)} (h : Kraft L) (hp : (L.map Prod.snd).Perm (M.map Prod.snd)) : Kraft M := by
  obtain ⟨D, hD, hk⟩ := h
  refine ⟨D, ?_, by rwa [← kraftSum_depths hp]⟩
  intro p hm
  have : p.2 ∈ L.map Prod.snd := hp.mem_iff.mpr (List.mem_map_of_mem hm)
  obtain ⟨q, hq, he⟩ := List.mem_map.mp this
  rw [← he]
  exact hD q hq

/-- Giving the smallest weight the greatest depth costs no more. -/
theorem deepest_to_least (w d : Nat) (R : List (Nat × Nat)) (hw : ∀ p ∈ R, w ≤ p.1) :
    ∃ d' R', R'.map Prod.fst = R.map Prod.fst ∧ (∀ p ∈ R', p.2 ≤ d') ∧
      (d' :: R'.map Prod.snd).Perm (d :: R.map Prod.snd) ∧ w * d' + depthCost R' ≤ w * d + depthCost R := by
  induction R with
  | nil => exact ⟨d, [], rfl, by simp, .refl _, le_refl _⟩
  | cons u R ih =>
    obtain ⟨d', R', hf, hmax, hp, hc⟩ := ih fun p hp => hw p (by simp [hp])
    by_cases he : u.2 ≤ d'
    · refine ⟨d', u :: R', by simp [hf], ?_, ?_, ?_⟩
      · intro p hp
        rcases List.mem_cons.mp hp with rfl | hp
        · exact he
        · exact hmax p hp
      · exact ((List.Perm.swap _ _ _).trans (hp.cons u.2)).trans (List.Perm.swap _ _ _)
      · rw [depthCost_cons, depthCost_cons]
        omega
    · refine ⟨u.2, (u.1, d') :: R', by simp [hf], ?_, ?_, ?_⟩
      · intro p hp
        rcases List.mem_cons.mp hp with rfl | hp
        · simp only
          omega
        · have := hmax p hp
          omega
      · exact (hp.cons u.2).trans (List.Perm.swap _ _ _)
      · rw [depthCost_cons, depthCost_cons]
        have hwu : w ≤ u.1 := hw u (by simp)
        have : w * u.2 + u.1 * d' ≤ w * d' + u.1 * u.2 := by
          obtain ⟨a, hu⟩ := Nat.exists_eq_add_of_le hwu
          obtain ⟨b, hb⟩ := Nat.exists_eq_add_of_le (show d' ≤ u.2 by omega)
          rw [hb, hu]
          nlinarith [Nat.zero_le (a * b)]
        simp only
        omega

theorem kraftSum_scale {D E : Nat} {L : List (Nat × Nat)} (hDE : E ≤ D) (h : ∀ p ∈ L, p.2 ≤ E) :
    kraftSum D L = 2 ^ (D - E) * kraftSum E L := by
  induction L with
  | nil => simp [kraftSum]
  | cons p L ih =>
    have hp := h p (by simp)
    rw [kraftSum_cons, kraftSum_cons, ih fun q hq => h q (by simp [hq]), Nat.mul_add, ← pow_add]
    congr 3
    omega

/-- R222: merging the two smallest weights costs no more than any assignment of depths does: some assignment of depths to
the merged weights makes up for it. -/
theorem merge_depths {a b : Nat} {ws : List Nat} {L : List (Nat × Nat)} (hL : (L.map Prod.fst).Perm (a :: b :: ws))
    (ha : ∀ w ∈ b :: ws, a ≤ w) (hb : ∀ w ∈ ws, b ≤ w) (hk : Kraft L) :
    ∃ M, (M.map Prod.fst).Perm ((a + b) :: ws) ∧ Kraft M ∧ depthCost M + (a + b) ≤ depthCost L := by
  obtain ⟨L1, hL1, hf1⟩ := perm_map_lift hL.symm rfl
  match L1, hf1 with
  | (a', da) :: (b', db) :: R, hf1 =>
    simp at hf1
    obtain ⟨rfl, rfl, hR⟩ := hf1
    obtain ⟨d1, R1, hf2, hmax1, hp1, hc1⟩ := deepest_to_least a' da ((b', db) :: R) (by
      intro p hp
      apply ha
      rw [← hR]
      rcases List.mem_cons.mp hp with rfl | hp
      · simp
      · exact List.mem_cons_of_mem _ (List.mem_map_of_mem hp))
    match R1, hf2 with
    | (b2, db2) :: R2, hf2 =>
      simp at hf2
      obtain ⟨rfl, hR2⟩ := hf2
      obtain ⟨d2, R3, hf3, hmax2, hp2, hc2⟩ := deepest_to_least b2 db2 R2 (by
        intro p hp
        apply hb
        rw [← hR, ← hR2]
        exact List.mem_map_of_mem hp)
      have hd12 : d2 ≤ d1 := by
        have : d2 ∈ db2 :: R2.map Prod.snd := hp2.mem_iff.mp (by simp)
        rcases List.mem_cons.mp this with rfl | h
        · exact hmax1 (b2, d2) (by simp)
        · obtain ⟨q, hq, he⟩ := List.mem_map.mp h
          rw [← he]
          exact hmax1 q (by simp [hq])
      have hkraft : Kraft ((a', d1) :: (b2, d2) :: R3) := by
        refine hk.depths ((hL1.map Prod.snd).symm.trans ?_)
        simp only [List.map_cons]
        exact hp1.symm.trans (by simpa using hp2.symm.cons d1)
      obtain ⟨D, hD, hsum⟩ := hkraft
      have hd1D : d1 ≤ D := hD (a', d1) (by simp)
      have hothers : ∀ p ∈ (b2, d2) :: R3, p.2 ≤ d2 := by
        intro p hp
        rcases List.mem_cons.mp hp with rfl | hp
        · exact le_refl _
        · exact hmax2 p hp
      rw [kraftSum_cons, kraftSum_scale (hd12.trans hd1D) hothers] at hsum
      have hS : kraftSum d2 ((b2, d2) :: R3) < 2 ^ d2 := by
        have hpos : 0 < 2 ^ (D - d1) := Nat.two_pow_pos _
        have hpow : (2 : Nat) ^ D = 2 ^ (D - d2) * 2 ^ d2 := by rw [← pow_add]; congr 1; omega
        simp only [hpow] at hsum
        exact Nat.lt_of_mul_lt_mul_left (a := 2 ^ (D - d2)) (by omega)
      rw [kraftSum_cons] at hS
      simp only [Nat.sub_self, pow_zero] at hS
      have hd2 : d2 ≠ 0 := by
        rintro rfl
        simp at hS
      refine ⟨(a' + b2, d2 - 1) :: R3, ?_, ⟨d2, ?_, ?_⟩, ?_⟩
      · simp only [List.map_cons]
        rw [hf3, hR2, hR]
      · intro p hp
        rcases List.mem_cons.mp hp with rfl | hp
        · simp
        · exact hmax2 p hp
      · rw [kraftSum_cons]
        have : d2 - (d2 - 1) = 1 := by omega
        simp only [this, pow_one]
        omega
      · rw [depthCost_perm hL1.symm]
        simp only [depthCost_cons] at hc1 ⊢
        obtain ⟨m, rfl⟩ := Nat.exists_eq_succ_of_ne_zero hd2
        have h1 : a' * (m + 1) ≤ a' * d1 := Nat.mul_le_mul_left _ hd12
        simp only [Nat.succ_eq_add_one, Nat.add_sub_cancel] at *
        nlinarith

end Sys2Proof.Machine
end

