-- ==== Sys2Proof/Laws/HufTree.lean ====
section
/-! SUPPORT. What the Huffman tree builder computes (41_huffman_tree.md): one codeword per distinct symbol, prefix-free, of
bounded length, and of least total length. -/

namespace Sys2Proof.Machine

/-! ### All merge steps -/

/-- R214, R215, R222: what the merge steps leave, from a forest of live trees: one tree, with the forest's leaves, its root
the last node, and no dearer than any assignment of depths to the forest's roots. -/
theorem mergeLoop_spec (n : Nat) {a : Arena} {fs : List (Nat × HTree)} (hlen : fs.length = n + 1)
    (hh : ∀ p ∈ fs, Holds a p.1 p.2) :
    ∃ r t, Holds (mergeLoop n a (fs.map Prod.fst)) r t ∧
      (n = 0 → fs = [(r, t)]) ∧ (0 < n → r + 1 = (mergeLoop n a (fs.map Prod.fst)).length) ∧
      t.leaves.Perm (fs.flatMap fun p => p.2.leaves) ∧
      (∀ L : List (Nat × Nat), (L.map Prod.fst).Perm (fs.map fun p => p.2.weight) → Kraft L →
        t.cost ≤ (fs.map fun p => p.2.cost).sum + depthCost L) := by
  induction n generalizing a fs with
  | zero =>
    match fs, hlen with
    | [(r, t)], _ =>
      refine ⟨r, t, hh (r, t) (by simp), fun _ => rfl, by omega, by simp, ?_⟩
      intro L _ _
      simp
  | succ n ih =>
    have hne : fs.map Prod.fst ≠ [] := by
      intro h
      have := congrArg List.length h
      simp [hlen] at this
    obtain ⟨x, live1, h1⟩ := takeMin_some (a := a) hne
    obtain ⟨hp1, hmin1⟩ := takeMin_spec h1
    obtain ⟨fs1', hq1, hm1⟩ := perm_map_lift hp1.symm rfl
    have hlen1 := hq1.length_eq
    match fs1', hm1 with
    | (x', tx) :: fs1, hm1' =>
      simp only [List.map_cons, List.cons.injEq] at hm1'
      obtain ⟨rfl, hf1⟩ := hm1'
      have hne1 : live1 ≠ [] := by
        rw [← hf1]
        intro h
        have := congrArg List.length h
        simp [hlen] at this hlen1
        simp [this] at hlen1
      obtain ⟨y, live2, h2⟩ := takeMin_some (a := a) hne1
      obtain ⟨hp2, hmin2⟩ := takeMin_spec h2
      obtain ⟨fs2', hq2, hm2⟩ := perm_map_lift hp2.symm hf1
      have hlen2 := hq2.length_eq
      match fs2', hm2 with
      | (y', ty) :: fs2, hm2' =>
        simp only [List.map_cons, List.cons.injEq] at hm2'
        obtain ⟨rfl, hf2⟩ := hm2'
        have hperm : fs.Perm ((x', tx) :: (y', ty) :: fs2) := hq1.symm.trans (hq2.symm.cons _)
        have hx : Holds a x' tx := hh (x', tx) (hperm.mem_iff.mpr (by simp))
        have hy : Holds a y' ty := hh (y', ty) (hperm.mem_iff.mpr (by simp))
        have hin : ∀ p ∈ fs2, Holds a p.1 p.2 := fun p hp => hh p (hperm.mem_iff.mpr (by simp [hp]))
        have hnew : Holds (a ++ [.internal (a.freqAt x' + a.freqAt y') x' y']) a.length (.node tx ty) :=
          .node (by simp [hx.freqAt, hy.freqAt]) (hx.append _) (hy.append _) hx.lt hy.lt
        obtain ⟨r, t, ht, _, hr, hleaves, hcost⟩ := ih (a := a ++ [.internal (a.freqAt x' + a.freqAt y') x' y'])
          (fs := fs2 ++ [(a.length, .node tx ty)]) (by simp at hlen1 hlen2 ⊢; omega) (by
            intro p hp
            rcases List.mem_append.mp hp with hp | hp
            · exact (hin p hp).append _
            · simp at hp
              subst hp
              exact hnew)
        have hloop : mergeLoop (n + 1) a (fs.map Prod.fst) =
            mergeLoop n (a ++ [.internal (a.freqAt x' + a.freqAt y') x' y'])
              ((fs2 ++ [(a.length, HTree.node tx ty)]).map Prod.fst) := by
          simp only [mergeLoop, h1, h2, List.map_append, List.map_cons, List.map_nil, hf2]
        rw [hloop]
        refine ⟨r, t, ht, by omega, ?_, ?_, ?_⟩
        · intro _
          cases n with
          | zero =>
            have hnil : fs2 = [] := List.eq_nil_of_length_eq_zero (by simp at hlen1 hlen2; omega)
            rename_i hone _
            have := hone rfl
            rw [hnil] at this ⊢
            simp at this
            simp [mergeLoop, ← this.1]
          | succ n => exact hr (by omega)
        · refine hleaves.trans ?_
          refine List.Perm.trans ?_ (hperm.flatMap_right fun p => p.2.leaves).symm
          simp only [List.flatMap_append, List.flatMap_cons, List.flatMap_nil, List.append_nil, HTree.leaves]
          rw [← List.append_assoc tx.leaves]
          exact List.perm_append_comm
        · intro L hL hk
          have hw : (L.map Prod.fst).Perm (tx.weight :: ty.weight :: fs2.map fun p => p.2.weight) :=
            hL.trans (hperm.map fun p => p.2.weight)
          have hxle : ∀ p ∈ fs, tx.weight ≤ p.2.weight := by
            intro p hp
            have := before_freq (hmin1 p.1 (List.mem_map_of_mem hp))
            rwa [hx.freqAt, (hh p hp).freqAt] at this
          have hyle : ∀ p ∈ fs2, ty.weight ≤ p.2.weight := by
            intro p hp
            have := before_freq (hmin2 p.1 (by rw [← hf1]; exact List.mem_map_of_mem (hq2.mem_iff.mp (by simp [hp]))))
            rwa [hy.freqAt, (hin p hp).freqAt] at this
          obtain ⟨M, hM, hkM, hle⟩ := merge_depths hw (by
              intro w hw
              rcases List.mem_cons.mp hw with rfl | hw
              · exact hxle (y', ty) (hperm.mem_iff.mpr (by simp))
              · obtain ⟨p, hp, rfl⟩ := List.mem_map.mp hw
                exact hxle p (hperm.mem_iff.mpr (by simp [hp]))) (by
              intro w hw
              obtain ⟨p, hp, rfl⟩ := List.mem_map.mp hw
              exact hyle p hp) hk
          have := hcost M (by
            refine hM.trans ?_
            simp only [List.map_append, List.map_cons, List.map_nil, HTree.weight]
            exact (List.perm_append_singleton _ _).symm) hkM
          rw [(hperm.map fun p => p.2.cost).sum_eq]
          simp only [List.map_append, List.map_cons, List.map_nil, List.sum_append, List.sum_cons, List.sum_nil,
            HTree.cost] at this ⊢
          omega

end Sys2Proof.Machine
end

