-- ==== Sys2Proof/Laws/HufBuild.lean ====
section
/-! SUPPORT. The codeword table the builder makes for an input (41_huffman_tree.md R219 to R225). -/

namespace Sys2Proof.Machine

/-! ### Kraft's inequality for prefix-free codes -/

/-- No codeword of the list is a prefix of another (R25). -/
abbrev CodesFree (cs : List (List Bool)) : Prop := cs.Pairwise fun c d => ¬ c <+: d ∧ ¬ d <+: c

/-- What follows the bit `b` in the codewords that begin with it. -/
def tailsOf (b : Bool) (cs : List (List Bool)) : List (List Bool) :=
  cs.filterMap fun c =>
    match c with
    | [] => none
    | x :: t => if x = b then some t else none

theorem mem_tailsOf {b : Bool} {cs : List (List Bool)} {t : List Bool} : t ∈ tailsOf b cs ↔ b :: t ∈ cs := by
  simp only [tailsOf, List.mem_filterMap]
  constructor
  · rintro ⟨c, hc, h⟩
    match c with
    | [] => simp at h
    | x :: u =>
      simp at h
      obtain ⟨rfl, rfl⟩ := h
      exact hc
  · intro h
    exact ⟨_, h, by simp⟩

theorem tailsOf_free {b : Bool} {cs : List (List Bool)} (h : CodesFree cs) : CodesFree (tailsOf b cs) := by
  rw [CodesFree, tailsOf, List.pairwise_filterMap]
  refine h.imp ?_
  intro c d hcd t ht u hu
  match c, d with
  | [], _ => simp at ht
  | _ :: _, [] => simp at hu
  | x :: t', y :: u' =>
    simp at ht hu
    obtain ⟨rfl, rfl⟩ := ht
    obtain ⟨rfl, rfl⟩ := hu
    simpa using hcd

theorem kraft_split {D : Nat} {cs : List (List Bool)} (h : [] ∉ cs) :
    (cs.map fun c => 2 ^ (D + 1 - c.length)).sum =
      ((tailsOf false cs).map fun c => 2 ^ (D - c.length)).sum +
        ((tailsOf true cs).map fun c => 2 ^ (D - c.length)).sum := by
  induction cs with
  | nil => simp [tailsOf]
  | cons c cs ih =>
    have := ih fun hm => h (by simp [hm])
    match c with
    | [] => simp at h
    | x :: t =>
      simp only [List.map_cons, List.sum_cons, this]
      cases x <;> simp [tailsOf] <;> omega

theorem kraft_sum_le {D : Nat} {cs : List (List Bool)} (hfree : CodesFree cs) (hlen : ∀ c ∈ cs, c.length ≤ D) :
    (cs.map fun c => 2 ^ (D - c.length)).sum ≤ 2 ^ D := by
  induction D generalizing cs with
  | zero =>
    match cs with
    | [] => simp
    | [c] => simp
    | c :: d :: cs =>
      have hc : c = [] := List.eq_nil_of_length_eq_zero (by have := hlen c (by simp); omega)
      have := (List.pairwise_cons.mp hfree).1 d (by simp)
      simp [hc] at this
  | succ D ih =>
    by_cases hnil : [] ∈ cs
    · have : cs = [[]] := by
        match cs with
        | [c] => simpa using hnil
        | c :: d :: cs =>
          exfalso
          rcases List.mem_cons.mp hnil with h | h
          · have := (List.pairwise_cons.mp hfree).1 d (by simp)
            simp [← h] at this
          · have := (List.pairwise_cons.mp hfree).1 [] h
            simp at this
      simp [this]
    · rw [kraft_split hnil]
      have h0 := ih (cs := tailsOf false cs) (tailsOf_free hfree) fun c hc => by
        have := hlen _ (mem_tailsOf.mp hc)
        simp at this
        exact this
      have h1 := ih (cs := tailsOf true cs) (tailsOf_free hfree) fun c hc => by
        have := hlen _ (mem_tailsOf.mp hc)
        simp at this
        exact this
      rw [pow_succ]
      omega

theorem exists_length_bound (cs : List (List Bool)) : ∃ D, ∀ c ∈ cs, c.length ≤ D := by
  induction cs with
  | nil => exact ⟨0, by simp⟩
  | cons c cs ih =>
    obtain ⟨D, hD⟩ := ih
    refine ⟨max c.length D, ?_⟩
    intro d hd
    rcases List.mem_cons.mp hd with rfl | hd
    · exact le_max_left _ _
    · exact (hD d hd).trans (le_max_right _ _)

/-- Kraft's inequality: the lengths of a prefix-free code, with any weights. -/
theorem Kraft.of_free {E : List Entry} (g : Byte → Nat) (h : CodesFree (E.map Prod.snd)) :
    Kraft (E.map fun e => (g e.1, e.2.length)) := by
  obtain ⟨D, hD⟩ := exists_length_bound (E.map Prod.snd)
  refine ⟨D, ?_, ?_⟩
  · intro p hp
    obtain ⟨e, he, rfl⟩ := List.mem_map.mp hp
    exact hD e.2 (List.mem_map_of_mem he)
  · have := kraft_sum_le h hD
    simpa [kraftSum, List.map_map, Function.comp_def] using this

/-! ### Distinct symbols and frequencies -/

/-- R210: the distinct symbols of an input, in ascending order. -/
def distinctSyms (X : List Byte) : List Byte :=
  ((List.range 256).filter fun s => decide (0 < X.countP fun x => x.toNat == s)).map (BitVec.ofNat 8)

theorem countP_toNat (X : List Byte) (s : Byte) : (X.countP fun x => x.toNat == s.toNat) = X.count s := by
  rw [List.count]
  congr 1
  funext x
  rw [Bool.eq_iff_iff]
  simp [BitVec.toNat_inj]

theorem freqCount_getD (X : List Byte) {s : Nat} (h : s < 256) :
    (freqCount X).getD s 0 = X.count (BitVec.ofNat 8 s) := by
  rw [← countP_toNat, freqCount, List.getD_eq_getElem?_getD]
  simp [h, Nat.mod_eq_of_lt h]

theorem mem_distinctSyms {X : List Byte} {s : Byte} : s ∈ distinctSyms X ↔ s ∈ X := by
  simp only [distinctSyms, List.mem_map, List.mem_filter, List.mem_range, decide_eq_true_eq]
  constructor
  · rintro ⟨n, ⟨hn, hc⟩, rfl⟩
    obtain ⟨x, hx, he⟩ := List.countP_pos_iff.mp hc
    have : x = BitVec.ofNat 8 n := by
      apply BitVec.eq_of_toNat_eq
      have := beq_iff_eq.mp he
      rw [this]
      simp [Nat.mod_eq_of_lt hn]
    rwa [← this]
  · intro h
    refine ⟨s.toNat, ⟨s.isLt, ?_⟩, by simp⟩
    rw [countP_toNat]
    exact List.count_pos_iff.mpr h

theorem distinctSyms_nodup (X : List Byte) : (distinctSyms X).Nodup := by
  rw [distinctSyms]
  refine List.Nodup.map_on ?_ (List.nodup_range.filter _)
  intro a ha b hb hab
  have ha' : a < 256 := List.mem_range.mp (List.mem_filter.mp ha).1
  have hb' : b < 256 := List.mem_range.mp (List.mem_filter.mp hb).1
  have := congrArg BitVec.toNat hab
  simpa [Nat.mod_eq_of_lt ha', Nat.mod_eq_of_lt hb'] using this

theorem distinctSyms_length_le (X : List Byte) : (distinctSyms X).length ≤ 256 := by
  rw [distinctSyms, List.length_map]
  exact (List.length_filter_le _ _).trans (by simp)

/-- R211: the leaves, one per distinct symbol, in ascending order. -/
theorem leaves_eq (X : List Byte) :
    leaves (freqCount X) = (distinctSyms X).map fun s => .leaf (X.count s) s := by
  rw [leaves, distinctSyms, List.map_map, ← List.filterMap_eq_map, ← List.filterMap_eq_filter, List.filterMap_filterMap]
  refine List.filterMap_congr ?_
  intro n hn
  have hn' := List.mem_range.mp hn
  rw [freqCount_getD X hn']
  have : (X.countP fun x => x.toNat == n) = X.count (BitVec.ofNat 8 n) := by
    rw [← countP_toNat]
    simp [Nat.mod_eq_of_lt hn']
  rw [Option.guard, this]
  by_cases h : 0 < X.count (BitVec.ofNat 8 n) <;> simp [h]

/-! ### The builder -/

/-- The entries the builder puts in the table (R220). -/
def builtEntries (X : List Byte) : List Entry := hufEntries (leaves (freqCount X)).length (hufBuild X).arena

theorem hufBuild_code (X : List Byte) : (hufBuild X).code = codeTable (builtEntries X) := by
  simp only [hufBuild, builtEntries]

theorem hufBuild_nSym (X : List Byte) : (hufBuild X).nSym = (distinctSyms X).length := by
  simp [hufBuild, leaves_eq]

theorem range_map_getElem {α β : Type} (l : List α) (f : Nat → β) (g : α → β)
    (h : ∀ i (hi : i < l.length), f i = g l[i]) : (List.range l.length).map f = l.map g := by
  apply List.ext_getElem
  · simp
  · intro i h1 h2
    simp at h1
    simp [h i h1]

/-- R214, R215: the tree of an input with at least two distinct symbols. -/
theorem hufBuild_tree {X : List Byte} {m : Nat} (hm : (distinctSyms X).length = m + 2) :
    ∃ t : HTree, builtEntries X = t.entries [] ∧ Holds (hufBuild X).arena ((hufBuild X).arena.length - 1) t ∧
      t.leaves.Perm ((distinctSyms X).map fun s => (X.count s, s)) ∧
      (∀ L : List (Nat × Nat), (L.map Prod.fst).Perm ((distinctSyms X).map fun s => X.count s) → Kraft L →
        t.cost ≤ depthCost L) := by
  have hls := leaves_eq X
  have hlen : (leaves (freqCount X)).length = m + 2 := by simp [hls, hm]
  let S := distinctSyms X
  let fs : List (Nat × HTree) := (List.range S.length).map fun i => (i, .leaf (X.count (S.getD i 0)) (S.getD i 0))
  have hget : ∀ i (hi : i < S.length), S.getD i 0 = S[i] := fun i hi => by simp [hi]
  have hfst : fs.map Prod.fst = List.range (leaves (freqCount X)).length := by
    simp [fs, S, hlen, hm, List.map_map, Function.comp_def]
  have hfslen : fs.length = (m + 1) + 1 := by simp [fs, S, hm]
  have hholds : ∀ p ∈ fs, Holds (leaves (freqCount X)) p.1 p.2 := by
    intro p hp
    obtain ⟨i, hi, rfl⟩ := List.mem_map.mp hp
    have hi' := List.mem_range.mp hi
    refine .leaf ?_
    rw [hls, List.getElem?_map, List.getElem?_eq_getElem hi', hget i hi']
    rfl
  obtain ⟨r, t, ht, _, hroot, hleaves, hcost⟩ := mergeLoop_spec (m + 1) hfslen hholds
  have harena : (hufBuild X).arena = mergeLoop (m + 1) (leaves (freqCount X)) (fs.map Prod.fst) := by
    rw [hfst]
    simp [hufBuild, hlen]
  refine ⟨t, ?_, ?_, ?_, ?_⟩
  · have hr := hroot (by omega)
    have hent : ∀ a : Arena, hufEntries (m + 2) a = derive a a.length (a.length - 1) [] := fun a => rfl
    rw [builtEntries, hlen, hent, harena]
    rw [show (mergeLoop (m + 1) (leaves (freqCount X)) (fs.map Prod.fst)).length - 1 = r by omega]
    exact ht.derive ht.lt []
  · rw [harena, show (mergeLoop (m + 1) (leaves (freqCount X)) (fs.map Prod.fst)).length - 1 = r by
      have := hroot (by omega); omega]
    exact ht
  · refine hleaves.trans (List.Perm.of_eq ?_)
    simp only [fs, List.flatMap_map, HTree.leaves]
    rw [← List.map_eq_flatMap]
    exact range_map_getElem S _ _ fun i hi => by rw [hget i hi]
  · intro L hL hk
    have := hcost L (by
      refine hL.trans (List.Perm.of_eq ?_)
      simp only [fs, List.map_map, Function.comp_def, HTree.weight]
      exact (range_map_getElem S _ _ fun i hi => by rw [hget i hi]).symm) hk
    have hzero : (fs.map fun p => p.2.cost).sum = 0 := by
      simp [fs, List.map_map, Function.comp_def, HTree.cost]
    omega

end Sys2Proof.Machine
end

