-- ==== Sys2Proof/Laws/HufTable.lean ====
section
/-! SUPPORT. The codeword table of an input and the payload it gives (41_huffman_tree.md R216 to R227, 42_huffman_coder.md
R242, R250). -/

namespace Sys2Proof.Machine

/-- The entries have different symbols, and no codeword is a prefix of another. -/
structure TableOk (es : List Entry) : Prop where
  syms : (es.map Prod.fst).Nodup
  free : CodesFree (es.map Prod.snd)

theorem distinctSyms_ne_nil {X : List Byte} (h : X ≠ []) : distinctSyms X ≠ [] := by
  cases X with
  | nil => exact absurd rfl h
  | cons x xs =>
    intro hn
    have : x ∈ distinctSyms (x :: xs) := mem_distinctSyms.mpr (by simp)
    rw [hn] at this
    simp at this

/-- R216: the entries of an input with one distinct symbol. -/
theorem builtEntries_single {X : List Byte} {s : Byte} (h : distinctSyms X = [s]) : builtEntries X = [(s, [false])] := by
  have hl : leaves (freqCount X) = [.leaf (X.count s) s] := by simp [leaves_eq, h]
  have ha : (hufBuild X).arena = [.leaf (X.count s) s] := by simp [hufBuild, hl, mergeLoop]
  rw [builtEntries, ha, hl]
  rfl

/-- What the builder puts in the table of a non-empty input. -/
structure BuiltOk (X : List Byte) : Prop where
  /-- R219: one entry per distinct symbol. -/
  syms : ((builtEntries X).map Prod.fst).Perm (distinctSyms X)
  /-- R221. -/
  free : CodesFree ((builtEntries X).map Prod.snd)
  /-- R227. -/
  pos : ∀ e ∈ builtEntries X, 1 ≤ e.2.length
  /-- R227. -/
  le : ∀ e ∈ builtEntries X, e.2.length ≤ max 1 ((distinctSyms X).length - 1)

theorem entries_pos {t : HTree} (h : 2 ≤ t.leaves.length) : ∀ e ∈ t.entries [], 1 ≤ e.2.length := by
  intro e he
  cases t with
  | leaf f s => simp [HTree.leaves] at h
  | node l r =>
    rw [HTree.entries, List.mem_append] at he
    rcases he with he | he
    · have := (HTree.entries_prefix he).length_le
      simpa using this
    · have := (HTree.entries_prefix he).length_le
      simpa using this

theorem builtOk {X : List Byte} (hX : X ≠ []) : BuiltOk X := by
  have hne := distinctSyms_ne_nil hX
  match hm : (distinctSyms X).length with
  | 0 => exact absurd (List.eq_nil_of_length_eq_zero hm) hne
  | 1 =>
    obtain ⟨s, hs⟩ := List.length_eq_one_iff.mp hm
    have hb := builtEntries_single hs
    exact ⟨by simp [hb, hs], by simp [hb], by simp [hb], by simp [hb]⟩
  | m + 2 =>
    obtain ⟨t, ht, _, hleaves, _⟩ := hufBuild_tree hm
    have hlen : t.leaves.length = m + 2 := by simp [hleaves.length_eq, hm]
    refine ⟨?_, ?_, ?_, ?_⟩
    · rw [ht, HTree.entries_sym]
      have := hleaves.map Prod.snd
      simpa [List.map_map, Function.comp_def] using this
    · rw [ht]
      exact List.Pairwise.map _ (fun _ _ h => h) (t.entries_pairwise [])
    · rw [ht]
      exact entries_pos (by omega)
    · intro e he
      rw [ht] at he
      have := HTree.entries_length he
      simp at this
      omega

theorem BuiltOk.table {X : List Byte} (h : BuiltOk X) : TableOk (builtEntries X) :=
  { syms := h.syms.nodup_iff.mpr (distinctSyms_nodup X), free := h.free }

theorem BuiltOk.mem {X : List Byte} (h : BuiltOk X) {s : Byte} : s ∈ (builtEntries X).map Prod.fst ↔ s ∈ X := by
  rw [h.syms.mem_iff, mem_distinctSyms]

/-- R227: no codeword is longer than 255 bits. -/
theorem BuiltOk.le_255 {X : List Byte} (h : BuiltOk X) {e : Entry} (he : e ∈ builtEntries X) : e.2.length ≤ 255 := by
  have := h.le e he
  have := distinctSyms_length_le X
  omega

/-! ### The table CODE -/

theorem codeTable_bits (es : List Entry) (s : Byte) :
    (codeTable es).bits s =
      match es.find? fun e => e.1.toNat == s.toNat with
      | some e => e.2
      | none => [] := by
  rw [CodeTable.bits, codeTable, List.getD_eq_getElem?_getD]
  simp only [List.getElem?_map, List.getElem?_range s.isLt]
  rfl

theorem codeTable_bits_mem {es : List Entry} (h : (es.map Prod.fst).Nodup) {e : Entry} (he : e ∈ es) :
    (codeTable es).bits e.1 = e.2 := by
  rw [codeTable_bits]
  induction es with
  | nil => simp at he
  | cons f es ih =>
    simp only [List.map_cons, List.nodup_cons] at h
    rcases List.mem_cons.mp he with rfl | he
    · simp
    · have hne : f.1.toNat ≠ e.1.toNat := by
        intro hh
        apply h.1
        rw [BitVec.eq_of_toNat_eq hh]
        exact List.mem_map_of_mem he
      rw [List.find?_cons_of_neg (by simpa using hne)]
      exact ih h.2 he

theorem codeTable_bits_not_mem {es : List Entry} {s : Byte} (h : s ∉ es.map Prod.fst) : (codeTable es).bits s = [] := by
  rw [codeTable_bits]
  have : es.find? (fun e => e.1.toNat == s.toNat) = none := by
    rw [List.find?_eq_none]
    intro e he hh
    apply h
    rw [← BitVec.eq_of_toNat_eq (beq_iff_eq.mp hh)]
    exact List.mem_map_of_mem he
  rw [this]

/-! ### The payload -/

theorem sum_zero_of {α : Type} (l : List α) (f : α → Nat) (h : ∀ a ∈ l, f a = 0) : (l.map f).sum = 0 := by
  induction l with
  | nil => rfl
  | cons a l ih => simp [h a (by simp), ih fun b hb => h b (by simp [hb])]

/-- R225: a sum over the input is a sum over the table, weighed by the counts. -/
theorem sum_by_symbol {es : List Entry} (hs : (es.map Prod.fst).Nodup) (f : Byte → Nat) (X : List Byte)
    (h : ∀ x ∈ X, x ∈ es.map Prod.fst) : (X.map f).sum = (es.map fun e => X.count e.1 * f e.1).sum := by
  induction X with
  | nil => simp
  | cons x X ih =>
    rw [List.map_cons, List.sum_cons, ih fun y hy => h y (by simp [hy])]
    have hx := h x (by simp)
    clear ih h
    induction es with
    | nil => simp at hx
    | cons e es ih =>
      simp only [List.map_cons, List.nodup_cons, List.mem_cons] at hs hx
      simp only [List.map_cons, List.sum_cons, List.count_cons]
      rcases hx with rfl | hx
      · have hrest : (es.map fun g => (X.count g.1 + if (e.1 == g.1) = true then 1 else 0) * f g.1) =
            es.map fun g => X.count g.1 * f g.1 := by
          refine List.map_congr_left ?_
          intro g hg
          have : e.1 ≠ g.1 := fun hh => hs.1 (by rw [hh]; exact List.mem_map_of_mem hg)
          simp [this]
        rw [hrest]
        simp
        ring
      · have hne : x ≠ e.1 := fun hh => hs.1 (by rw [← hh]; exact hx)
        have := ih hs.2 hx
        simp only [List.count_cons] at this
        rw [← this]
        simp [hne]
        ring

/-- R225, R242: the length of the payload. -/
theorem hufPayload_length {X : List Byte} (h : BuiltOk X) :
    (hufPayload (hufBuild X).code X).length = ((builtEntries X).map fun e => X.count e.1 * e.2.length).sum := by
  have ht := h.table
  rw [hufPayload, List.length_flatMap, hufBuild_code,
    sum_by_symbol ht.syms (fun x => ((codeTable (builtEntries X)).bits x).length) X fun x hx => h.mem.mpr hx]
  congr 1
  refine List.map_congr_left ?_
  intro e he
  rw [codeTable_bits_mem ht.syms he]

theorem count_sum (X : List Byte) : ((distinctSyms X).map fun s => X.count s).sum = X.length := by
  have := sum_by_symbol (es := (distinctSyms X).map fun s => (s, []))
    (by simpa [List.map_map, Function.comp_def] using distinctSyms_nodup X) (fun _ => 1) X
    (by intro x hx; simpa [List.map_map, Function.comp_def] using mem_distinctSyms.mpr hx)
  simp [List.map_map, Function.comp_def] at this
  exact this.symm

/-- R222, R225: the payload of an input with at least two distinct symbols costs no more than any assignment of depths to
its symbols that satisfies Kraft's inequality. -/
theorem hufPayload_le_depthCost {X : List Byte} {m : Nat} (hm : (distinctSyms X).length = m + 2) (hX : X ≠ [])
    {L : List (Nat × Nat)} (hL : (L.map Prod.fst).Perm ((distinctSyms X).map fun s => X.count s)) (hk : Kraft L) :
    (hufPayload (hufBuild X).code X).length ≤ depthCost L := by
  obtain ⟨t, ht, _, hleaves, hcost⟩ := hufBuild_tree hm
  rw [hufPayload_length (builtOk hX), ht, HTree.entries_cost (g := fun s => X.count s) (by
    intro l hl
    have := hleaves.mem_iff.mp hl
    obtain ⟨s, _, rfl⟩ := List.mem_map.mp this
    rfl)]
  simpa using hcost L hL hk

theorem hufPayload_single {X : List Byte} {s : Byte} (h : distinctSyms X = [s]) (hX : X ≠ []) :
    (hufPayload (hufBuild X).code X).length = X.length := by
  rw [hufPayload_length (builtOk hX), builtEntries_single h]
  have := count_sum X
  simpa [h] using this

/-- R223, R250: at most eight bits per input symbol. -/
theorem hufPayload_le {X : List Byte} (hX : X ≠ []) : (hufPayload (hufBuild X).code X).length ≤ 8 * X.length := by
  have hne := distinctSyms_ne_nil hX
  match hm : (distinctSyms X).length with
  | 0 => exact absurd (List.eq_nil_of_length_eq_zero hm) hne
  | 1 =>
    obtain ⟨s, hs⟩ := List.length_eq_one_iff.mp hm
    rw [hufPayload_single hs hX]
    omega
  | m + 2 =>
    have h256 := distinctSyms_length_le X
    have := hufPayload_le_depthCost hm hX (L := (distinctSyms X).map fun s => (X.count s, 8))
      (by simp [List.map_map, Function.comp_def])
      ⟨8, by simp, by simpa [kraftSum, List.map_map, Function.comp_def] using h256⟩
    refine this.trans ?_
    rw [← count_sum X]
    simp [depthCost, List.map_map, Function.comp_def, List.sum_map_mul_right]
    omega

/-- R222: no prefix-free code for the distinct symbols of an input gives a shorter payload; with one distinct symbol, none
whose codeword has a bit. -/
theorem hufPayload_minimal {X : List Byte} (hX : X ≠ []) {E : List Entry} (hE : (E.map Prod.fst).Perm (distinctSyms X))
    (hfree : CodesFree (E.map Prod.snd)) (hpos : ∀ e ∈ E, 1 ≤ e.2.length) :
    (hufPayload (hufBuild X).code X).length ≤ (E.map fun e => X.count e.1 * e.2.length).sum := by
  have hne := distinctSyms_ne_nil hX
  match hm : (distinctSyms X).length with
  | 0 => exact absurd (List.eq_nil_of_length_eq_zero hm) hne
  | 1 =>
    obtain ⟨s, hs⟩ := List.length_eq_one_iff.mp hm
    rw [hufPayload_single hs hX]
    rw [hs] at hE
    have hE1 := hE.length_eq
    match E, hE1 with
    | [e], _ =>
      simp at hE
      have hc := count_sum X
      simp [hs] at hc
      have := hpos e (by simp)
      simp [hE, hc]
      nlinarith
  | m + 2 =>
    have := hufPayload_le_depthCost hm hX (L := E.map fun e => (X.count e.1, e.2.length))
      (by
        have := hE.map fun s => X.count s
        simpa [List.map_map, Function.comp_def] using this)
      (Kraft.of_free (fun s => X.count s) hfree)
    simpa [depthCost, List.map_map, Function.comp_def] using this

end Sys2Proof.Machine
end

