-- ==== Sys2Proof/Laws/HufFrame.lean ====
section
/-! SUPPORT. The Huffman frame (30_encoding.md R125 to R134): what HUF_ENCODE writes, and that HUF_DECODE reads it back. -/

namespace Sys2Proof.Machine

/-! ### The checks of the decoder -/

theorem uniqueSymbols_iff (T : List Entry) : uniqueSymbols T = true ↔ (T.map Prod.fst).Nodup := by
  induction T with
  | nil => simp [uniqueSymbols]
  | cons e T ih =>
    simp only [uniqueSymbols, Bool.and_eq_true, List.all_eq_true, ih, List.map_cons, List.nodup_cons]
    simp only [List.mem_map, not_exists, not_and, Bool.not_eq_true', beq_eq_false_iff_ne, ne_eq]
    constructor
    · rintro ⟨h, h'⟩
      exact ⟨fun f hf he => h f hf he.symm, h'⟩
    · rintro ⟨h, h'⟩
      exact ⟨fun f hf he => h f hf he.symm, h'⟩

theorem prefixFree_iff (T : List Entry) : prefixFree T = true ↔ CodesFree (T.map Prod.snd) := by
  induction T with
  | nil => simp [prefixFree]
  | cons e T ih =>
    simp only [prefixFree, Bool.and_eq_true, List.all_eq_true, ih, List.map_cons, CodesFree, List.pairwise_cons]
    simp only [List.mem_map, forall_exists_index, and_imp, forall_apply_eq_imp_iff₂, Bool.not_eq_true']
    simp only [← Bool.not_eq_true, List.isPrefixOf_iff_prefix]

/-- Two different entries of a table: no codeword is a prefix of the other. -/
theorem TableOk.apart {T : List Entry} (h : TableOk T) {e f : Entry} (he : e ∈ T) (hf : f ∈ T) (hne : e ≠ f) :
    ¬ e.2 <+: f.2 := by
  have hp : T.Pairwise fun a b => ¬ a.2 <+: b.2 ∧ ¬ b.2 <+: a.2 := List.pairwise_map.mp h.free
  have : Std.Symm fun a b : Entry => ¬ a.2 <+: b.2 ∧ ¬ b.2 <+: a.2 := ⟨fun _ _ hab => ⟨hab.2, hab.1⟩⟩
  exact (hp.forall he hf hne).1

/-! ### The scan -/

/-- R260: the scan of the rest of a codeword emits its symbol. -/
theorem hufScanLoop_codeword {T : List Entry} (hT : TableOk T) {cap : Nat} {e : Entry} (he : e ∈ T) (suf : List Bool) :
    ∀ {pre : List Bool} {start j : Nat} {out : List Byte} {rest : List Bool}, suf ≠ [] → e.2 = pre ++ suf →
      out.length + 1 ≤ cap →
      hufScanLoop cap T j (suf ++ rest) { acc := pre, start := start, out := out } =
        hufScanLoop cap T (j + suf.length) rest { acc := [], start := j + suf.length, out := out ++ [e.1] } := by
  induction suf with
  | nil => intro _ _ _ _ _ h; exact absurd rfl h
  | cons b bs ih =>
    intro pre start j out rest _ hcw hcap
    simp only [List.cons_append, hufScanLoop, hufScanStep]
    cases bs with
    | nil =>
      have hfind : T.find? (fun f => f.2 == pre ++ [b]) = some e := by
        cases hf : T.find? (fun f => f.2 == pre ++ [b]) with
        | none =>
          have := List.find?_eq_none.mp hf e he
          simp [hcw] at this
        | some f =>
          have hfm := List.mem_of_find?_eq_some hf
          have hfe : f.2 = e.2 := by
            have := List.find?_some hf
            simpa [hcw] using this
          by_contra hne
          exact hT.apart hfm he (fun h => hne (by rw [h])) (by rw [hfe])
      rw [hfind]
      simp [Nat.not_lt.mpr hcap]
    | cons b' bs =>
      have hfind : T.find? (fun f => f.2 == pre ++ [b]) = none := by
        rw [List.find?_eq_none]
        intro f hf heq
        have heq' : f.2 = pre ++ [b] := by simpa using heq
        have hpre : f.2 <+: e.2 := by
          rw [heq', hcw]
          exact ⟨b' :: bs, by simp⟩
        by_cases hfe : f = e
        · subst hfe
          rw [heq'] at hcw
          have := congrArg List.length hcw
          simp at this
        · exact hT.apart hf he hfe hpre
      rw [hfind]
      have := ih (pre := pre ++ [b]) (start := start) (j := j + 1) (out := out) (rest := rest) (by simp) (by simp [hcw]) hcap
      simp only [List.cons_append, List.length_cons] at this ⊢
      rw [this, show j + 1 + (bs.length + 1) = j + (bs.length + 1 + 1) by omega]

/-- R260, R266: the scan of the codewords of a string gives the string. -/
theorem hufScanLoop_payload {T : List Entry} (hT : TableOk T) (hpos : ∀ e ∈ T, 1 ≤ e.2.length) {cap : Nat} {t : CodeTable}
    (X : List Byte) (hX : ∀ x ∈ X, (x, t.bits x) ∈ T) :
    ∀ {j : Nat} {start : Nat} {out : List Byte}, out.length + X.length ≤ cap →
      ∃ start', hufScanLoop cap T j (hufPayload t X) { acc := [], start := start, out := out } =
        .ok { acc := [], start := start', out := out ++ X } := by
  induction X with
  | nil =>
    intro j start out _
    exact ⟨start, by simp [hufPayload, hufScanLoop]⟩
  | cons x X ih =>
    intro j start out hcap
    simp only [List.length_cons] at hcap
    have hx := hX x (by simp)
    have hne : t.bits x ≠ [] := by
      have := hpos _ hx
      intro h
      simp [h] at this
    obtain ⟨start', h'⟩ := ih (fun y hy => hX y (by simp [hy])) (j := j + (t.bits x).length)
      (start := j + (t.bits x).length) (out := out ++ [x]) (by simp; omega)
    refine ⟨start', ?_⟩
    have := hufScanLoop_codeword hT (cap := cap) hx (t.bits x) (pre := []) (start := start) (j := j) (out := out)
      (rest := hufPayload t X) hne rfl (by omega)
    simp only [hufPayload, List.flatMap_cons] at this h' ⊢
    rw [this, h']
    simp

/-! ### The serialized table -/

theorem serializeEntry_length (s : Byte) (bits : List Bool) :
    (serializeEntry s bits).length = 2 + ceilDiv bits.length 8 := by
  simp [serializeEntry, pack_length]
  omega

/-- R287, R288: the parser's entry loop on serialized entries. -/
theorem parseEntries_serialized (es : List Entry) (hes : ∀ e ∈ es, 1 ≤ e.2.length ∧ e.2.length ≤ 255) :
    ∀ (A B : List Byte),
      parseEntries (A ++ (es.flatMap fun e => serializeEntry e.1 e.2) ++ B) es.length A.length =
        .ok (es, A.length + (es.flatMap fun e => serializeEntry e.1 e.2).length) := by
  induction es with
  | nil => intro A B; simp [parseEntries]
  | cons e es ih =>
    intro A B
    have ⟨h1, h2⟩ := hes e (by simp)
    have hlen := serializeEntry_length e.1 e.2
    have hF : A ++ ((e :: es).flatMap fun e => serializeEntry e.1 e.2) ++ B =
        (A ++ serializeEntry e.1 e.2) ++ (es.flatMap fun e => serializeEntry e.1 e.2) ++ B := by
      simp [List.append_assoc]
    have hih := ih (fun f hf => hes f (by simp [hf])) (A ++ serializeEntry e.1 e.2) B
    have hsym : (A ++ ((e :: es).flatMap fun e => serializeEntry e.1 e.2) ++ B).getD A.length 0 = e.1 := by
      simp [List.getD_eq_getElem?_getD, serializeEntry]
    have hLen : byteAt (A ++ ((e :: es).flatMap fun e => serializeEntry e.1 e.2) ++ B) (A.length + 1) = e.2.length := by
      rw [List.append_assoc, byteAt_append_right (by omega)]
      simp [serializeEntry, byteAt]
      omega
    have hcw : ((A ++ ((e :: es).flatMap fun e => serializeEntry e.1 e.2) ++ B).drop (A.length + 2)).take
        (ceilDiv e.2.length 8) = pack e.2 := by
      rw [List.append_assoc, ← List.drop_drop, List.drop_left]
      simp [serializeEntry, List.append_assoc]
      rw [← pack_length, List.take_left]
    have hq : A.length + 2 + ceilDiv e.2.length 8 = (A ++ serializeEntry e.1 e.2).length := by
      simp [hlen]
      omega
    have hl1 : ¬ (A ++ ((e :: es).flatMap fun e => serializeEntry e.1 e.2) ++ B).length < A.length + 2 := by
      simp [hlen]
      omega
    have hl2 : ¬ (A ++ ((e :: es).flatMap fun e => serializeEntry e.1 e.2) ++ B).length <
        A.length + 2 + ceilDiv e.2.length 8 := by
      simp [hlen]
      omega
    simp only [List.length_cons, parseEntries]
    rw [if_neg hl1, hLen, if_neg (by omega), if_neg hl2, hsym, hcw, unpack_pack, hq, hF, hih]
    simp [hlen]
    omega

/-- The table as the frame lists it: one entry per distinct symbol, in ascending order (R134). -/
def frameTable (X : List Byte) : List Entry := (distinctSyms X).map fun s => (s, (hufBuild X).code.bits s)

theorem mem_builtEntries_of {X : List Byte} (h : BuiltOk X) {s : Byte} (hs : s ∈ X) :
    (s, (hufBuild X).code.bits s) ∈ builtEntries X := by
  obtain ⟨e, he, rfl⟩ := List.mem_map.mp (h.mem.mpr hs)
  rw [hufBuild_code, codeTable_bits_mem h.table.syms he]
  exact he

theorem frameTable_perm {X : List Byte} (h : BuiltOk X) : (frameTable X).Perm (builtEntries X) := by
  have := (h.syms.map fun s => (s, (hufBuild X).code.bits s)).symm
  refine this.trans (List.Perm.of_eq ?_)
  rw [List.map_map]
  conv_rhs => rw [← List.map_id (builtEntries X)]
  refine List.map_congr_left ?_
  intro e he
  simp only [Function.comp, id]
  rw [hufBuild_code, codeTable_bits_mem h.table.syms he]

theorem frameTable_ok {X : List Byte} (h : BuiltOk X) : TableOk (frameTable X) := by
  have hp := frameTable_perm h
  refine ⟨?_, ?_⟩
  · simpa [frameTable, List.map_map, Function.comp_def] using distinctSyms_nodup X
  · exact (List.Perm.pairwise_iff (fun hab => ⟨hab.2, hab.1⟩) (hp.map Prod.snd)).mpr h.free

theorem frameTable_bounds {X : List Byte} (h : BuiltOk X) : ∀ e ∈ frameTable X, 1 ≤ e.2.length ∧ e.2.length ≤ 255 :=
  fun _ he =>
    have := (frameTable_perm h).mem_iff.mp he
    ⟨h.pos _ this, h.le_255 this⟩

theorem flatMap_filter_if {α β : Type} (p : α → Bool) (f : α → List β) (l : List α) :
    (l.filter p).flatMap f = l.flatMap fun a => if p a then f a else [] := by
  induction l with
  | nil => rfl
  | cons a l ih =>
    rw [List.filter_cons, List.flatMap_cons, ← ih]
    cases p a <;> simp

/-- R287: the serialized table of an input. -/
theorem serializeTable_eq {X : List Byte} (h : BuiltOk X) (c : Nat) :
    serializeTable (hufBuild X).code c = be16 c ++ (frameTable X).flatMap fun e => serializeEntry e.1 e.2 := by
  rw [serializeTable, frameTable, distinctSyms]
  congr 1
  rw [List.map_map, List.flatMap_map, flatMap_filter_if]
  simp only [List.flatMap]
  congr 1
  refine List.map_congr_left ?_
  intro n hn
  have hn' := List.mem_range.mp hn
  have hcount : (X.countP fun x => x.toNat == n) = X.count (BitVec.ofNat 8 n) := by
    rw [← countP_toNat]
    simp [Nat.mod_eq_of_lt hn']
  simp only [hcount]
  by_cases hm : BitVec.ofNat 8 n ∈ X
  · have h1 : 0 < ((hufBuild X).code.bits (BitVec.ofNat 8 n)).length := h.pos _ (mem_builtEntries_of h hm)
    have h2 : 0 < X.count (BitVec.ofNat 8 n) := List.count_pos_iff.mpr hm
    simp [h1, h2]
  · have h1 : (hufBuild X).code.bits (BitVec.ofNat 8 n) = [] := by
      rw [hufBuild_code]
      exact codeTable_bits_not_mem fun hh => hm (h.mem.mp hh)
    have h2 : ¬ 0 < X.count (BitVec.ofNat 8 n) := fun hh => hm (List.count_pos_iff.mp hh)
    simp [h1, h2]

/-- R287, R288: the parser on a frame that begins with the table of an input. -/
theorem parseTable_serialized {X : List Byte} (h : BuiltOk X) (R : List Byte) :
    parseTable (serializeTable (hufBuild X).code (hufBuild X).nSym ++ R) =
      .ok ((hufBuild X).nSym, frameTable X, (serializeTable (hufBuild X).code (hufBuild X).nSym).length) := by
  have hn : (hufBuild X).nSym = (frameTable X).length := by simp [hufBuild_nSym, frameTable]
  have hle : (hufBuild X).nSym ≤ 256 := by
    rw [hufBuild_nSym]
    exact distinctSyms_length_le X
  have hpe := parseEntries_serialized (frameTable X) (frameTable_bounds h) (be16 (hufBuild X).nSym) R
  rw [← serializeTable_eq h, ← hn, be16_length] at hpe
  have hread : be16Read (serializeTable (hufBuild X).code (hufBuild X).nSym ++ R) 0 = (hufBuild X).nSym := by
    rw [serializeTable_eq h, List.append_assoc]
    exact be16Read_be16 (by omega) _
  have hlen : 2 ≤ (serializeTable (hufBuild X).code (hufBuild X).nSym ++ R).length := by
    rw [serializeTable_eq h]
    simp [be16_length]
  unfold parseTable
  rw [if_neg (by omega)]
  simp only [hread]
  rw [if_neg (by omega), hpe]
  simp [serializeTable_eq h, be16_length]

/-! ### The frame -/

/-- R133, R243: the length of the frame. -/
theorem hufFrame_length {X : List Byte} (h : BuiltOk X) (payload : List Bool) :
    (hufFrame (hufBuild X).code (hufBuild X).nSym payload).length =
      2 + ((frameTable X).map fun e => 2 + ceilDiv e.2.length 8).sum + 5 + ceilDiv payload.length 8 := by
  simp only [hufFrame, serializeTable_eq h, List.length_append, be16_length, be32_length, pack_length,
    List.length_singleton, List.length_flatMap, serializeEntry_length]

/-- R249, R251: the frame of an input is at most HUF_BOUND of its length. -/
theorem hufFrame_le_bound {X : List Byte} (hX : X ≠ []) :
    (hufFrame (hufBuild X).code (hufBuild X).nSym (hufPayload (hufBuild X).code X)).length ≤ Config.hufBound X.length := by
  have h := builtOk hX
  have hX0 : X.length ≠ 0 := by simpa using hX
  rw [hufFrame_length h, Config.hufBound, if_neg hX0]
  have hB := hufPayload_le hX
  have hsum : ((frameTable X).map fun e => 2 + ceilDiv e.2.length 8).sum ≤ (frameTable X).length * 34 := by
    have := frameTable_bounds h
    generalize frameTable X = T at this
    induction T with
    | nil => simp
    | cons e T ih =>
      have h1 := this e (by simp)
      have h2 := ih fun f hf => this f (by simp [hf])
      simp only [List.map_cons, List.sum_cons, List.length_cons, ceilDiv_eight] at h2 ⊢
      omega
  have hlen : (frameTable X).length ≤ 256 := by
    rw [frameTable, List.length_map]
    exact distinctSyms_length_le X
  rw [ceilDiv_eight]
  have : (frameTable X).length * 34 ≤ 256 * 34 := Nat.mul_le_mul_right _ hlen
  omega

/-- R259: the trailer parse on a frame the encoder wrote. -/
theorem parseTrailer_frame (A : List Byte) {payload : List Bool} (hB : payload.length < 2 ^ 32) :
    parseTrailer (A ++ be32 payload.length ++ [BitVec.ofNat 8 (padLen payload.length)] ++ pack payload) A.length =
      .ok (payload.length, padLen payload.length) := by
  have hpad := padLen_lt payload.length
  have h1 : be32Read (A ++ be32 payload.length ++ [BitVec.ofNat 8 (padLen payload.length)] ++ pack payload) A.length =
      payload.length := by
    rw [List.append_assoc]
    exact be32Read_be32 hB A _
  have h2 : byteAt (A ++ be32 payload.length ++ [BitVec.ofNat 8 (padLen payload.length)] ++ pack payload) (A.length + 4) =
      padLen payload.length := by
    rw [byteAt_append_left (by simp [be32_length]), byteAt_append_right (by simp [be32_length])]
    simp [be32_length, byteAt]
    omega
  have hlen : (A ++ be32 payload.length ++ [BitVec.ofNat 8 (padLen payload.length)] ++ pack payload).length =
      A.length + 5 + ceilDiv payload.length 8 := by
    simp [be32_length, pack_length]
    omega
  unfold parseTrailer
  rw [if_neg (by omega)]
  simp only [h1, h2]
  rw [if_neg (by simp), if_neg (by omega)]

/-! ### HUF_ENCODE and the round trip -/

/-- R241: HUF_ENCODE of a non-empty input whose frame fits. -/
theorem hufEncode_ok {cfg : Config} {X : List Byte} (hX : X ≠ [])
    (h : (hufFrame (hufBuild X).code (hufBuild X).nSym (hufPayload (hufBuild X).code X)).length ≤ cfg.outCap) :
    ∃ hid, hufEncode cfg X =
      .ok ({ out := hufFrame (hufBuild X).code (hufBuild X).nSym (hufPayload (hufBuild X).code X)
             hufSymbols := (hufBuild X).nSym
             hufBitlen := (hufPayload (hufBuild X).code X).length
             hufPad := padLen (hufPayload (hufBuild X).code X).length }, hid) := by
  have hX0 : X.length ≠ 0 := by simpa using hX
  simp only [hufEncode]
  rw [if_neg hX0, if_neg (by omega)]
  exact ⟨_, rfl⟩

/-- R241, R317: HUF_ENCODE of an input whose frame does not fit. -/
theorem hufEncode_capOut {cfg : Config} {X : List Byte} (hX : X ≠ [])
    (h : cfg.outCap < (hufFrame (hufBuild X).code (hufBuild X).nSym (hufPayload (hufBuild X).code X)).length) :
    hufEncode cfg X = .error (Raise.capacity .capOut) := by
  have hX0 : X.length ≠ 0 := by simpa using hX
  simp only [hufEncode]
  rw [if_neg hX0, if_pos h]

/-- R266: HUF_DECODE of the frame of an input. -/
theorem hufDecode_hufFrame {cfg : Config} {X : List Byte} (hX : X ≠ []) (hlen : X.length < 2 ^ 29)
    (hcap : X.length ≤ cfg.outCap) :
    ∃ hid, hufDecode cfg (hufFrame (hufBuild X).code (hufBuild X).nSym (hufPayload (hufBuild X).code X)) =
      .ok ({ out := X
             hufSymbols := (hufBuild X).nSym
             hufBitlen := (hufPayload (hufBuild X).code X).length
             hufPad := padLen (hufPayload (hufBuild X).code X).length }, hid) := by
  have h := builtOk hX
  have hT := frameTable_ok h
  have hB := hufPayload_le hX
  set payload := hufPayload (hufBuild X).code X with hpay
  set tab := serializeTable (hufBuild X).code (hufBuild X).nSym with htab
  have hF0 : (hufFrame (hufBuild X).code (hufBuild X).nSym payload).length ≠ 0 := by
    rw [hufFrame_length h]
    omega
  have hparse := parseTable_serialized h (be32 payload.length ++ [BitVec.ofNat 8 (padLen payload.length)] ++ pack payload)
  rw [← htab, ← List.append_assoc, ← List.append_assoc] at hparse
  have htrail := parseTrailer_frame tab (payload := payload) (by omega)
  have hdrop : (tab ++ be32 payload.length ++ [BitVec.ofNat 8 (padLen payload.length)] ++ pack payload).drop
      (tab.length + 5) = pack payload := by
    rw [List.append_assoc, List.append_assoc, ← List.drop_drop, List.drop_left]
    simp [be32]
  obtain ⟨start, hscan⟩ := hufScanLoop_payload hT (fun e he => (frameTable_bounds h e he).1) (cap := cfg.outCap)
    (t := (hufBuild X).code) X (fun x hx => (frameTable_perm h).mem_iff.mpr (mem_builtEntries_of h hx))
    (j := 0) (start := 0) (out := []) (by simpa using hcap)
  rw [← hpay] at hscan
  unfold hufDecode
  rw [if_neg hF0]
  simp only [hufFrame] at hparse ⊢
  rw [← htab, hparse]
  simp only [hufDecodeBody]
  rw [(uniqueSymbols_iff _).mpr hT.syms, (prefixFree_iff _).mpr hT.free, htrail]
  simp only [Bool.not_true, Bool.false_eq_true, if_false, hdrop, unpack_pack, hufScan, HufScan.init, hscan,
    List.length_nil, if_true, List.nil_append]
  exact ⟨_, rfl⟩

end Sys2Proof.Machine
end

