-- ==== Sys2Proof/Laws/Lzw.lean ====
section
/-! SUPPORT. What the LZW engine computes (40_lzw.md): the dictionary, the codes of the encoder, and the code loop of the
decoder on them. -/

namespace Sys2Proof.Machine

/-! ### The dictionary -/

/-- Every prefix is a code below its entry's own code (R57). -/
def DictWf : List DictEntry → Prop
  | [] => True
  | e :: es => e.pre < 256 + es.length ∧ DictWf es

theorem strIn_cons_lt {e : DictEntry} {es : List DictEntry} {k : Nat} (h : k < 256 + es.length) :
    strIn (e :: es) k = strIn es k := by
  simp [strIn, Nat.ne_of_lt h]

theorem strIn_cons_eq (e : DictEntry) (es : List DictEntry) :
    strIn (e :: es) (256 + es.length) = strIn es e.pre ++ [e.suf] := by
  simp [strIn]

theorem strIn_ne_nil {es : List DictEntry} {k : Nat} (h : k < 256 + es.length) : strIn es k ≠ [] := by
  induction es generalizing k with
  | nil => simp at h; simp [strIn, h]
  | cons e es ih =>
    by_cases hk : k = 256 + es.length
    · subst hk
      simp [strIn_cons_eq]
    · have : k < 256 + es.length := by simp at h; omega
      rw [strIn_cons_lt this]
      exact ih this

theorem strIn_seeded {es : List DictEntry} {k : Nat} (h : k < 256) : strIn es k = [BitVec.ofNat 8 k] := by
  induction es with
  | nil => simp [strIn, h]
  | cons e es ih => rw [strIn_cons_lt (by omega), ih]

theorem strIn_byte (es : List DictEntry) (c : Byte) : strIn es c.toNat = [c] := by
  rw [strIn_seeded c.isLt]
  simp

/-- R165: what `find` answers is a code at or above 256, above the code it extends. -/
theorem findIn_range {p : Nat} {c : Byte} {es : List DictEntry} {k : Nat} (wf : DictWf es)
    (h : findIn p c es = some k) : 256 ≤ k ∧ k < 256 + es.length ∧ p < k := by
  induction es with
  | nil => simp [findIn] at h
  | cons e es ih =>
    obtain ⟨hpre, wf⟩ := wf
    simp only [findIn] at h
    split at h
    · rename_i hpc
      obtain ⟨rfl, rfl⟩ := hpc
      cases h
      simp [hpre]
    · obtain ⟨h1, h2, h3⟩ := ih wf h
      exact ⟨h1, by simp; omega, h3⟩

/-- R165: the string of the code `find` answers is the extended match. -/
theorem findIn_str {p : Nat} {c : Byte} {es : List DictEntry} {k : Nat} (wf : DictWf es)
    (h : findIn p c es = some k) : strIn es k = strIn es p ++ [c] := by
  induction es with
  | nil => simp [findIn] at h
  | cons e es ih =>
    obtain ⟨hpre, wf⟩ := wf
    simp only [findIn] at h
    split at h
    · rename_i hpc
      obtain ⟨rfl, rfl⟩ := hpc
      cases h
      rw [strIn_cons_eq, strIn_cons_lt hpre]
    · obtain ⟨_, h2, h3⟩ := findIn_range wf h
      rw [strIn_cons_lt h2, strIn_cons_lt (by omega), ih wf h]

/-! ### A dictionary of bounded size as a cut of the insert history

Both sides make the same inserts (R185). A dictionary of size `n` holds the oldest `n - 256` of them (R163). -/

/-- The entries a dictionary of size `n` holds of the insert history `L`, newest first. -/
def cut (n : Nat) (L : List DictEntry) : List DictEntry := L.drop (L.length - (n - 256))

theorem cut_nil (n : Nat) : cut n [] = [] := by simp [cut]

theorem cut_length (n : Nat) (L : List DictEntry) : (cut n L).length = min L.length (n - 256) := by
  simp [cut]
  omega

theorem cut_eq {n : Nat} {L : List DictEntry} (h : L.length ≤ n - 256) : cut n L = L := by
  simp [cut, Nat.sub_eq_zero_of_le h]

theorem cut_cons {n : Nat} (e : DictEntry) {L : List DictEntry} (h : n - 256 ≤ L.length) :
    cut n (e :: L) = cut n L := by
  simp only [cut, List.length_cons]
  rw [Nat.sub_add_comm h, List.drop_succ_cons]

/-- R162, R163: one insert, on the cut history. -/
theorem insert_cut (n : Nat) (L : List DictEntry) (p : Nat) (c : Byte) :
    (Dict.insert n { entries := cut n L } p c).entries = cut n ({ pre := p, suf := c } :: L) := by
  simp only [Dict.insert, Dict.nextCode, cut_length]
  split
  · have hL : L.length < n - 256 := by omega
    rw [cut_eq (Nat.le_of_lt hL), cut_eq (by simp; omega)]
  · rw [cut_cons _ (by omega)]

theorem strIn_drop {L : List DictEntry} (m : Nat) {k : Nat} (h : k < 256 + (L.drop m).length) :
    strIn (L.drop m) k = strIn L k := by
  induction L generalizing m with
  | nil => simp
  | cons e L ih =>
    cases m with
    | zero => rfl
    | succ m =>
      rw [List.drop_succ_cons] at h ⊢
      have : k < 256 + L.length := by simp at h; omega
      rw [ih m h, strIn_cons_lt this]

theorem strIn_cut {n : Nat} {L : List DictEntry} {k : Nat} (h : k < 256 + (cut n L).length) :
    strIn (cut n L) k = strIn L k :=
  strIn_drop _ h

/-! ### The encoder's codes -/

/-- The codes the scan still emits from dictionary `d` and current match `w`, for the rest `xs` of the input; the final
match included (R168). -/
def lzwEmit (n : Nat) : Dict → Nat → List Byte → List Nat
  | _, w, [] => [w]
  | d, w, c :: cs =>
    match d.find w c with
    | some k => lzwEmit n d k cs
    | none => w :: lzwEmit n (d.insert n w c) c.toNat cs

theorem lzwScan_emit (n : Nat) (e : LzwEnc) (xs : List Byte) :
    (xs.foldl (lzwEncStep n) e).codes ++ [(xs.foldl (lzwEncStep n) e).w] = e.codes ++ lzwEmit n e.dict e.w xs := by
  induction xs generalizing e with
  | nil => rfl
  | cons c cs ih =>
    rw [List.foldl_cons, ih, lzwEmit, lzwEncStep]
    cases e.dict.find e.w c <;> simp

/-- R168: the codes of a non-empty input. -/
theorem lzwCodes_cons (n : Nat) (x : Byte) (xs : List Byte) :
    lzwCodes n (x :: xs) = lzwEmit n Dict.init x.toNat xs := by
  have := lzwScan_emit n { dict := Dict.init, w := x.toNat, codes := [] } xs
  simpa [lzwCodes, lzwScan] using this

/-- A dictionary as an encoder of size `n` builds it: well formed, at most `n` codes, the current match among them. -/
structure EncOk (n : Nat) (d : Dict) (w : Nat) : Prop where
  wf : DictWf d.entries
  size : d.nextCode ≤ n
  known : w < d.nextCode

theorem EncOk.init {n : Nat} (h : 256 ≤ n) (x : Byte) : EncOk n Dict.init x.toNat :=
  { wf := trivial
    size := by simpa [Dict.nextCode, Dict.init] using h
    known := by have := x.isLt; simp only [Dict.nextCode, Dict.init, List.length_nil]; omega }

theorem EncOk.found {n : Nat} {d : Dict} {w k : Nat} {c : Byte} (h : EncOk n d w) (hf : d.find w c = some k) :
    EncOk n d k :=
  { wf := h.wf, size := h.size, known := (findIn_range h.wf hf).2.1 }

theorem EncOk.inserted {n : Nat} {d : Dict} {w : Nat} (h : EncOk n d w) (c : Byte) :
    EncOk n (d.insert n w c) c.toNat := by
  have hc := c.isLt
  have hs := h.size
  refine ⟨?_, ?_, ?_⟩
  · rw [Dict.insert]
    split
    · exact ⟨h.known, h.wf⟩
    · exact h.wf
  · rw [Dict.insert]
    split
    · simp only [Dict.nextCode, List.length_cons] at *
      omega
    · exact hs
  · simp only [Dict.nextCode]
    omega

/-- R177, R173: every code emitted is below DICT_SIZE, and below 256 plus the number of inserts. -/
theorem lzwEmit_lt {n : Nat} {d : Dict} {w : Nat} {xs : List Byte} (h : EncOk n d w) :
    ∀ k ∈ lzwEmit n d w xs, k < n ∧ k < d.nextCode + xs.length := by
  induction xs generalizing d w with
  | nil =>
    intro k hk
    have h1 := h.known
    have h2 := h.size
    simp only [lzwEmit, List.mem_singleton] at hk
    subst hk
    simp only [List.length_nil]
    omega
  | cons c cs ih =>
    intro k hk
    rw [lzwEmit] at hk
    simp only [List.length_cons]
    cases hf : d.find w c with
    | some j =>
      rw [hf] at hk
      have := ih (h.found hf) k hk
      omega
    | none =>
      rw [hf] at hk
      rcases List.mem_cons.mp hk with rfl | hk
      · have h1 := h.known
        have h2 := h.size
        omega
      · have := ih (h.inserted c) k hk
        have hn : (d.insert n w c).nextCode ≤ d.nextCode + 1 := by
          rw [Dict.insert]
          split <;> simp [Dict.nextCode, Nat.add_assoc]
        omega

theorem lzwEmit_length (n : Nat) (d : Dict) (w : Nat) (xs : List Byte) :
    1 ≤ (lzwEmit n d w xs).length ∧ (lzwEmit n d w xs).length ≤ xs.length + 1 := by
  induction xs generalizing d w with
  | nil => simp [lzwEmit]
  | cons c cs ih =>
    rw [lzwEmit]
    cases d.find w c with
    | some k =>
      have := ih d k
      simp only [List.length_cons]
      omega
    | none =>
      have := ih (d.insert n w c) c.toNat
      simp only [List.length_cons]
      omega

/-- R173: at least one code, and at most one per input byte. -/
theorem lzwCodes_length (n : Nat) (x : Byte) (xs : List Byte) :
    1 ≤ (lzwCodes n (x :: xs)).length ∧ (lzwCodes n (x :: xs)).length ≤ (x :: xs).length := by
  rw [lzwCodes_cons]
  exact lzwEmit_length _ _ _ _

/-- R173, R177: every code is below DICT_SIZE and below 256 + len(X) - 1 or a byte. -/
theorem lzwCodes_lt {n : Nat} (h : 256 ≤ n) (x : Byte) (xs : List Byte) :
    ∀ k ∈ lzwCodes n (x :: xs), k < n ∧ k < 256 + xs.length := by
  rw [lzwCodes_cons]
  exact lzwEmit_lt (EncOk.init h x)

/-! ### The decoder on an encoder's codes -/

/-- R185: how the two dictionaries agree when the decoder, of size `m`, has read the codes the encoder, of size `n`, has
emitted: both are cuts of one insert history, the encoder one insert ahead. -/
inductive Synced (n m : Nat) (d : Dict) (w : Nat) (e : LzwDec) : Prop
  | start (hd : d = Dict.init) (he : e.dict = Dict.init) (hp : e.prev = none)
  | going (L : List DictEntry) (pk : Nat) (prev : List Byte)
      (hd : d.entries = cut n ({ pre := pk, suf := (d.str w).headD 0 } :: L)) (he : e.dict.entries = cut m L)
      (hp : e.prev = some (pk, prev)) (hwf : DictWf ({ pre := pk, suf := (d.str w).headD 0 } :: L))
      (hprev : prev = strIn L pk)

theorem headD_append {xs ys : List Byte} (h : xs ≠ []) : (xs ++ ys).headD 0 = xs.headD 0 := by
  cases xs with
  | nil => exact absurd rfl h
  | cons x xs => rfl

/-- A match that is only extended keeps the dictionaries in step: its string begins as before. -/
theorem Synced.extended {n m : Nat} {d : Dict} {w k : Nat} {c : Byte} {e : LzwDec} (hd : EncOk n d w)
    (h : Synced n m d w e) (hf : d.find w c = some k) : Synced n m d k e := by
  have hstr : (d.str k).headD 0 = (d.str w).headD 0 := by
    rw [Dict.str, findIn_str hd.wf hf]
    exact headD_append (strIn_ne_nil hd.known)
  cases h with
  | start hd he hp => exact .start hd he hp
  | going L pk prev hd he hp hwf hprev => exact .going L pk prev (by rw [hstr, hd]) he hp (by rwa [hstr]) hprev

/-- R182 to R185: the decoder on the code of the encoder's match. It finds the match's string and makes the encoder's
previous insert, or, only where its dictionary is the smaller one, it finds the code undecodable. -/
theorem Synced.decodes {n m : Nat} {d : Dict} {w : Nat} {e : LzwDec} (hn : 256 ≤ n) (hm : 256 ≤ m) (hd : EncOk n d w)
    (h : Synced n m d w e) :
    (lzwEntry m e w = some (d.str w) ∧
      ∀ c out, Synced n m (d.insert n w c) c.toNat
        { dict := lzwLearn m e (d.str w), prev := some (w, d.str w), out := out }) ∨
    (m < n ∧ lzwEntry m e w = none) := by
  have hnew : ∀ c : Byte, ((d.insert n w c).str c.toNat).headD 0 = c := fun c => by rw [Dict.str, strIn_byte]; rfl
  cases h with
  | start hd0 he hp =>
    subst hd0
    have hw : w < 256 := hd.known
    left
    constructor
    · simp [lzwEntry, hp, Dict.str, Dict.init, strIn, hw]
    · intro c out
      refine .going [] w _ ?_ ?_ rfl ?_ rfl
      · rw [hnew c, ← insert_cut, cut_nil]
        rfl
      · simp [lzwLearn, hp, he, Dict.init, cut_nil]
      · exact ⟨by simpa using hw, trivial⟩
  | going L pk prev hde hee hp hwf hprev =>
    have hlenD : d.nextCode = 256 + min (L.length + 1) (n - 256) := by
      rw [Dict.nextCode, hde, cut_length]
      rfl
    have hlenE : e.dict.nextCode = 256 + min L.length (m - 256) := by rw [Dict.nextCode, hee, cut_length]
    have hw := hd.known
    have hstr : d.str w = strIn ({ pre := pk, suf := (d.str w).headD 0 } :: L) w := by
      conv_lhs => rw [Dict.str, hde]
      exact strIn_cut (by rw [cut_length]; simp only [List.length_cons]; omega)
    have hsync : ∀ c out, Synced n m (d.insert n w c) c.toNat
        { dict := lzwLearn m e (d.str w), prev := some (w, d.str w), out := out } := by
      intro c out
      refine .going ({ pre := pk, suf := (d.str w).headD 0 } :: L) w _ ?_ ?_ rfl ?_ hstr
      · rw [hnew c, ← insert_cut, ← hde]
      · simp only [lzwLearn, hp]
        rw [← insert_cut, ← hee]
      · exact ⟨by simp only [List.length_cons]; omega, hwf⟩
    by_cases h1 : w < e.dict.nextCode
    · left
      refine ⟨?_, hsync⟩
      simp only [lzwEntry, hp, h1, if_true]
      rw [Dict.str, hee, strIn_cut (by rw [cut_length]; omega), ← strIn_cons_lt (e := { pre := pk, suf := (d.str w).headD 0 })
        (by omega), ← hstr]
    · by_cases h2 : w = e.dict.nextCode ∧ e.dict.nextCode < m
      · left
        refine ⟨?_, hsync⟩
        have hwL : w = 256 + L.length := by omega
        have hne : strIn L pk ≠ [] := strIn_ne_nil hwf.1
        have hval : d.str w = strIn L pk ++ [(d.str w).headD 0] := by
          conv_lhs => rw [hstr, hwL, strIn_cons_eq]
          rw [← hwL]
        have hhead : (d.str w).headD 0 = (strIn L pk).headD 0 := by
          conv_lhs => rw [hval]
          exact headD_append hne
        have hent : lzwEntry m e w = some (prev ++ [prev.headD 0]) := by
          simp only [lzwEntry, hp]
          rw [if_neg h1, if_pos h2]
        rw [hent, hprev, hval, hhead]
      · right
        refine ⟨by omega, ?_⟩
        simp only [lzwEntry, hp, h1, if_false, h2]

/-- R191, R192: the decoder's code loop on the codes the encoder emits from here on. It rebuilds the encoder's input; a
decoder of a smaller dictionary may instead find a code undecodable. -/
theorem lzwDecLoop_emit {n : Nat} {cfg : Config} (hn : 256 ≤ n) (hm : 256 ≤ cfg.dictSize) (xs : List Byte) {d : Dict}
    {w : Nat} {e : LzwDec} (i : Nat) (hd : EncOk n d w) (h : Synced n cfg.dictSize d w e)
    (hcap : e.out.length + (d.str w).length + xs.length ≤ cfg.outCap) :
    (∃ e', lzwDecLoop cfg i (lzwEmit n d w xs) e = .ok e' ∧ e'.out = e.out ++ d.str w ++ xs) ∨
    (cfg.dictSize < n ∧ ∃ j, lzwDecLoop cfg i (lzwEmit n d w xs) e = .error (Raise.malformed .lzwBadCode j)) := by
  induction xs generalizing d w e i with
  | nil =>
    rw [lzwEmit]
    rcases h.decodes hn hm hd with ⟨he, _⟩ | ⟨hlt, he⟩
    · left
      simp only [List.length_nil] at hcap
      simp [lzwDecLoop, lzwDecStep, he, Nat.not_lt.mpr (by omega : e.out.length + (d.str w).length ≤ cfg.outCap)]
    · right
      exact ⟨hlt, i, by simp [lzwDecLoop, lzwDecStep, he]⟩
  | cons c cs ih =>
    simp only [List.length_cons] at hcap
    rw [lzwEmit]
    cases hf : d.find w c with
    | some k =>
      have hstr : d.str k = d.str w ++ [c] := findIn_str hd.wf hf
      have := ih (d := d) (w := k) (e := e) i (hd.found hf) (h.extended hd hf) (by rw [hstr]; simp; omega)
      rw [hstr] at this
      simpa using this
    | none =>
      rcases h.decodes hn hm hd with ⟨he, hsync⟩ | ⟨hlt, he⟩
      · have hb : (d.insert n w c).str c.toNat = [c] := strIn_byte _ _
        have := ih (d := d.insert n w c) (w := c.toNat)
          (e := { dict := lzwLearn cfg.dictSize e (d.str w), prev := some (w, d.str w), out := e.out ++ d.str w }) (i + 1)
          (hd.inserted c) (hsync c _) (by rw [hb]; simp; omega)
        rw [hb] at this
        simpa [lzwDecLoop, lzwDecStep, he,
          Nat.not_lt.mpr (by omega : e.out.length + (d.str w).length ≤ cfg.outCap)] using this
      · right
        exact ⟨hlt, i, by simp [lzwDecLoop, lzwDecStep, he]⟩

/-- R191, R192: the code loop on all the codes of an input. -/
theorem lzwDecLoop_lzwCodes {n : Nat} {cfg : Config} (hn : 256 ≤ n) (hm : 256 ≤ cfg.dictSize) (x : Byte) (xs : List Byte)
    (hcap : (x :: xs).length ≤ cfg.outCap) :
    (∃ e', lzwDecLoop cfg 0 (lzwCodes n (x :: xs)) LzwDec.init = .ok e' ∧ e'.out = x :: xs) ∨
    (cfg.dictSize < n ∧
      ∃ j, lzwDecLoop cfg 0 (lzwCodes n (x :: xs)) LzwDec.init = .error (Raise.malformed .lzwBadCode j)) := by
  have hb : Dict.init.str x.toNat = [x] := strIn_byte _ _
  have := lzwDecLoop_emit hn hm xs (e := LzwDec.init) 0 (EncOk.init hn x) (.start rfl rfl rfl)
    (by rw [hb]; simp [LzwDec.init] at hcap ⊢; omega)
  rw [hb, ← lzwCodes_cons] at this
  simpa [LzwDec.init] using this

end Sys2Proof.Machine
end

