-- ==== Sys2Proof/Laws/LzwFrame.lean ====
section
/-! SUPPORT. The LZW frame (30_encoding.md R118 to R124): what LZW_ENCODE writes, and that LZW_DECODE parses it back to its
codes. -/

namespace Sys2Proof.Machine

/-! ### The width and the largest code -/

/-- R122: the width is legal. -/
theorem lzwWidth_legal (m : Nat) : legalWidth (lzwWidth m) = true := by
  unfold lzwWidth
  split_ifs <;> rfl

theorem lzwWidth_cases (m : Nat) :
    lzwWidth m = 1 ∨ lzwWidth m = 2 ∨ lzwWidth m = 4 ∨ lzwWidth m = 8 ∨ lzwWidth m = 16 ∨ lzwWidth m = 32 := by
  unfold lzwWidth
  split_ifs <;> simp

/-- R122: the width covers every code below 2^32. -/
theorem lt_two_pow_lzwWidth {m : Nat} (h : m < 2 ^ 32) : m < 2 ^ lzwWidth m := by
  unfold lzwWidth
  split_ifs <;> assumption

theorem lzwWidth_mono {a b : Nat} (h : a ≤ b) : lzwWidth a ≤ lzwWidth b := by
  unfold lzwWidth
  split_ifs <;> omega

theorem foldl_max_spec (l : List Nat) (a : Nat) :
    a ≤ l.foldl max a ∧ (∀ k ∈ l, k ≤ l.foldl max a) ∧ (l.foldl max a = a ∨ l.foldl max a ∈ l) := by
  induction l generalizing a with
  | nil => simp
  | cons k ks ih =>
    obtain ⟨h1, h2, h3⟩ := ih (max a k)
    simp only [List.foldl_cons, List.mem_cons, forall_eq_or_imp]
    refine ⟨by omega, ⟨by omega, h2⟩, ?_⟩
    rcases h3 with h3 | h3
    · rcases Nat.le_total a k with hak | hka
      · right; left; omega
      · left; omega
    · right; right; exact h3

/-- R170: no code is above the largest. -/
theorem le_maxCode {codes : List Nat} {k : Nat} (h : k ∈ codes) : k ≤ maxCode codes := (foldl_max_spec codes 0).2.1 k h

theorem maxCode_lt {codes : List Nat} {n : Nat} (hn : 0 < n) (h : ∀ k ∈ codes, k < n) : maxCode codes < n := by
  rcases (foldl_max_spec codes 0).2.2 with h0 | h0
  · rw [maxCode, h0]
    exact hn
  · exact h _ h0

/-! ### The payload -/

theorem lzwPayload_length (codes : List Nat) (w : Nat) : (lzwPayload codes w).length = codes.length * w := by
  induction codes with
  | nil => simp [lzwPayload]
  | cons c cs ih =>
    simp only [lzwPayload, List.flatMap_cons, List.length_append, bitsOf_length, List.length_cons] at *
    rw [ih]
    ring

/-- R123: cutting the payload into `w`-bit fields gives the codes back. -/
theorem codesOf_payload {codes : List Nat} {w : Nat} (h : ∀ k ∈ codes, k < 2 ^ w) :
    codesOf w codes.length (lzwPayload codes w) = codes := by
  induction codes with
  | nil => rfl
  | cons c cs ih =>
    have hlen : (bitsOf c w).length = w := bitsOf_length c w
    simp only [List.length_cons, codesOf, lzwPayload, List.flatMap_cons]
    rw [List.take_left' hlen, List.drop_left' hlen, value_bitsOf (h c (by simp))]
    congr 1
    exact ih fun k hk => h k (by simp [hk])

/-! ### The frame -/

/-- R124: the length of a frame. -/
theorem lzwFrame_length (codes : List Nat) :
    (lzwFrame codes).length = 5 + ceilDiv (codes.length * lzwWidth (maxCode codes)) 8 := by
  simp [lzwFrame, pack_length, lzwPayload_length, be32_length]
  omega

/-- R181: the parser on a frame the encoder wrote. -/
theorem lzwParse_lzwFrame {codes : List Nat} (hlen : codes.length < 2 ^ 32) (hlt : ∀ k ∈ codes, k < 2 ^ 32) :
    lzwParse (lzwFrame codes) = .ok (lzwWidth (maxCode codes), codes.length, codes) := by
  have hmax : maxCode codes < 2 ^ 32 := maxCode_lt (by norm_num) hlt
  have hcov := lt_two_pow_lzwWidth hmax
  have hF := lzwFrame_length codes
  have hw : byteAt (lzwFrame codes) 0 = lzwWidth (maxCode codes) := by
    rcases lzwWidth_cases (maxCode codes) with h | h | h | h | h | h <;> simp [lzwFrame, byteAt, h]
  have hn : be32Read (lzwFrame codes) 1 = codes.length := by
    have := be32Read_be32 hlen [BitVec.ofNat 8 (lzwWidth (maxCode codes))]
      (pack (lzwPayload codes (lzwWidth (maxCode codes))))
    simpa [lzwFrame] using this
  have hdrop : (lzwFrame codes).drop 5 = pack (lzwPayload codes (lzwWidth (maxCode codes))) := by
    simp [lzwFrame, be32]
  unfold lzwParse
  rw [if_neg (by omega)]
  simp only [hw, lzwWidth_legal, Bool.not_true, Bool.false_eq_true, if_false, hn, hF, ne_eq, not_true_eq_false, hdrop]
  rw [← lzwPayload_length codes, unpack_pack,
    codesOf_payload fun k hk => Nat.lt_of_le_of_lt (le_maxCode hk) hcov]

/-! ### LZW_ENCODE -/

theorem lzwEncode_nil (cfg : Config) : lzwEncode cfg [] = .ok ({ out := [] }, Hidden.init) := rfl

/-- R170: LZW_ENCODE of a non-empty input whose frame fits. -/
theorem lzwEncode_ok {cfg : Config} {X : List Byte} (hX : X ≠ []) (h : (lzwFrame (lzwCodes cfg.dictSize X)).length ≤ cfg.outCap) :
    ∃ hid, lzwEncode cfg X =
      .ok ({ out := lzwFrame (lzwCodes cfg.dictSize X)
             lzwWidth := lzwWidth (maxCode (lzwCodes cfg.dictSize X))
             lzwCount := (lzwCodes cfg.dictSize X).length }, hid) := by
  cases X with
  | nil => exact absurd rfl hX
  | cons x xs =>
    simp only [lzwCodes] at h
    simp only [lzwEncode, lzwCodes]
    rw [if_neg (by omega)]
    exact ⟨_, rfl⟩

/-- R170, R317: LZW_ENCODE of an input whose frame does not fit. -/
theorem lzwEncode_capOut {cfg : Config} {X : List Byte} (hX : X ≠ [])
    (h : cfg.outCap < (lzwFrame (lzwCodes cfg.dictSize X)).length) :
    lzwEncode cfg X = .error (Raise.capacity .capOut) := by
  cases X with
  | nil => exact absurd rfl hX
  | cons x xs =>
    simp only [lzwCodes] at h
    simp only [lzwEncode]
    rw [if_pos (by omega)]

theorem lzwCodes_ne_nil (n : Nat) {X : List Byte} (hX : X ≠ []) :
    1 ≤ (lzwCodes n X).length ∧ (lzwCodes n X).length ≤ X.length := by
  cases X with
  | nil => exact absurd rfl hX
  | cons x xs => exact lzwCodes_length n x xs

theorem lzwCodes_mem_lt {n : Nat} (h : 256 ≤ n) {X : List Byte} (hX : X ≠ []) :
    ∀ k ∈ lzwCodes n X, k < n ∧ k < 256 + (X.length - 1) := by
  cases X with
  | nil => exact absurd rfl hX
  | cons x xs => simpa using lzwCodes_lt h x xs

/-- R174: the frame of an input of at most IN_CAP bytes fits LZW_BOUND(IN_CAP). -/
theorem lzwFrame_le_bound {cfg : Config} (hd : 256 ≤ cfg.dictSize) (hd' : cfg.dictSize ≤ 2 ^ 31) {X : List Byte} (hX : X ≠ []) :
    (lzwFrame (lzwCodes cfg.dictSize X)).length ≤ cfg.lzwBound X.length := by
  have hlen := lzwCodes_ne_nil cfg.dictSize hX
  have hmax : maxCode (lzwCodes cfg.dictSize X) < cfg.dictSize :=
    maxCode_lt (by omega) fun k hk => (lzwCodes_mem_lt hd hX k hk).1
  have hw : lzwWidth (maxCode (lzwCodes cfg.dictSize X)) ≤ cfg.wMax := by
    unfold Config.wMax
    split_ifs
    · exact le_trans (lzwWidth_mono (b := 255) (by omega)) (by decide)
    · exact le_trans (lzwWidth_mono (b := 65535) (by omega)) (by decide)
    · rcases lzwWidth_cases (maxCode (lzwCodes cfg.dictSize X)) with h | h | h | h | h | h <;> omega
  have hX0 : X.length ≠ 0 := by simpa using hX
  rw [lzwFrame_length, Config.lzwBound, if_neg hX0]
  have := Nat.mul_le_mul hlen.2 hw
  rw [ceilDiv_eight, ceilDiv_eight]
  omega

/-! ### The round trip -/

/-- R191, R192: LZW_DECODE of the frame of an encoder whose dictionary has size `n`. -/
theorem lzwDecode_lzwFrame {n : Nat} {cfg : Config} (hn : 256 ≤ n) (hn' : n ≤ 2 ^ 31) (hm : 256 ≤ cfg.dictSize) {X : List Byte}
    (hX : X ≠ []) (hlen : X.length < 2 ^ 32) (hcap : X.length ≤ cfg.outCap) :
    (∃ hid, lzwDecode cfg (lzwFrame (lzwCodes n X)) =
      .ok ({ out := X
             lzwWidth := lzwWidth (maxCode (lzwCodes n X))
             lzwCount := (lzwCodes n X).length }, hid)) ∨
    (cfg.dictSize < n ∧
      ∃ j, lzwDecode cfg (lzwFrame (lzwCodes n X)) = .error (Raise.malformed .lzwBadCode j)) := by
  have hl := lzwCodes_ne_nil n hX
  have hF := lzwFrame_length (lzwCodes n X)
  have hparse := lzwParse_lzwFrame (codes := lzwCodes n X) (by omega)
    fun k hk => by have := (lzwCodes_mem_lt hn hX k hk).1; omega
  unfold lzwDecode
  rw [if_neg (by omega), hparse]
  cases X with
  | nil => exact absurd rfl hX
  | cons x xs =>
    rcases lzwDecLoop_lzwCodes hn hm x xs hcap with ⟨e, he, hout⟩ | ⟨hlt, j, hj⟩
    · left
      simp only [he]
      exact ⟨_, by rw [hout]⟩
    · right
      exact ⟨hlt, j, by simp only [hj]⟩

end Sys2Proof.Machine
end

