-- ==== Sys2Proof/Laws/Memory.lean ====
section
/-! SUPPORT. The buffers: every memory operation keeps the canonical form; a read after a write. -/

namespace Sys2Proof.Machine

namespace Memory

theorem wf_cons {c : Host.Cell} {m : Memory} : wf (c :: m) = true ↔ (∀ d ∈ m, c.1 < d.1) ∧ wf m = true := by
  induction m generalizing c with
  | nil => simp [wf]
  | cons d m ih =>
    obtain ⟨a, b⟩ := c
    obtain ⟨a', b'⟩ := d
    simp only [wf, Bool.and_eq_true, decide_eq_true_eq, List.mem_cons, forall_eq_or_imp]
    constructor
    · rintro ⟨h1, h2⟩
      have h3 := (ih.mp h2).1
      exact ⟨⟨h1, fun d hd => Nat.lt_trans h1 (h3 d hd)⟩, h2⟩
    · rintro ⟨⟨h1, _⟩, h2⟩
      exact ⟨h1, h2⟩

theorem mem_write {m : Memory} {a : Nat} {b : Byte} {c : Host.Cell} (h : c ∈ write m a b) : c = (a, b) ∨ c ∈ m := by
  induction m with
  | nil => simpa [write] using h
  | cons d m ih =>
    obtain ⟨k, v⟩ := d
    rw [write] at h
    split_ifs at h <;> simp only [List.mem_cons] at h ⊢ <;> tauto

/-- A write keeps the canonical form. -/
theorem write_wf {m : Memory} (h : wf m = true) (a : Nat) (b : Byte) : wf (write m a b) = true := by
  induction m with
  | nil => rfl
  | cons d m ih =>
    obtain ⟨k, v⟩ := d
    have ⟨hlt, hm⟩ := wf_cons.mp h
    rw [write]
    split_ifs with h1 h2
    · refine wf_cons.mpr ⟨?_, h⟩
      intro c hc
      rcases List.mem_cons.mp hc with rfl | hc
      · exact h1
      · exact Nat.lt_trans h1 (hlt c hc)
    · subst h2
      exact wf_cons.mpr ⟨hlt, hm⟩
    · refine wf_cons.mpr ⟨?_, ih hm⟩
      intro c hc
      rcases mem_write hc with rfl | hc
      · simp only
        omega
      · exact hlt c hc

/-- R54: a read after a write. -/
theorem read_write {m : Memory} (h : wf m = true) (a : Nat) (b : Byte) (j : Nat) :
    read (write m a b) j = if j = a then some b else read m j := by
  induction m with
  | nil =>
    simp only [write, read]
    split_ifs <;> simp_all
  | cons d m ih =>
    obtain ⟨k, v⟩ := d
    have ⟨hlt, hm⟩ := wf_cons.mp h
    rw [write]
    by_cases h1 : a < k
    · rw [if_pos h1, read]
      by_cases hj : j = a
      · rw [if_pos hj.symm, if_pos hj]
      · rw [if_neg (Ne.symm hj), if_neg hj]
    · rw [if_neg h1]
      by_cases h2 : a = k
      · subst h2
        rw [if_pos rfl, read, read]
        by_cases hj : j = a
        · rw [if_pos hj.symm, if_pos hj]
        · rw [if_neg (Ne.symm hj), if_neg hj, if_neg (Ne.symm hj)]
      · rw [if_neg h2, read, read, ih hm]
        by_cases hj : j = a
        · subst hj
          rw [if_neg (Ne.symm h2), if_pos rfl, if_pos rfl]
        · rw [if_neg hj, if_neg hj]

theorem below_iff {n : Nat} {m : Memory} : below n m = true ↔ ∀ c ∈ m, c.1 < n := by simp [below]

theorem write_below {n : Nat} {m : Memory} (h : below n m = true) {a : Nat} (ha : a < n) (b : Byte) :
    below n (write m a b) = true := by
  rw [below_iff] at h ⊢
  intro c hc
  rcases mem_write hc with rfl | hc
  · exact ha
  · exact h c hc

theorem mem_ofBytesAt {a : Nat} {bs : List Byte} {c : Host.Cell} (h : c ∈ ofBytesAt a bs) :
    a ≤ c.1 ∧ c.1 < a + bs.length := by
  induction bs generalizing a with
  | nil => simp [ofBytesAt] at h
  | cons b bs ih =>
    rcases List.mem_cons.mp h with rfl | h
    · simp
    · have := ih h
      simp only [List.length_cons]
      omega

theorem ofBytesAt_wf (a : Nat) (bs : List Byte) : wf (ofBytesAt a bs) = true := by
  induction bs generalizing a with
  | nil => rfl
  | cons b bs ih =>
    refine wf_cons.mpr ⟨?_, ih (a + 1)⟩
    intro c hc
    have := mem_ofBytesAt hc
    simp only
    omega

theorem ofBytes_wf (bs : List Byte) : wf (ofBytes bs) = true := ofBytesAt_wf 0 bs

theorem read_ofBytesAt (a : Nat) (bs : List Byte) (j : Nat) :
    read (ofBytesAt a bs) j = if j < a then none else bs[j - a]? := by
  induction bs generalizing a with
  | nil => simp [ofBytesAt, read]
  | cons b bs ih =>
    simp only [ofBytesAt, read]
    rw [ih]
    by_cases h : a = j
    · subst h
      simp
    · rw [if_neg h]
      by_cases h2 : j < a
      · rw [if_pos (by omega), if_pos h2]
      · rw [if_neg (by omega), if_neg h2]
        obtain ⟨k, rfl⟩ : ∃ k, j = a + 1 + k := ⟨j - (a + 1), by omega⟩
        rw [show a + 1 + k - (a + 1) = k by omega, show a + 1 + k - a = k + 1 by omega, List.getElem?_cons_succ]

/-- R98, R103: what OBUF lists after a success. -/
theorem read_ofBytes (bs : List Byte) (j : Nat) : read (ofBytes bs) j = bs[j]? := by
  rw [ofBytes, read_ofBytesAt]
  simp

theorem ofBytesAt_addrs (a : Nat) (bs : List Byte) : (ofBytesAt a bs).map Prod.fst = List.range' a bs.length := by
  induction bs generalizing a with
  | nil => rfl
  | cons b bs ih => simp [ofBytesAt, ih, List.range'_succ]

theorem ofBytes_addrs (bs : List Byte) : (ofBytes bs).map Prod.fst = List.range bs.length := by
  rw [ofBytes, ofBytesAt_addrs, List.range_eq_range']

theorem read_none_of_lt {m : Memory} {a : Nat} (h : ∀ c ∈ m, a < c.1) : read m a = none := by
  induction m with
  | nil => rfl
  | cons d m ih =>
    obtain ⟨k, v⟩ := d
    have hk : a < k := h (k, v) (by simp)
    rw [read, if_neg (by omega)]
    exact ih fun c hc => h c (by simp [hc])

/-- Memories in canonical form with the same bytes are the same list. -/
theorem ext {m n : Memory} (hm : wf m = true) (hn : wf n = true) (h : ∀ a, read m a = read n a) : m = n := by
  induction m generalizing n with
  | nil =>
    cases n with
    | nil => rfl
    | cons d n =>
      have := h d.1
      simp [read] at this
  | cons c m ih =>
    obtain ⟨a, b⟩ := c
    cases n with
    | nil =>
      have := h a
      simp [read] at this
    | cons d n =>
      obtain ⟨a', b'⟩ := d
      have ⟨hlt, hm'⟩ := wf_cons.mp hm
      have ⟨hlt', hn'⟩ := wf_cons.mp hn
      have haa : a = a' := by
        have h1 := h a
        have h2 := h a'
        simp only [read, if_true] at h1 h2
        rcases Nat.lt_trichotomy a a' with hlt0 | heq | hlt0
        · rw [if_neg (by omega), read_none_of_lt fun c hc => Nat.lt_trans hlt0 (hlt' c hc)] at h1
          simp at h1
        · exact heq
        · rw [if_neg (by omega), read_none_of_lt fun c hc => Nat.lt_trans hlt0 (hlt c hc)] at h2
          simp at h2
      subst haa
      have hb : b = b' := by
        have := h a
        simpa [read] using this
      subst hb
      congr 1
      refine ih hm' hn' fun x => ?_
      have := h x
      simp only [read] at this
      by_cases hx : a = x
      · subst hx
        rw [read_none_of_lt hlt, read_none_of_lt hlt']
      · simpa [hx] using this

end Memory

end Sys2Proof.Machine
end

