-- ==== Sys2Proof/Laws/State.lean ====
section
/-! SUPPORT. One lemma per field and update of the state, so that no later proof unfolds an update; and what a read or a
write of a register or a buffer leaves. -/

namespace Sys2Proof.Machine

/-! ### State.completeOk -/

@[simp] theorem State.completeOk_cfg (r : Success) (s : State) : (State.completeOk r s).cfg = s.cfg := rfl
@[simp] theorem State.completeOk_seq (r : Success) (s : State) : (State.completeOk r s).seq = .idle := rfl
@[simp] theorem State.completeOk_latchedLen (r : Success) (s : State) :
    (State.completeOk r s).latchedLen = s.latchedLen := rfl
@[simp] theorem State.completeOk_done (r : Success) (s : State) : (State.completeOk r s).done = true := rfl
@[simp] theorem State.completeOk_err (r : Success) (s : State) : (State.completeOk r s).err = .ok := rfl
@[simp] theorem State.completeOk_lastOp (r : Success) (s : State) : (State.completeOk r s).lastOp = s.lastOp := rfl
@[simp] theorem State.completeOk_inLen (r : Success) (s : State) : (State.completeOk r s).inLen = s.inLen := rfl
@[simp] theorem State.completeOk_ibuf (r : Success) (s : State) : (State.completeOk r s).ibuf = s.ibuf := rfl
@[simp] theorem State.completeOk_obuf (r : Success) (s : State) : (State.completeOk r s).obuf = Memory.ofBytes r.out := rfl
@[simp] theorem State.completeOk_hidden (r : Success) (s : State) : (State.completeOk r s).hidden = s.hidden := rfl
@[simp] theorem State.completeOk_host (r : Success) (s : State) : (State.completeOk r s).host = s.host := rfl
@[simp] theorem State.completeOk_seen (r : Success) (s : State) : (State.completeOk r s).seen = s.seen := rfl
@[simp] theorem State.completeOk_schedule (r : Success) (s : State) : (State.completeOk r s).schedule = s.schedule := rfl
@[simp] theorem State.completeOk_draws (r : Success) (s : State) : (State.completeOk r s).draws = s.draws + 1 := rfl
@[simp] theorem State.completeOk_ibufDraw (r : Success) (s : State) : (State.completeOk r s).ibufDraw = s.ibufDraw := rfl
@[simp] theorem State.completeOk_obufDraw (r : Success) (s : State) : (State.completeOk r s).obufDraw = s.draws := rfl
@[simp] theorem State.completeOk_res_outLen (r : Success) (s : State) :
    (State.completeOk r s).res.outLen = BitVec.ofNat 32 r.out.length := rfl
@[simp] theorem State.completeOk_res_lzwWidth (r : Success) (s : State) :
    (State.completeOk r s).res.lzwWidth = BitVec.ofNat 8 r.lzwWidth := rfl
@[simp] theorem State.completeOk_res_lzwCount (r : Success) (s : State) :
    (State.completeOk r s).res.lzwCount = BitVec.ofNat 32 r.lzwCount := rfl
@[simp] theorem State.completeOk_res_hufSymbols (r : Success) (s : State) :
    (State.completeOk r s).res.hufSymbols = BitVec.ofNat 9 r.hufSymbols := rfl
@[simp] theorem State.completeOk_res_hufBitlen (r : Success) (s : State) :
    (State.completeOk r s).res.hufBitlen = BitVec.ofNat 32 r.hufBitlen := rfl
@[simp] theorem State.completeOk_res_hufPad (r : Success) (s : State) :
    (State.completeOk r s).res.hufPad = BitVec.ofNat 3 r.hufPad := rfl
@[simp] theorem State.completeOk_res_errDetail (r : Success) (s : State) :
    (State.completeOk r s).res.errDetail = .none := rfl
@[simp] theorem State.completeOk_res_errPos (r : Success) (s : State) : (State.completeOk r s).res.errPos = 0 := rfl

/-! ### State.completeErr -/

@[simp] theorem State.completeErr_cfg (e : Raise) (s : State) : (State.completeErr e s).cfg = s.cfg := rfl
@[simp] theorem State.completeErr_seq (e : Raise) (s : State) : (State.completeErr e s).seq = .idle := rfl
@[simp] theorem State.completeErr_latchedLen (e : Raise) (s : State) :
    (State.completeErr e s).latchedLen = s.latchedLen := rfl
@[simp] theorem State.completeErr_done (e : Raise) (s : State) : (State.completeErr e s).done = true := rfl
@[simp] theorem State.completeErr_err (e : Raise) (s : State) : (State.completeErr e s).err = e.kind := rfl
@[simp] theorem State.completeErr_lastOp (e : Raise) (s : State) : (State.completeErr e s).lastOp = s.lastOp := rfl
@[simp] theorem State.completeErr_inLen (e : Raise) (s : State) : (State.completeErr e s).inLen = s.inLen := rfl
@[simp] theorem State.completeErr_res (e : Raise) (s : State) :
    (State.completeErr e s).res = { errDetail := e.detail, errPos := BitVec.ofNat 32 e.pos } := rfl
@[simp] theorem State.completeErr_ibuf (e : Raise) (s : State) : (State.completeErr e s).ibuf = s.ibuf := rfl
@[simp] theorem State.completeErr_obuf (e : Raise) (s : State) : (State.completeErr e s).obuf = [] := rfl
@[simp] theorem State.completeErr_hidden (e : Raise) (s : State) : (State.completeErr e s).hidden = s.hidden := rfl
@[simp] theorem State.completeErr_host (e : Raise) (s : State) : (State.completeErr e s).host = s.host := rfl
@[simp] theorem State.completeErr_seen (e : Raise) (s : State) : (State.completeErr e s).seen = s.seen := rfl
@[simp] theorem State.completeErr_schedule (e : Raise) (s : State) : (State.completeErr e s).schedule = s.schedule := rfl
@[simp] theorem State.completeErr_draws (e : Raise) (s : State) : (State.completeErr e s).draws = s.draws + 1 := rfl
@[simp] theorem State.completeErr_ibufDraw (e : Raise) (s : State) : (State.completeErr e s).ibufDraw = s.ibufDraw := rfl
@[simp] theorem State.completeErr_obufDraw (e : Raise) (s : State) : (State.completeErr e s).obufDraw = s.draws := rfl

/-! ### State.startCommand -/

@[simp] theorem State.startCommand_cfg (i : Instr) (s : State) : (State.startCommand i s).cfg = s.cfg := rfl
@[simp] theorem State.startCommand_seq (i : Instr) (s : State) : (State.startCommand i s).seq = .busy i := rfl
@[simp] theorem State.startCommand_latchedLen (i : Instr) (s : State) : (State.startCommand i s).latchedLen = s.inLen := rfl
@[simp] theorem State.startCommand_done (i : Instr) (s : State) : (State.startCommand i s).done = false := rfl
@[simp] theorem State.startCommand_err (i : Instr) (s : State) : (State.startCommand i s).err = .ok := rfl
@[simp] theorem State.startCommand_lastOp (i : Instr) (s : State) : (State.startCommand i s).lastOp = s.lastOp := rfl
@[simp] theorem State.startCommand_inLen (i : Instr) (s : State) : (State.startCommand i s).inLen = s.inLen := rfl
@[simp] theorem State.startCommand_res (i : Instr) (s : State) : (State.startCommand i s).res = s.res := rfl
@[simp] theorem State.startCommand_ibuf (i : Instr) (s : State) : (State.startCommand i s).ibuf = s.ibuf := rfl
@[simp] theorem State.startCommand_obuf (i : Instr) (s : State) : (State.startCommand i s).obuf = s.obuf := rfl
@[simp] theorem State.startCommand_hidden (i : Instr) (s : State) : (State.startCommand i s).hidden = s.hidden := rfl
@[simp] theorem State.startCommand_host (i : Instr) (s : State) : (State.startCommand i s).host = s.host := rfl
@[simp] theorem State.startCommand_seen (i : Instr) (s : State) : (State.startCommand i s).seen = s.seen := rfl
@[simp] theorem State.startCommand_schedule (i : Instr) (s : State) : (State.startCommand i s).schedule = s.schedule := rfl
@[simp] theorem State.startCommand_draws (i : Instr) (s : State) : (State.startCommand i s).draws = s.draws := rfl
@[simp] theorem State.startCommand_ibufDraw (i : Instr) (s : State) : (State.startCommand i s).ibufDraw = s.ibufDraw := rfl
@[simp] theorem State.startCommand_obufDraw (i : Instr) (s : State) : (State.startCommand i s).obufDraw = s.obufDraw := rfl

/-! ### State.resetEvent -/

@[simp] theorem State.resetEvent_cfg (s : State) : s.resetEvent.cfg = s.cfg := rfl
@[simp] theorem State.resetEvent_seq (s : State) : s.resetEvent.seq = .idle := rfl
@[simp] theorem State.resetEvent_latchedLen (s : State) : s.resetEvent.latchedLen = s.latchedLen := rfl
@[simp] theorem State.resetEvent_done (s : State) : s.resetEvent.done = false := rfl
@[simp] theorem State.resetEvent_err (s : State) : s.resetEvent.err = .ok := rfl
@[simp] theorem State.resetEvent_lastOp (s : State) : s.resetEvent.lastOp = 0 := rfl
@[simp] theorem State.resetEvent_inLen (s : State) : s.resetEvent.inLen = 0 := rfl
@[simp] theorem State.resetEvent_res (s : State) : s.resetEvent.res = {} := rfl
@[simp] theorem State.resetEvent_ibuf (s : State) : s.resetEvent.ibuf = [] := rfl
@[simp] theorem State.resetEvent_obuf (s : State) : s.resetEvent.obuf = [] := rfl
@[simp] theorem State.resetEvent_hidden (s : State) : s.resetEvent.hidden = s.hidden := rfl
@[simp] theorem State.resetEvent_host (s : State) : s.resetEvent.host = s.host := rfl
@[simp] theorem State.resetEvent_seen (s : State) : s.resetEvent.seen = s.seen := rfl
@[simp] theorem State.resetEvent_schedule (s : State) : s.resetEvent.schedule = s.schedule := rfl
@[simp] theorem State.resetEvent_draws (s : State) : s.resetEvent.draws = s.draws + 2 := rfl
@[simp] theorem State.resetEvent_ibufDraw (s : State) : s.resetEvent.ibufDraw = s.draws := rfl
@[simp] theorem State.resetEvent_obufDraw (s : State) : s.resetEvent.obufDraw = s.draws + 1 := rfl

/-! ### State.sees -/

@[simp] theorem State.sees_cfg (s : State) (r : Seen) : (s.sees r).cfg = s.cfg := rfl
@[simp] theorem State.sees_seq (s : State) (r : Seen) : (s.sees r).seq = s.seq := rfl
@[simp] theorem State.sees_latchedLen (s : State) (r : Seen) : (s.sees r).latchedLen = s.latchedLen := rfl
@[simp] theorem State.sees_done (s : State) (r : Seen) : (s.sees r).done = s.done := rfl
@[simp] theorem State.sees_err (s : State) (r : Seen) : (s.sees r).err = s.err := rfl
@[simp] theorem State.sees_lastOp (s : State) (r : Seen) : (s.sees r).lastOp = s.lastOp := rfl
@[simp] theorem State.sees_inLen (s : State) (r : Seen) : (s.sees r).inLen = s.inLen := rfl
@[simp] theorem State.sees_res (s : State) (r : Seen) : (s.sees r).res = s.res := rfl
@[simp] theorem State.sees_ibuf (s : State) (r : Seen) : (s.sees r).ibuf = s.ibuf := rfl
@[simp] theorem State.sees_obuf (s : State) (r : Seen) : (s.sees r).obuf = s.obuf := rfl
@[simp] theorem State.sees_hidden (s : State) (r : Seen) : (s.sees r).hidden = s.hidden := rfl
@[simp] theorem State.sees_host (s : State) (r : Seen) : (s.sees r).host = s.host := rfl
@[simp] theorem State.sees_seen (s : State) (r : Seen) : (s.sees r).seen = r :: s.seen := rfl
@[simp] theorem State.sees_schedule (s : State) (r : Seen) : (s.sees r).schedule = s.schedule := rfl
@[simp] theorem State.sees_draws (s : State) (r : Seen) : (s.sees r).draws = s.draws := rfl
@[simp] theorem State.sees_ibufDraw (s : State) (r : Seen) : (s.sees r).ibufDraw = s.ibufDraw := rfl
@[simp] theorem State.sees_obufDraw (s : State) (r : Seen) : (s.sees r).obufDraw = s.obufDraw := rfl

/-! ### State.hostNext -/

@[simp] theorem State.hostNext_cfg (ls : List HostLine) (s : State) : (State.hostNext ls s).cfg = s.cfg := rfl
@[simp] theorem State.hostNext_seq (ls : List HostLine) (s : State) : (State.hostNext ls s).seq = s.seq := rfl
@[simp] theorem State.hostNext_latchedLen (ls : List HostLine) (s : State) :
    (State.hostNext ls s).latchedLen = s.latchedLen := rfl
@[simp] theorem State.hostNext_done (ls : List HostLine) (s : State) : (State.hostNext ls s).done = s.done := rfl
@[simp] theorem State.hostNext_err (ls : List HostLine) (s : State) : (State.hostNext ls s).err = s.err := rfl
@[simp] theorem State.hostNext_lastOp (ls : List HostLine) (s : State) : (State.hostNext ls s).lastOp = s.lastOp := rfl
@[simp] theorem State.hostNext_inLen (ls : List HostLine) (s : State) : (State.hostNext ls s).inLen = s.inLen := rfl
@[simp] theorem State.hostNext_res (ls : List HostLine) (s : State) : (State.hostNext ls s).res = s.res := rfl
@[simp] theorem State.hostNext_ibuf (ls : List HostLine) (s : State) : (State.hostNext ls s).ibuf = s.ibuf := rfl
@[simp] theorem State.hostNext_obuf (ls : List HostLine) (s : State) : (State.hostNext ls s).obuf = s.obuf := rfl
@[simp] theorem State.hostNext_hidden (ls : List HostLine) (s : State) : (State.hostNext ls s).hidden = s.hidden := rfl
@[simp] theorem State.hostNext_host (ls : List HostLine) (s : State) : (State.hostNext ls s).host = ls ++ s.host := rfl
@[simp] theorem State.hostNext_seen (ls : List HostLine) (s : State) : (State.hostNext ls s).seen = s.seen := rfl
@[simp] theorem State.hostNext_schedule (ls : List HostLine) (s : State) :
    (State.hostNext ls s).schedule = s.schedule := rfl
@[simp] theorem State.hostNext_draws (ls : List HostLine) (s : State) : (State.hostNext ls s).draws = s.draws := rfl
@[simp] theorem State.hostNext_ibufDraw (ls : List HostLine) (s : State) :
    (State.hostNext ls s).ibufDraw = s.ibufDraw := rfl
@[simp] theorem State.hostNext_obufDraw (ls : List HostLine) (s : State) :
    (State.hostNext ls s).obufDraw = s.obufDraw := rfl

/-! ### Reads and writes -/

theorem State.isBusy_idle {s : State} (h : s.seq = .idle) : s.isBusy = false := by simp [State.isBusy, h]

theorem State.isBusy_busy {s : State} {i : Instr} (h : s.seq = .busy i) : s.isBusy = true := by simp [State.isBusy, h]

theorem State.seq_cases (s : State) : s.seq = .idle ∨ ∃ i, s.seq = .busy i := by
  cases s.seq <;> simp

/-- A read of a register takes a draw or nothing. -/
theorem State.readReg_snd (s : State) (r : Reg) :
    (s.readReg r).2 = { s with draws := if s.isBusy && r.isResult then s.draws + 1 else s.draws } := by
  rw [State.readReg]
  split <;> rfl

theorem State.readReg_fst (s : State) (r : Reg) :
    (s.readReg r).1 = if s.isBusy && r.isResult then Config.freeWord s.draws else s.regValue r := by
  rw [State.readReg]
  split <;> rfl

/-- A read of a byte of OBUF takes a draw or nothing. -/
theorem State.readObuf_snd (s : State) (i : Nat) :
    (s.readObuf i).2 = { s with draws := if s.isBusy then s.draws + 1 else s.draws } := by
  rw [State.readObuf]
  split <;> rfl

theorem State.readObuf_fst (s : State) (i : Nat) :
    (s.readObuf i).1 = if s.isBusy then Config.freeByte s.draws i else s.obufByte i := by
  rw [State.readObuf]
  split <;> rfl

theorem State.writeIbuf_eq (s : State) (i : Nat) (b : Byte) :
    s.writeIbuf i b = { s with ibuf := if s.isBusy then s.ibuf else s.ibuf.write i b } := by
  rw [State.writeIbuf]
  split <;> rfl

theorem State.writeInLen_eq (v : Word) (s : State) :
    State.writeInLen v s = { s with inLen := if s.isBusy then s.inLen else v } := by
  rw [State.writeInLen]
  split <;> rfl

theorem Reg.ofOffset_offset (r : Reg) : Reg.ofOffset r.offset = some r := by
  cases r <;> rfl

theorem Reg.offset_of_ofOffset {off : Nat} {r : Reg} (h : Reg.ofOffset off = some r) : r.offset = off := by
  have := List.find?_some h
  simpa using this

end Sys2Proof.Machine
end

