-- ==== Sys2Proof/Laws/Commands.lean ====
section
/-! SUPPORT. What a command can do, once for all four (60_exceptions.md R310, R321): how the core step ends, what a success or
a failure leaves, and the bounds of what the four engines hand to the completion. -/

namespace Sys2Proof.Machine

/-- The engine a command runs. -/
def engineOf : Instr → Engine
  | .lzwEncode => lzwEncode
  | .lzwDecode => lzwDecode
  | .hufEncode => hufEncode
  | .hufDecode => hufDecode

/-- Every command is its core step. -/
theorem exec_eq (i : Instr) (s : State) : exec i s = .next (s.runCommand (engineOf i)) := by
  cases i <;> rfl

theorem State.memRead_length (s : State) (a n : Nat) : (s.memRead a n).length = n := by simp [State.memRead]

theorem State.input_length (s : State) : s.input.length = s.latchedLen.toNat := s.memRead_length _ _

theorem State.input_getElem (s : State) {i : Nat} (h : i < s.input.length) : s.input[i] = s.ibufByte i := by
  simp [State.input, State.memRead]

/-- Two states with the same input bytes have the same input. -/
theorem State.input_congr {s u : State} (h : u.latchedLen = s.latchedLen)
    (hb : ∀ i, i < s.latchedLen.toNat → u.ibufByte i = s.ibufByte i) : u.input = s.input := by
  simp only [State.input, State.memRead, h]
  refine List.map_congr_left fun i hi => ?_
  simpa using hb i (by simpa using hi)

/-- R310: the three ends of a core step. -/
theorem State.runCommand_cases (engine : Engine) (s : State) :
    (s.cfg.inCap < s.latchedLen.toNat ∧ s.runCommand engine = s.completeErr (Raise.capacity .capInLen)) ∨
    (s.latchedLen.toNat ≤ s.cfg.inCap ∧ ∃ e, engine s.cfg s.input = .error e ∧ s.runCommand engine = s.completeErr e) ∨
    (s.latchedLen.toNat ≤ s.cfg.inCap ∧ ∃ r h, engine s.cfg s.input = .ok (r, h) ∧
      s.runCommand engine = State.completeOk r { s with hidden := h }) := by
  unfold State.runCommand
  by_cases hc : s.cfg.inCap < s.latchedLen.toNat
  · exact .inl ⟨hc, if_pos hc⟩
  · rw [if_neg hc]
    cases h : engine s.cfg s.input with
    | error e => exact .inr (.inl ⟨by omega, e, rfl, rfl⟩)
    | ok p => exact .inr (.inr ⟨by omega, p.1, p.2, rfl, rfl⟩)

theorem State.runCommand_ok {engine : Engine} {s : State} (hc : s.latchedLen.toNat ≤ s.cfg.inCap) {r : Success} {h : Hidden}
    (he : engine s.cfg s.input = .ok (r, h)) : s.runCommand engine = State.completeOk r { s with hidden := h } := by
  unfold State.runCommand
  rw [if_neg (by omega), he]

theorem State.runCommand_error {engine : Engine} {s : State} (hc : s.latchedLen.toNat ≤ s.cfg.inCap) {e : Raise}
    (he : engine s.cfg s.input = .error e) : s.runCommand engine = s.completeErr e := by
  unfold State.runCommand
  rw [if_neg (by omega), he]

/-! ### What engines hand over -/

/-- The bounds of a success: every value fits its register (R62), one engine's info registers are 0. -/
structure Success.Good (cfg : Config) (r : Success) : Prop where
  out_le : r.out.length ≤ cfg.outCap
  width : widthOk r.lzwWidth = true
  count_lt : r.lzwCount < 2 ^ 32
  symbols_le : r.hufSymbols ≤ 256
  bitlen_lt : r.hufBitlen < 2 ^ 32
  pad : r.hufPad = padLen r.hufBitlen
  one : (r.lzwWidth = 0 ∧ r.lzwCount = 0) ∨ (r.hufSymbols = 0 ∧ r.hufBitlen = 0 ∧ r.hufPad = 0)

/-- The bounds of an error: its kind is its detail's, and only two details record a position (R313, R314). -/
structure Raise.Good (e : Raise) : Prop where
  kind : e.kind = e.detail.kind
  failed : e.detail ≠ .none
  pos_lt : e.pos < 2 ^ 32
  pos : e.detail ≠ .lzwBadCode → e.detail ≠ .hufTrailingBits → e.pos = 0

theorem Raise.good_malformed {d : Detail} (h : d.kind = .malformed) : (Raise.malformed d 0).Good where
  kind := h.symm
  failed := by rintro rfl; cases h
  pos_lt := by norm_num [Raise.malformed]
  pos := fun _ _ => rfl

theorem Raise.good_capacity {d : Detail} (h : d.kind = .capacity) : (Raise.capacity d).Good where
  kind := h.symm
  failed := by rintro rfl; cases h
  pos_lt := by norm_num [Raise.capacity]
  pos := fun _ _ => rfl

theorem widthOk_of_legal {w : Nat} (h : legalWidth w = true) : widthOk w = true := by
  simp only [legalWidth, widthOk, List.contains_eq_mem, List.mem_cons, decide_eq_true_eq] at *
  tauto

theorem good_nil (cfg : Config) : Success.Good cfg { out := [] } where
  out_le := Nat.zero_le _
  width := rfl
  count_lt := by norm_num
  symbols_le := by norm_num
  bitlen_lt := by norm_num
  pad := rfl
  one := .inl ⟨rfl, rfl⟩

/-- R170: how LZW_ENCODE ends. -/
theorem lzwEncode_cases (cfg : Config) (X : List Byte) :
    (X = [] ∧ lzwEncode cfg X = .ok ({ out := [] }, Hidden.init)) ∨
    (X ≠ [] ∧ cfg.outCap < (lzwFrame (lzwCodes cfg.dictSize X)).length ∧
      lzwEncode cfg X = .error (Raise.capacity .capOut)) ∨
    (X ≠ [] ∧ (lzwFrame (lzwCodes cfg.dictSize X)).length ≤ cfg.outCap ∧ ∃ hid, lzwEncode cfg X =
      .ok ({ out := lzwFrame (lzwCodes cfg.dictSize X)
             lzwWidth := lzwWidth (maxCode (lzwCodes cfg.dictSize X))
             lzwCount := (lzwCodes cfg.dictSize X).length }, hid)) := by
  by_cases hX : X = []
  · exact .inl ⟨hX, by rw [hX, lzwEncode_nil]⟩
  · by_cases h : cfg.outCap < (lzwFrame (lzwCodes cfg.dictSize X)).length
    · exact .inr (.inl ⟨hX, h, lzwEncode_capOut hX h⟩)
    · exact .inr (.inr ⟨hX, by omega, lzwEncode_ok hX (by omega)⟩)

/-- R241: how HUF_ENCODE ends. -/
theorem hufEncode_cases (cfg : Config) (X : List Byte) :
    (X = [] ∧ hufEncode cfg X = .ok ({ out := [] }, Hidden.init)) ∨
    (X ≠ [] ∧ cfg.outCap < (hufFrame (hufBuild X).code (hufBuild X).nSym (hufPayload (hufBuild X).code X)).length ∧
      hufEncode cfg X = .error (Raise.capacity .capOut)) ∨
    (X ≠ [] ∧ (hufFrame (hufBuild X).code (hufBuild X).nSym (hufPayload (hufBuild X).code X)).length ≤ cfg.outCap ∧
      ∃ hid, hufEncode cfg X =
      .ok ({ out := hufFrame (hufBuild X).code (hufBuild X).nSym (hufPayload (hufBuild X).code X)
             hufSymbols := (hufBuild X).nSym
             hufBitlen := (hufPayload (hufBuild X).code X).length
             hufPad := padLen (hufPayload (hufBuild X).code X).length }, hid)) := by
  by_cases hX : X = []
  · exact .inl ⟨hX, by rw [hX]; rfl⟩
  · by_cases h : cfg.outCap < (hufFrame (hufBuild X).code (hufBuild X).nSym (hufPayload (hufBuild X).code X)).length
    · exact .inr (.inl ⟨hX, h, hufEncode_capOut hX h⟩)
    · exact .inr (.inr ⟨hX, by omega, hufEncode_ok hX (by omega)⟩)

/-- R181: how the parse ends. -/
theorem lzwParse_cases (F : List Byte) :
    (∃ d, (d = .lzwHdrShort ∨ d = .lzwBadWidth ∨ d = .lzwLenMismatch) ∧ lzwParse F = .error (Raise.malformed d 0)) ∨
    (5 ≤ F.length ∧ legalWidth (byteAt F 0) = true ∧ F.length = 5 + ceilDiv (be32Read F 1 * byteAt F 0) 8 ∧
      lzwParse F = .ok (byteAt F 0, be32Read F 1,
        codesOf (byteAt F 0) (be32Read F 1) (unpack (F.drop 5) (be32Read F 1 * byteAt F 0)))) := by
  unfold lzwParse
  by_cases h1 : F.length < 5
  · exact .inl ⟨_, .inl rfl, by rw [if_pos h1]⟩
  · rw [if_neg h1]
    cases h2 : legalWidth (byteAt F 0) with
    | false => exact .inl ⟨_, .inr (.inl rfl), by simp [h2]⟩
    | true =>
      by_cases h3 : F.length = 5 + ceilDiv (be32Read F 1 * byteAt F 0) 8
      · exact .inr ⟨by omega, rfl, h3, by simp [h2, ← h3]⟩
      · exact .inl ⟨_, .inr (.inr rfl), by simp [h2, h3]⟩

/-- R182: how a turn of the code loop ends. -/
theorem lzwDecStep_cases (cfg : Config) (i k : Nat) (d : LzwDec) :
    (lzwEntry cfg.dictSize d k = none ∧ lzwDecStep cfg i k d = .error (Raise.malformed .lzwBadCode i)) ∨
    (∃ entry, lzwEntry cfg.dictSize d k = some entry ∧ cfg.outCap < d.out.length + entry.length ∧
      lzwDecStep cfg i k d = .error (Raise.capacity .capOut)) ∨
    (∃ entry, lzwEntry cfg.dictSize d k = some entry ∧ d.out.length + entry.length ≤ cfg.outCap ∧
      lzwDecStep cfg i k d =
        .ok { dict := lzwLearn cfg.dictSize d entry, prev := some (k, entry), out := d.out ++ entry }) := by
  unfold lzwDecStep
  cases h : lzwEntry cfg.dictSize d k with
  | none => exact .inl ⟨rfl, rfl⟩
  | some entry =>
    by_cases hc : cfg.outCap < d.out.length + entry.length
    · exact .inr (.inl ⟨entry, rfl, hc, if_pos hc⟩)
    · exact .inr (.inr ⟨entry, rfl, by omega, if_neg hc⟩)

/-- How the code loop ends: its output fits, and an error is one of two. -/
theorem lzwDecLoop_good {cfg : Config} (ks : List Nat) :
    ∀ {i : Nat} {d : LzwDec}, d.out.length ≤ cfg.outCap →
      (∀ e, lzwDecLoop cfg i ks d = .ok e → e.out.length ≤ cfg.outCap) ∧
      (∀ r, lzwDecLoop cfg i ks d = .error r →
        r = Raise.capacity .capOut ∨ ∃ j, i ≤ j ∧ j < i + ks.length ∧ r = Raise.malformed .lzwBadCode j) := by
  induction ks with
  | nil =>
    intro i d h
    refine ⟨fun e he => ?_, fun r hr => by cases hr⟩
    cases he
    exact h
  | cons k ks ih =>
    intro i d h
    rw [lzwDecLoop]
    rcases lzwDecStep_cases cfg i k d with ⟨_, hs⟩ | ⟨entry, _, _, hs⟩ | ⟨entry, _, hcap, hs⟩
    · rw [hs]
      exact ⟨fun e he => by simp at he, fun r hr => .inr ⟨i, le_refl _, by simp, by simpa using hr.symm⟩⟩
    · rw [hs]
      exact ⟨fun e he => by simp at he, fun r hr => .inl (by simpa using hr.symm)⟩
    · rw [hs]
      have := ih (i := i + 1)
        (d := { dict := lzwLearn cfg.dictSize d entry, prev := some (k, entry), out := d.out ++ entry })
        (by simpa using hcap)
      refine ⟨this.1, fun r hr => ?_⟩
      rcases this.2 r hr with h | ⟨j, h1, h2, h3⟩
      · exact .inl h
      · exact .inr ⟨j, by omega, by simp only [List.length_cons]; omega, h3⟩

theorem codesOf_length (w n : Nat) (bits : List Bool) : (codesOf w n bits).length = n := by
  induction n generalizing bits with
  | zero => rfl
  | succ n ih => simp [codesOf, ih]

/-- R182: LZW_DECODE behind its parse. -/
theorem lzwDecode_of_parse {F : List Byte} {w n : Nat} {codes : List Nat} (cfg : Config) (h0 : F.length ≠ 0)
    (hp : lzwParse F = .ok (w, n, codes)) :
    (∃ e, lzwDecLoop cfg 0 codes LzwDec.init = .error e ∧ lzwDecode cfg F = .error e) ∨
    (∃ d hid, lzwDecLoop cfg 0 codes LzwDec.init = .ok d ∧
      lzwDecode cfg F = .ok ({ out := d.out, lzwWidth := w, lzwCount := n }, hid)) := by
  unfold lzwDecode
  rw [if_neg h0, hp]
  cases hl : lzwDecLoop cfg 0 codes LzwDec.init with
  | error e => exact .inl ⟨e, rfl, by simp only [hl]⟩
  | ok d => exact .inr ⟨d, _, rfl, by simp only [hl]; rfl⟩

theorem lzwDecode_nil (cfg : Config) : lzwDecode cfg [] = .ok ({ out := [] }, Hidden.init) := rfl

theorem lzwDecode_of_parse_error {F : List Byte} {e : Raise} (cfg : Config) (h0 : F.length ≠ 0)
    (hp : lzwParse F = .error e) : lzwDecode cfg F = .error e := by
  unfold lzwDecode
  rw [if_neg h0, hp]

/-- R188: the errors of LZW_DECODE, and what it hands over. -/
theorem lzwDecode_cases (cfg : Config) (F : List Byte) :
    (∃ r h, lzwDecode cfg F = .ok (r, h) ∧ r.out.length ≤ cfg.outCap ∧ widthOk r.lzwWidth = true ∧ r.lzwCount < 2 ^ 32 ∧
      r.hufSymbols = 0 ∧ r.hufBitlen = 0 ∧ r.hufPad = 0) ∨
    (∃ d, (d = .lzwHdrShort ∨ d = .lzwBadWidth ∨ d = .lzwLenMismatch) ∧ lzwDecode cfg F = .error (Raise.malformed d 0)) ∨
    (∃ j, j < 2 ^ 32 ∧ lzwDecode cfg F = .error (Raise.malformed .lzwBadCode j)) ∨
    lzwDecode cfg F = .error (Raise.capacity .capOut) := by
  by_cases h0 : F.length = 0
  · rw [List.length_eq_zero_iff.mp h0]
    exact .inl ⟨{ out := [] }, Hidden.init, lzwDecode_nil cfg, Nat.zero_le _, rfl, by norm_num, rfl, rfl, rfl⟩
  · rcases lzwParse_cases F with ⟨d, hd, hp⟩ | ⟨_, hw, _, hp⟩
    · exact .inr (.inl ⟨d, hd, lzwDecode_of_parse_error cfg h0 hp⟩)
    · have hn := be32Read_lt F 1
      have hgood := lzwDecLoop_good (cfg := cfg)
        (codesOf (byteAt F 0) (be32Read F 1) (unpack (F.drop 5) (be32Read F 1 * byteAt F 0))) (i := 0)
        (d := LzwDec.init) (Nat.zero_le _)
      rcases lzwDecode_of_parse cfg h0 hp with ⟨e, hl, h⟩ | ⟨d, hid, hl, h⟩
      · rcases hgood.2 e hl with rfl | ⟨j, _, hj, rfl⟩
        · exact .inr (.inr (.inr h))
        · rw [codesOf_length] at hj
          exact .inr (.inr (.inl ⟨j, by omega, h⟩))
      · exact .inl ⟨_, hid, h, hgood.1 d hl, widthOk_of_legal hw, hn, rfl, rfl, rfl⟩

/-- How the entry loop ends: an error is one of two, and the entries are counted. -/
theorem parseEntries_good (F : List Byte) (c : Nat) :
    ∀ p, (∀ T q, parseEntries F c p = .ok (T, q) → T.length = c) ∧
      (∀ r, parseEntries F c p = .error r →
        r = Raise.malformed .hufHdrShort 0 ∨ r = Raise.malformed .hufBadLength 0) := by
  induction c with
  | zero =>
    intro p
    refine ⟨fun T q h => ?_, fun r h => by cases h⟩
    cases h
    rfl
  | succ c ih =>
    intro p
    rw [parseEntries]
    by_cases h1 : F.length < p + 2
    · rw [if_pos h1]
      exact ⟨fun T q h => by simp at h, fun r h => .inl (by simpa using h.symm)⟩
    · rw [if_neg h1]
      by_cases h2 : byteAt F (p + 1) = 0
      · simp only [h2, if_true]
        exact ⟨fun T q h => by simp at h, fun r h => .inr (by simpa using h.symm)⟩
      · simp only [h2, if_false]
        by_cases h3 : F.length < p + 2 + ceilDiv (byteAt F (p + 1)) 8
        · rw [if_pos h3]
          exact ⟨fun T q h => by simp at h, fun r h => .inl (by simpa using h.symm)⟩
        · rw [if_neg h3]
          have := ih (p + 2 + ceilDiv (byteAt F (p + 1)) 8)
          cases hp : parseEntries F c (p + 2 + ceilDiv (byteAt F (p + 1)) 8) with
          | error e => exact ⟨fun T q h => by simp at h, fun r h => this.2 r (by simpa [hp] using h)⟩
          | ok x =>
            obtain ⟨t, r⟩ := x
            refine ⟨fun T q h => ?_, fun r h => by simp at h⟩
            simp only [Except.ok.injEq, Prod.mk.injEq] at h
            rw [← h.1, List.length_cons, this.1 t r hp]

/-- R288: how the table parse ends. -/
theorem parseTable_cases (F : List Byte) :
    (∃ d, (d = .hufHdrShort ∨ d = .hufBadCount ∨ d = .hufBadLength) ∧ parseTable F = .error (Raise.malformed d 0)) ∨
    (2 ≤ F.length ∧ be16Read F 0 ≤ 256 ∧ ∃ T p, parseEntries F (be16Read F 0) 2 = .ok (T, p) ∧
      T.length = be16Read F 0 ∧ parseTable F = .ok (be16Read F 0, T, p)) := by
  unfold parseTable
  by_cases h1 : F.length < 2
  · exact .inl ⟨_, .inl rfl, if_pos h1⟩
  · rw [if_neg h1]
    by_cases h2 : 256 < be16Read F 0
    · exact .inl ⟨_, .inr (.inl rfl), by simp [h2]⟩
    · simp only [h2, if_false]
      have := parseEntries_good F (be16Read F 0) 2
      cases hp : parseEntries F (be16Read F 0) 2 with
      | error e =>
        rcases this.2 e hp with rfl | rfl
        · exact .inl ⟨_, .inl rfl, rfl⟩
        · exact .inl ⟨_, .inr (.inr rfl), rfl⟩
      | ok x => exact .inr ⟨by omega, by omega, x.1, x.2, rfl, this.1 x.1 x.2 hp, rfl⟩

/-- R259: how the trailer parse ends. -/
theorem parseTrailer_cases (F : List Byte) (p : Nat) :
    (∃ d, (d = .hufHdrShort ∨ d = .hufPadMismatch ∨ d = .hufLenMismatch) ∧
      parseTrailer F p = .error (Raise.malformed d 0)) ∨
    (p + 5 ≤ F.length ∧ byteAt F (p + 4) = padLen (be32Read F p) ∧ F.length - (p + 5) = ceilDiv (be32Read F p) 8 ∧
      parseTrailer F p = .ok (be32Read F p, padLen (be32Read F p))) := by
  unfold parseTrailer
  by_cases h1 : F.length < p + 5
  · exact .inl ⟨_, .inl rfl, if_pos h1⟩
  · rw [if_neg h1]
    by_cases h2 : byteAt F (p + 4) = padLen (be32Read F p)
    · by_cases h3 : F.length - (p + 5) = ceilDiv (be32Read F p) 8
      · exact .inr ⟨by omega, h2, h3, by simp [h2, h3]⟩
      · exact .inl ⟨_, .inr (.inr rfl), by simp [h2, h3]⟩
    · exact .inl ⟨_, .inr (.inl rfl), by simp [h2]⟩

theorem parseTrailer_ok {F : List Byte} {p b pad : Nat} (h : parseTrailer F p = .ok (b, pad)) :
    b < 2 ^ 32 ∧ pad = padLen b := by
  rcases parseTrailer_cases F p with ⟨d, _, h'⟩ | ⟨_, _, _, h'⟩
  · rw [h'] at h
    exact absurd h (by simp)
  · rw [h'] at h
    obtain ⟨rfl, rfl⟩ := Prod.mk.inj (Except.ok.inj h)
    exact ⟨be32Read_lt F p, rfl⟩

/-- R260: how a turn of the scan ends. -/
theorem hufScanStep_cases (cap : Nat) (T : List Entry) (j : Nat) (b : Bool) (d : HufScan) :
    ((T.find? fun e => e.2 == d.acc ++ [b]) = none ∧ hufScanStep cap T j b d = .ok { d with acc := d.acc ++ [b] }) ∨
    (∃ e, (T.find? fun e => e.2 == d.acc ++ [b]) = some e ∧ cap < d.out.length + 1 ∧
      hufScanStep cap T j b d = .error (Raise.capacity .capOut)) ∨
    (∃ e, (T.find? fun e => e.2 == d.acc ++ [b]) = some e ∧ d.out.length + 1 ≤ cap ∧
      hufScanStep cap T j b d = .ok { acc := [], start := j + 1, out := d.out ++ [e.1] }) := by
  unfold hufScanStep
  cases h : T.find? fun e => e.2 == d.acc ++ [b] with
  | none => exact .inl ⟨rfl, rfl⟩
  | some e =>
    by_cases hc : cap < d.out.length + 1
    · exact .inr (.inl ⟨e, rfl, hc, if_pos hc⟩)
    · exact .inr (.inr ⟨e, rfl, by omega, if_neg hc⟩)

/-- How the scan ends: its output fits, its start is a payload index, and an error is one. -/
theorem hufScanLoop_good {cap : Nat} {T : List Entry} (bits : List Bool) :
    ∀ {j : Nat} {d : HufScan}, d.out.length ≤ cap → d.start ≤ j →
      (∀ e, hufScanLoop cap T j bits d = .ok e → e.out.length ≤ cap ∧ e.start ≤ j + bits.length) ∧
      (∀ r, hufScanLoop cap T j bits d = .error r → r = Raise.capacity .capOut) := by
  induction bits with
  | nil =>
    intro j d h hs
    refine ⟨fun e he => ?_, fun r hr => by cases hr⟩
    cases he
    exact ⟨h, hs⟩
  | cons b bs ih =>
    intro j d h hs
    rw [hufScanLoop]
    rcases hufScanStep_cases cap T j b d with ⟨_, h1⟩ | ⟨e, _, _, h1⟩ | ⟨e, _, hcap, h1⟩
    · rw [h1]
      have := ih (j := j + 1) (d := { d with acc := d.acc ++ [b] }) h (by simp only; omega)
      simp only [List.length_cons]
      refine ⟨fun e he => ?_, this.2⟩
      have := this.1 e he
      omega
    · rw [h1]
      exact ⟨fun e he => by simp at he, fun r hr => by simpa using hr.symm⟩
    · rw [h1]
      have := ih (j := j + 1) (d := { acc := [], start := j + 1, out := d.out ++ [e.1] }) (by simpa using hcap) (le_refl _)
      simp only [List.length_cons]
      refine ⟨fun e he => ?_, this.2⟩
      have := this.1 e he
      omega

theorem hufDecode_nil (cfg : Config) : hufDecode cfg [] = .ok ({ out := [] }, Hidden.init) := rfl

theorem hufDecode_of_table_error {F : List Byte} {e : Raise} (cfg : Config) (h0 : F.length ≠ 0)
    (hp : parseTable F = .error e) : hufDecode cfg F = .error e := by
  unfold hufDecode
  rw [if_neg h0, hp]

theorem hufDecode_of_table {F : List Byte} {c p : Nat} {T : List Entry} (cfg : Config) (h0 : F.length ≠ 0)
    (hp : parseTable F = .ok (c, T, p)) : hufDecode cfg F = hufDecodeBody cfg.outCap F c T p := by
  unfold hufDecode
  rw [if_neg h0, hp]

/-- R256: HUF_DECODE behind its table parse, check by check. -/
theorem hufDecodeBody_cases (cap : Nat) (F : List Byte) (c : Nat) (T : List Entry) (p : Nat) :
    (uniqueSymbols T = false ∧ hufDecodeBody cap F c T p = .error (Raise.malformed .hufDupSymbol 0)) ∨
    (uniqueSymbols T = true ∧ prefixFree T = false ∧
      hufDecodeBody cap F c T p = .error (Raise.malformed .hufNotPrefixFree 0)) ∨
    (uniqueSymbols T = true ∧ prefixFree T = true ∧
      ((∃ e, parseTrailer F p = .error e ∧ hufDecodeBody cap F c T p = .error e) ∨
       (∃ b pad e, parseTrailer F p = .ok (b, pad) ∧ hufScan cap T (unpack (F.drop (p + 5)) b) = .error e ∧
         hufDecodeBody cap F c T p = .error e) ∨
       (∃ b pad d hid, parseTrailer F p = .ok (b, pad) ∧ hufScan cap T (unpack (F.drop (p + 5)) b) = .ok d ∧
         hufDecodeBody cap F c T p =
           .ok ({ out := d.out, hufSymbols := c, hufBitlen := b, hufPad := pad }, hid)))) := by
  unfold hufDecodeBody
  cases h1 : uniqueSymbols T with
  | false => exact .inl ⟨rfl, rfl⟩
  | true =>
    cases h2 : prefixFree T with
    | false => exact .inr (.inl ⟨rfl, rfl, rfl⟩)
    | true =>
      refine .inr (.inr ⟨rfl, rfl, ?_⟩)
      cases ht : parseTrailer F p with
      | error e => exact .inl ⟨e, rfl, rfl⟩
      | ok x =>
        obtain ⟨b, pad⟩ := x
        cases hs : hufScan cap T (unpack (F.drop (p + 5)) b) with
        | error e => exact .inr (.inl ⟨b, pad, e, rfl, hs, by simp [hs]⟩)
        | ok d => exact .inr (.inr ⟨b, pad, d, _, rfl, hs, by simp [hs]; rfl⟩)

/-- R260, R261: how the scan ends. -/
theorem hufScan_cases (cap : Nat) (T : List Entry) (bits : List Bool) :
    (∃ d, hufScan cap T bits = .ok d ∧ d.acc = [] ∧ hufScanLoop cap T 0 bits HufScan.init = .ok d ∧
      d.out.length ≤ cap) ∨
    (∃ d, hufScan cap T bits = .error (Raise.malformed .hufTrailingBits d.start) ∧ d.acc ≠ [] ∧
      hufScanLoop cap T 0 bits HufScan.init = .ok d ∧ d.start ≤ bits.length) ∨
    (hufScan cap T bits = .error (Raise.capacity .capOut) ∧
      hufScanLoop cap T 0 bits HufScan.init = .error (Raise.capacity .capOut)) := by
  have hg := hufScanLoop_good (cap := cap) (T := T) bits (j := 0) (d := HufScan.init) (Nat.zero_le _) (Nat.zero_le _)
  unfold hufScan
  cases hl : hufScanLoop cap T 0 bits HufScan.init with
  | error e =>
    have := hg.2 e hl
    subst this
    exact .inr (.inr ⟨rfl, rfl⟩)
  | ok d =>
    have := hg.1 d hl
    by_cases ha : d.acc = []
    · exact .inl ⟨d, by simp [ha], ha, rfl, this.1⟩
    · exact .inr (.inl ⟨d, by simp [ha], ha, rfl, by omega⟩)

/-- R263: the errors of HUF_DECODE, and what it hands over. -/
theorem hufDecode_cases (cfg : Config) (F : List Byte) :
    (∃ r h, hufDecode cfg F = .ok (r, h) ∧ r.out.length ≤ cfg.outCap ∧ r.lzwWidth = 0 ∧ r.lzwCount = 0 ∧
      r.hufSymbols ≤ 256 ∧ r.hufBitlen < 2 ^ 32 ∧ r.hufPad = padLen r.hufBitlen) ∨
    (∃ d, (d = .hufHdrShort ∨ d = .hufBadCount ∨ d = .hufBadLength ∨ d = .hufDupSymbol ∨ d = .hufNotPrefixFree ∨
      d = .hufPadMismatch ∨ d = .hufLenMismatch) ∧ hufDecode cfg F = .error (Raise.malformed d 0)) ∨
    (∃ j, j < 2 ^ 32 ∧ hufDecode cfg F = .error (Raise.malformed .hufTrailingBits j)) ∨
    hufDecode cfg F = .error (Raise.capacity .capOut) := by
  by_cases h0 : F.length = 0
  · rw [List.length_eq_zero_iff.mp h0]
    exact .inl ⟨{ out := [] }, Hidden.init, hufDecode_nil cfg, Nat.zero_le _, rfl, rfl, by norm_num, by norm_num, rfl⟩
  · rcases parseTable_cases F with ⟨d, hd, hp⟩ | ⟨_, hc, T, p, _, _, hp⟩
    · exact .inr (.inl ⟨d, by tauto, hufDecode_of_table_error cfg h0 hp⟩)
    · rw [hufDecode_of_table cfg h0 hp]
      rcases hufDecodeBody_cases cfg.outCap F (be16Read F 0) T p with
        ⟨_, h⟩ | ⟨_, _, h⟩ | ⟨_, _, ⟨e, ht, h⟩ | ⟨b, pad, e, ht, hs, h⟩ | ⟨b, pad, d, hid, ht, hs, h⟩⟩
      · exact .inr (.inl ⟨_, by tauto, h⟩)
      · exact .inr (.inl ⟨_, by tauto, h⟩)
      · rcases parseTrailer_cases F p with ⟨d, hd, ht'⟩ | ⟨_, _, _, ht'⟩
        · rw [ht'] at ht
          rw [← Except.error.inj ht] at h
          exact .inr (.inl ⟨d, by tauto, h⟩)
        · rw [ht'] at ht
          exact absurd ht (by simp)
      · obtain ⟨hB, hpad⟩ := parseTrailer_ok ht
        have hbits : (unpack (F.drop (p + 5)) b).length ≤ b := by simp [unpack]
        rcases hufScan_cases cfg.outCap T (unpack (F.drop (p + 5)) b) with
          ⟨d', hs', _, _, ho⟩ | ⟨d', hs', _, _, hj⟩ | ⟨hs', _⟩ <;> rw [hs'] at hs
        · exact absurd hs (by simp)
        · rw [← Except.error.inj hs] at h
          exact .inr (.inr (.inl ⟨_, by omega, h⟩))
        · rw [← Except.error.inj hs] at h
          exact .inr (.inr (.inr h))
      · obtain ⟨hB, hpad⟩ := parseTrailer_ok ht
        rcases hufScan_cases cfg.outCap T (unpack (F.drop (p + 5)) b) with
          ⟨d', hs', _, _, ho⟩ | ⟨d', hs', _, _, hj⟩ | ⟨hs', _⟩ <;> rw [hs'] at hs
        · rw [Except.ok.inj hs] at ho
          exact .inl ⟨_, hid, h, ho, rfl, rfl, hc, hB, hpad⟩
        · exact absurd hs (by simp)
        · exact absurd hs (by simp)

/-- R313, R314: the errors of an engine, on any input. -/
theorem engineOf_raises {i : Instr} {cfg : Config} {X : List Byte} {e : Raise} (he : engineOf i cfg X = .error e) :
    e.Good := by
  have hcap : (Raise.capacity .capOut).Good := Raise.good_capacity rfl
  cases i with
  | lzwEncode =>
    simp only [engineOf] at he
    rcases lzwEncode_cases cfg X with ⟨_, h⟩ | ⟨_, _, h⟩ | ⟨_, _, _, h⟩ <;> rw [h] at he <;> cases he
    exact hcap
  | lzwDecode =>
    simp only [engineOf] at he
    rcases lzwDecode_cases cfg X with ⟨r, x, h, _⟩ | ⟨d, hd, h⟩ | ⟨j, hj, h⟩ | h <;> rw [h] at he <;> cases he
    · exact Raise.good_malformed (by rcases hd with rfl | rfl | rfl <;> rfl)
    · exact { kind := rfl, failed := by simp [Raise.malformed], pos_lt := hj, pos := fun h _ => absurd rfl h }
    · exact hcap
  | hufEncode =>
    simp only [engineOf] at he
    rcases hufEncode_cases cfg X with ⟨_, h⟩ | ⟨_, _, h⟩ | ⟨_, _, _, h⟩ <;> rw [h] at he <;> cases he
    exact hcap
  | hufDecode =>
    simp only [engineOf] at he
    rcases hufDecode_cases cfg X with ⟨r, x, h, _⟩ | ⟨d, hd, h⟩ | ⟨j, hj, h⟩ | h <;> rw [h] at he <;> cases he
    · exact Raise.good_malformed (by rcases hd with rfl | rfl | rfl | rfl | rfl | rfl | rfl <;> rfl)
    · exact { kind := rfl, failed := by simp [Raise.malformed], pos_lt := hj, pos := fun _ h => absurd rfl h }
    · exact hcap

/-- R62: what an engine hands over fits the registers, for an input the command accepts. -/
theorem engineOf_hands {i : Instr} {cfg : Config} {X : List Byte} (hX : X.length < 2 ^ 29) {r : Success} {x : Hidden}
    (hr : engineOf i cfg X = .ok (r, x)) : r.Good cfg := by
  cases i with
  | lzwEncode =>
    simp only [engineOf] at hr
    rcases lzwEncode_cases cfg X with ⟨_, h⟩ | ⟨_, _, h⟩ | ⟨hne, hle, hid, h⟩ <;> rw [h] at hr
    · rw [← (Prod.mk.inj (Except.ok.inj hr)).1]
      exact good_nil cfg
    · cases hr
    · rw [← (Prod.mk.inj (Except.ok.inj hr)).1]
      have := lzwCodes_ne_nil cfg.dictSize hne
      exact { out_le := hle, width := widthOk_of_legal (lzwWidth_legal _), count_lt := by simp only; omega,
              symbols_le := by norm_num, bitlen_lt := by norm_num, pad := (by decide : 0 = padLen 0),
              one := .inr ⟨rfl, rfl, rfl⟩ }
  | lzwDecode =>
    simp only [engineOf] at hr
    rcases lzwDecode_cases cfg X with ⟨r, x, h, h1, h2, h3, h4, h5, h6⟩ | ⟨d, hd, h⟩ | ⟨j, hj, h⟩ | h <;> rw [h] at hr
    · rw [← (Prod.mk.inj (Except.ok.inj hr)).1]
      exact { out_le := h1, width := h2, count_lt := h3, symbols_le := by omega, bitlen_lt := by omega,
              pad := by rw [h5, h6]; rfl, one := .inr ⟨h4, h5, h6⟩ }
    all_goals cases hr
  | hufEncode =>
    simp only [engineOf] at hr
    rcases hufEncode_cases cfg X with ⟨_, h⟩ | ⟨_, _, h⟩ | ⟨hne, hle, hid, h⟩ <;> rw [h] at hr
    · rw [← (Prod.mk.inj (Except.ok.inj hr)).1]
      exact good_nil cfg
    · cases hr
    · rw [← (Prod.mk.inj (Except.ok.inj hr)).1]
      have h8 := hufPayload_le hne
      have hs := distinctSyms_length_le X
      exact { out_le := hle, width := rfl, count_lt := by norm_num, symbols_le := by simp only [hufBuild_nSym]; exact hs,
              bitlen_lt := by simp only; omega, pad := rfl, one := .inl ⟨rfl, rfl⟩ }
  | hufDecode =>
    simp only [engineOf] at hr
    rcases hufDecode_cases cfg X with ⟨r, x, h, h1, h2, h3, h4, h5, h6⟩ | ⟨d, hd, h⟩ | ⟨j, hj, h⟩ | h <;> rw [h] at hr
    · rw [← (Prod.mk.inj (Except.ok.inj hr)).1]
      exact { out_le := h1, width := by rw [h2]; rfl, count_lt := by omega, symbols_le := h4, bitlen_lt := h5,
              pad := h6, one := .inl ⟨h2, h3⟩ }
    all_goals cases hr

/-- Both, for an input the command accepts. -/
theorem engineOf_good (i : Instr) {cfg : Config} {X : List Byte} (hX : X.length < 2 ^ 29) :
    (∀ r h, engineOf i cfg X = .ok (r, h) → r.Good cfg) ∧ (∀ e, engineOf i cfg X = .error e → e.Good) :=
  ⟨fun _ _ h => engineOf_hands hX h, fun _ h => engineOf_raises h⟩

theorem lzwDecLoop_place (cfg : Config) (p : Placement) (ks : List Nat) :
    ∀ i d, lzwDecLoop { cfg with place := p } i ks d = lzwDecLoop cfg i ks d := by
  induction ks with
  | nil => exact fun _ _ => rfl
  | cons k ks ih =>
    intro i d
    have hs : lzwDecStep { cfg with place := p } i k d = lzwDecStep cfg i k d := rfl
    simp only [lzwDecLoop, hs, ih]

/-- R86: CORE fixes no absolute addresses: no engine looks at where the platform places it. -/
theorem engineOf_place (i : Instr) (cfg : Config) (p : Placement) (X : List Byte) :
    engineOf i { cfg with place := p } X = engineOf i cfg X := by
  cases i with
  | lzwDecode => simp only [engineOf, lzwDecode, lzwDecLoop_place]
  | _ => rfl

/-! ### What a completion leaves -/

/-- R310: a completed success, read through the registers and OBUF. -/
theorem State.succeeded_completeOk {r : Success} {s : State} (hr : r.Good s.cfg) (hcfg : s.cfg.wf = true) :
    (State.completeOk r s).Succeeded r.out r.lzwWidth r.lzwCount r.hufSymbols r.hufBitlen r.hufPad := by
  have hout := hr.out_le
  have hpad := padLen_lt r.hufBitlen
  have hw : r.lzwWidth < 2 ^ 8 := by
    have := hr.width
    simp only [widthOk, List.contains_eq_mem, List.mem_cons, List.not_mem_nil, or_false, decide_eq_true_eq] at this
    omega
  simp only [Config.wf, Config.inCapOk, Config.outCapOk, Bool.and_eq_true, decide_eq_true_eq] at hcfg
  constructor <;> try rfl
  all_goals try simp only [State.reg, State.regValue, State.completeOk, BitVec.toNat_setWidth, BitVec.toNat_ofNat]
  · exact Nat.mod_eq_of_lt (by omega)
  · rw [Nat.mod_eq_of_lt hw, Nat.mod_eq_of_lt (by omega)]
  · exact Nat.mod_eq_of_lt hr.count_lt
  · have := hr.symbols_le
    rw [Nat.mod_eq_of_lt (show r.hufSymbols < 2 ^ 9 by omega), Nat.mod_eq_of_lt (by omega)]
  · exact Nat.mod_eq_of_lt hr.bitlen_lt
  · have := hr.pad
    rw [Nat.mod_eq_of_lt (show r.hufPad < 2 ^ 3 by omega), Nat.mod_eq_of_lt (by omega)]
  · intro i hi
    simp [State.obufByte, Memory.read_ofBytes, hi]

/-- R310, R91: what a success leaves unchanged. -/
theorem State.frame_completeOk (r : Success) (h : Hidden) (s : State) :
    s.CommandFrame (State.completeOk r { s with hidden := h }) where
  cfg := rfl
  inLen := rfl
  lastOp := rfl
  latchedLen := rfl
  ibuf := fun _ => rfl
  host := rfl
  seen := rfl
  schedule := rfl

/-- R321: what a failure leaves. -/
theorem State.failed_completeErr {e : Raise} (he : e.Good) (s : State) : s.Failed (s.completeErr e) e.detail e.pos := by
  have hk : e.detail.kind ≠ .ok := by
    have := he.failed
    revert this
    cases e.detail <;> simp [Detail.kind]
  have hd : (s.completeErr e).reg .errDetail = e.detail.code.toNat := by
    have := (e.detail.code).isLt
    simp only [State.reg, State.regValue, State.completeErr, BitVec.toNat_setWidth]
    exact Nat.mod_eq_of_lt (by omega)
  have hp : (s.completeErr e).reg .errPos = e.pos := by
    simp only [State.reg, State.regValue, State.completeErr, BitVec.toNat_ofNat]
    exact Nat.mod_eq_of_lt he.pos_lt
  exact
    { seq := rfl, done := rfl, err := he.kind, failed := fun h => hk (he.kind.symm.trans h), errDetail := hd, errPos := hp,
      outLen := rfl, lzwWidth := rfl, lzwCount := rfl, hufSymbols := rfl, hufBitlen := rfl, hufPad := rfl,
      obuf := fun _ => rfl }

/-- R321: what a failure leaves unchanged. -/
theorem State.frame_completeErr (e : Raise) (s : State) : s.CommandFrame (s.completeErr e) where
  cfg := rfl
  inLen := rfl
  lastOp := rfl
  latchedLen := rfl
  ibuf := fun _ => rfl
  host := rfl
  seen := rfl
  schedule := rfl

/-- R316: the check that comes first. -/
theorem exec_capInLen {i : Instr} {s : State} (h : s.cfg.inCap < s.latchedLen.toNat) :
    exec i s = .next (s.completeErr (Raise.capacity .capInLen)) := by
  rw [exec_eq, State.runCommand, if_pos h]

/-- R310: a command whose engine succeeds. -/
theorem exec_succeeds {i : Instr} {s : State} (hcfg : s.cfg.wf = true) (hc : s.latchedLen.toNat ≤ s.cfg.inCap) {r : Success}
    {h : Hidden} (he : engineOf i s.cfg s.input = .ok (r, h)) :
    ∃ t, exec i s = .next t ∧ t.Succeeded r.out r.lzwWidth r.lzwCount r.hufSymbols r.hufBitlen r.hufPad ∧
      s.CommandFrame t := by
  have hlt : s.input.length < 2 ^ 29 := by
    rw [State.input_length]
    simp only [Config.wf, Config.inCapOk, Bool.and_eq_true, decide_eq_true_eq] at hcfg
    omega
  refine ⟨_, by rw [exec_eq, State.runCommand_ok hc he], ?_, State.frame_completeOk r h s⟩
  exact State.succeeded_completeOk (s := { s with hidden := h }) ((engineOf_good i hlt).1 r h he) hcfg

/-- R321: a command whose engine fails. -/
theorem exec_fails {i : Instr} {s : State} (hcfg : s.cfg.wf = true) (hc : s.latchedLen.toNat ≤ s.cfg.inCap) {e : Raise}
    (he : engineOf i s.cfg s.input = .error e) :
    ∃ t, exec i s = .next t ∧ s.Failed t e.detail e.pos ∧ s.CommandFrame t := by
  have hlt : s.input.length < 2 ^ 29 := by
    rw [State.input_length]
    simp only [Config.wf, Config.inCapOk, Bool.and_eq_true, decide_eq_true_eq] at hcfg
    omega
  exact ⟨_, by rw [exec_eq, State.runCommand_error hc he],
    State.failed_completeErr ((engineOf_good i hlt).2 e he) s, State.frame_completeErr e s⟩

end Sys2Proof.Machine
end

