-- ==== Sys2Proof/Laws/HufArena.lean ====
section
/-! SUPPORT. The shape of the arena the merge steps leave, and the codewords as paths in it (41_huffman_tree.md R212 to R218). -/

namespace Sys2Proof.Machine

theorem notAfter_iff {a : Arena} {x y : Nat} : NotAfter a x y ↔ a.before x y = true := by simp [NotAfter, Arena.before]

theorem Arena.freqAt_congr {a b : Arena} {x : Nat} (h : a[x]? = b[x]?) : a.freqAt x = b.freqAt x := by
  rw [Arena.freqAt, Arena.freqAt, h]

/-- The pairs of two arenas that agree on their indices. -/
theorem NotAfter.congr {a b : Arena} {x y : Nat} (h : NotAfter a x y) (hx : b[x]? = a[x]?) (hy : b[y]? = a[y]?) :
    NotAfter b x y := by
  unfold NotAfter at *
  rw [Arena.freqAt_congr hx, Arena.freqAt_congr hy]
  exact h

/-- What is live when node `i` is made depends on the nodes below `i` only. -/
theorem liveAt_congr {a b : Arena} {i : Nat} (h : ∀ j, j < i → b[j]? = a[j]?) (x : Nat) : LiveAt b i x ↔ LiveAt a i x := by
  constructor
  · rintro ⟨h1, h2⟩
    exact ⟨h1, fun j f l r hj hn => h2 j f l r hj (by rw [h j hj, hn])⟩
  · rintro ⟨h1, h2⟩
    exact ⟨h1, fun j f l r hj hn => h2 j f l r hj (by rw [← h j hj, hn])⟩

/-- One merge step: the two indices it joins, and what it goes on with. -/
theorem mergeLoop_succ {n : Nat} {a : Arena} {live : List Nat} (hl : live.length = n + 2) :
    ∃ x y rest, live.Perm (x :: y :: rest) ∧ (∀ z ∈ live, NotAfter a x z) ∧ (∀ z ∈ y :: rest, NotAfter a y z) ∧
      mergeLoop (n + 1) a live = mergeLoop n (a ++ [.internal (a.freqAt x + a.freqAt y) x y]) (rest ++ [a.length]) := by
  obtain ⟨x, live1, h1⟩ := takeMin_some (a := a) (l := live) (by rintro rfl; simp at hl)
  obtain ⟨hp1, hm1⟩ := takeMin_spec h1
  have hl1 := hp1.length_eq
  obtain ⟨y, live2, h2⟩ := takeMin_some (a := a) (l := live1) (by rintro rfl; simp at hl1; omega)
  obtain ⟨hp2, hm2⟩ := takeMin_spec h2
  exact ⟨x, y, live2, hp1.trans (hp2.cons x), fun z hz => notAfter_iff.mpr (hm1 z hz),
    fun z hz => notAfter_iff.mpr (hm2 z (hp2.mem_iff.mpr hz)), by simp only [mergeLoop, h1, h2]⟩

/-- Node `i` of the arena `a` joins the two least live indices (R213, R214). -/
def Merges (a : Arena) (i : Nat) : Prop :=
  ∃ f l r, a[i]? = some (.internal f l r) ∧ f = a.freqAt l + a.freqAt r ∧ l ≠ r ∧ LiveAt a i l ∧ LiveAt a i r ∧
    ∀ y, LiveAt a i y → NotAfter a l y ∧ (y ≠ l → NotAfter a r y)

theorem Merges.congr {a b : Arena} {i : Nat} (h : Merges a i) (hab : ∀ j, j ≤ i → b[j]? = a[j]?) : Merges b i := by
  obtain ⟨f, l, r, hn, hf, hlr, hl, hr, hmin⟩ := h
  have hlive := liveAt_congr (fun j (hj : j < i) => hab j (by omega))
  have hfl : b.freqAt l = a.freqAt l := Arena.freqAt_congr (hab l (by have := hl.1; omega))
  have hfr : b.freqAt r = a.freqAt r := Arena.freqAt_congr (hab r (by have := hr.1; omega))
  refine ⟨f, l, r, by rw [hab i (le_refl _), hn], by rw [hfl, hfr, hf], hlr, (hlive l).mpr hl, (hlive r).mpr hr,
    fun y hy => ?_⟩
  have hy' := (hlive y).mp hy
  have hm := hmin y hy'
  have by' : b[y]? = a[y]? := hab y (by have := hy.1; omega)
  exact ⟨hm.1.congr (hab l (by have := hl.1; omega)) by',
    fun hne => (hm.2 hne).congr (hab r (by have := hr.1; omega)) by'⟩

/-- R212, R214: the merge steps append one node each, after the nodes that are there; each joins the two least live
indices. The last one has the frequency of all. -/
theorem mergeLoop_shape (n : Nat) : ∀ {a : Arena} {live : List Nat}, live.length = n + 1 → live.Nodup →
    (∀ x, x ∈ live ↔ LiveAt a a.length x) → (∀ j f l r : Nat, a[j]? = some (Node.internal f l r) → l < j ∧ r < j) →
    (mergeLoop n a live).length = a.length + n ∧
    (∀ i, i < a.length → (mergeLoop n a live)[i]? = a[i]?) ∧
    (∀ i, a.length ≤ i → i < a.length + n → Merges (mergeLoop n a live) i) ∧
    (0 < n → (mergeLoop n a live).freqAt (a.length + n - 1) = (live.map a.freqAt).sum) := by
  induction n with
  | zero =>
    intro a live _ _ _ _
    exact ⟨rfl, fun _ _ => rfl, fun i h1 h2 => by omega, fun h => absurd h (by omega)⟩
  | succ n ih =>
    intro a live hl hn hlive hbelow
    obtain ⟨x, y, rest, hp, hminx, hminy, he⟩ := mergeLoop_succ (a := a) hl
    have hlen := hp.length_eq
    simp only [List.length_cons, hl] at hlen
    have hnd := hp.nodup_iff.mp hn
    simp only [List.nodup_cons, List.mem_cons, not_or] at hnd
    have hxl := (hlive x).mp (hp.mem_iff.mpr (by simp))
    have hyl := (hlive y).mp (hp.mem_iff.mpr (by simp))
    have hx : x < a.length := hxl.1
    have hy : y < a.length := hyl.1
    have hrest : ∀ z ∈ rest, LiveAt a a.length z := fun z hz => (hlive z).mp (hp.mem_iff.mpr (by simp [hz]))
    generalize hb : a ++ [Node.internal (a.freqAt x + a.freqAt y) x y] = b at he
    have hbl : b.length = a.length + 1 := by rw [← hb]; simp
    have hba : ∀ i, i < a.length → b[i]? = a[i]? := fun i hi => by rw [← hb, List.getElem?_append_left hi]
    have hnew : b[a.length]? = some (.internal (a.freqAt x + a.freqAt y) x y) := by rw [← hb]; simp
    have hliveb : ∀ z, z ∈ rest ++ [a.length] ↔ LiveAt b b.length z := by
      intro z
      rw [List.mem_append, List.mem_singleton, hbl]
      constructor
      · rintro (hz | rfl)
        · obtain ⟨h1, h2⟩ := hrest z hz
          refine ⟨by omega, fun j f l r hj hjn => ?_⟩
          by_cases hja : j = a.length
          · subst hja
            rw [hnew] at hjn
            cases hjn
            exact ⟨fun h => hnd.1.2 (h ▸ hz), fun h => hnd.2.1 (h ▸ hz)⟩
          · exact h2 j f l r (by omega) (by rw [← hba j (by omega)]; exact hjn)
        · refine ⟨by omega, fun j f l r hj hjn => ?_⟩
          by_cases hja : j = a.length
          · subst hja
            rw [hnew] at hjn
            cases hjn
            omega
          · have := hbelow j f l r (by rw [← hba j (by omega)]; exact hjn)
            omega
      · rintro ⟨h1, h2⟩
        by_cases hz : z = a.length
        · exact .inr hz
        · left
          have hza : LiveAt a a.length z :=
            ⟨by omega, fun j f l r hj hjn => h2 j f l r (by omega) (by rw [hba j hj]; exact hjn)⟩
          have hzl := hp.mem_iff.mp ((hlive z).mpr hza)
          have := h2 a.length _ x y (by omega) hnew
          simp only [List.mem_cons] at hzl
          rcases hzl with h | h | h
          · exact absurd h this.1
          · exact absurd h this.2
          · exact h
    have hbelowb : ∀ j f l r : Nat, b[j]? = some (Node.internal f l r) → l < j ∧ r < j := by
      intro j f l r hjn
      by_cases hja : j < a.length
      · exact hbelow j f l r (by rw [← hba j hja]; exact hjn)
      · have hj : j < b.length := (List.getElem?_eq_some_iff.mp hjn).1
        obtain rfl : j = a.length := by omega
        rw [hnew] at hjn
        cases hjn
        omega
    have hndb : (rest ++ [a.length]).Nodup := by
      refine List.nodup_append.mpr ⟨hnd.2.2, by simp, fun u hu v hv huv => ?_⟩
      rw [List.mem_singleton] at hv
      have := (hrest u hu).1
      omega
    obtain ⟨h1, h2, h3, h4⟩ := ih (a := b) (live := rest ++ [a.length]) (by simp; omega) hndb hliveb hbelowb
    rw [he]
    have hfb : ∀ z, z < a.length → b.freqAt z = a.freqAt z := fun z hz => Arena.freqAt_congr (hba z hz)
    have hmerges : Merges b a.length := by
      refine ⟨_, x, y, hnew, by rw [hfb x hx, hfb y hy], hnd.1.1, (liveAt_congr hba x).mpr hxl, (liveAt_congr hba y).mpr hyl,
        fun z hz => ?_⟩
      have hza := (liveAt_congr hba z).mp hz
      have hzl := (hlive z).mpr hza
      refine ⟨(hminx z hzl).congr (hba x hx) (hba z hza.1), fun hne => (hminy z ?_).congr (hba y hy) (hba z hza.1)⟩
      rcases List.mem_cons.mp (hp.mem_iff.mp hzl) with h | h
      · exact absurd h hne
      · exact h
    have hsum : (live.map a.freqAt).sum = a.freqAt x + (a.freqAt y + (rest.map a.freqAt).sum) := by
      rw [(hp.map a.freqAt).sum_eq]; simp
    refine ⟨by omega, fun i hi => by rw [h2 i (by omega), hba i hi], fun i hi hi' => ?_, fun _ => ?_⟩
    · by_cases hia : i = a.length
      · subst hia
        exact hmerges.congr fun j hj => h2 j (by omega)
      · exact h3 i (by omega) (by omega)
    · have hbnew : b.freqAt a.length = a.freqAt x + a.freqAt y := by simp [Arena.freqAt, hnew, Node.freq]
      rcases Nat.eq_zero_or_pos n with rfl | hn0
      · have hr : rest = [] := List.eq_nil_of_length_eq_zero (by omega)
        subst hr
        simp only [List.map_nil, List.sum_nil] at hsum
        simp only [mergeLoop, hsum]
        rw [show a.length + (0 + 1) - 1 = a.length by omega, hbnew]
        omega
      · have := h4 hn0
        rw [show a.length + (n + 1) - 1 = b.length + n - 1 by omega, this, List.map_append, List.sum_append]
        have : rest.map b.freqAt = rest.map a.freqAt := List.map_congr_left fun z hz => hfb z (hrest z hz).1
        rw [this, hsum]
        simp [hbnew]
        omega

/-- R218: the entries of the tree at a node are the paths from it. -/
theorem Holds.path {a : Arena} {x : Nat} {t : HTree} (h : Holds a x t) {s : Byte} {path bits : List Bool}
    (hm : (s, path ++ bits) ∈ t.entries path) : PathTo a s x bits := by
  induction h generalizing path bits with
  | leaf h =>
    simp only [HTree.entries, List.mem_singleton, Prod.mk.injEq] at hm
    obtain ⟨rfl, hb⟩ := hm
    have : bits = [] := by simpa using hb
    subst this
    exact .leaf h
  | node h _ _ _ _ ihl ihr =>
    rw [HTree.entries, List.mem_append] at hm
    rcases hm with hm | hm
    · obtain ⟨u, hu⟩ := HTree.entries_prefix hm
      have : bits = false :: u := by simpa using hu.symm
      subst this
      exact .left h (ihl (path := path ++ [false]) (by simpa using hm))
    · obtain ⟨u, hu⟩ := HTree.entries_prefix hm
      have : bits = true :: u := by simpa using hu.symm
      subst this
      exact .right h (ihr (path := path ++ [true]) (by simpa using hm))

end Sys2Proof.Machine
end

