-- ==== Sys2Proof/Laws/HufRead.lean ====
section
/-! SUPPORT. What a Huffman frame says bit by bit, its parse, and the scan of its payload (30_encoding.md R125 to R132,
42_huffman_coder.md R256 to R261). -/

namespace Sys2Proof.Machine

theorem tableSound_iff {T : List Entry} : TableSound T ↔ TableOk T := by
  constructor
  · rintro ⟨h1, h2⟩
    exact ⟨h1, List.pairwise_map.mpr h2⟩
  · rintro ⟨h1, h2⟩
    exact ⟨h1, List.pairwise_map.mp h2⟩

/-! ### The table -/

theorem TableReads.bounds {G : List Byte} {T : List Entry} (h : TableReads G T) :
    ∀ e ∈ T, 1 ≤ e.2.length ∧ e.2.length ≤ 255 := by
  induction h with
  | nil => simp
  | cons s bits field G T pos le size reads rest ih =>
    intro e he
    rcases List.mem_cons.mp he with rfl | he
    · exact ⟨pos, le⟩
    · exact ih e he

/-- The bytes of a table behind two bytes of another. -/
theorem byteAt_drop (F : List Byte) (p j : Nat) : byteAt (F.drop p) j = byteAt F (p + j) := by
  simp [byteAt, List.getD_eq_getElem?_getD, List.getElem?_drop]

theorem be32Read_drop (F : List Byte) (p : Nat) : be32Read (F.drop p) 0 = be32Read F p := by
  simp only [be32Read, byteAt_drop, Nat.add_zero, Nat.zero_add]

/-- One turn of the entry loop, by what stands at its offset. -/
theorem parseEntries_succ (F : List Byte) (c p : Nat) :
    (F.length < p + 2 ∧ parseEntries F (c + 1) p = .error (Raise.malformed .hufHdrShort 0)) ∨
    (p + 2 ≤ F.length ∧ byteAt F (p + 1) = 0 ∧ parseEntries F (c + 1) p = .error (Raise.malformed .hufBadLength 0)) ∨
    (p + 2 ≤ F.length ∧ byteAt F (p + 1) ≠ 0 ∧ F.length < p + 2 + ceilDiv (byteAt F (p + 1)) 8 ∧
      parseEntries F (c + 1) p = .error (Raise.malformed .hufHdrShort 0)) ∨
    (byteAt F (p + 1) ≠ 0 ∧ p + 2 + ceilDiv (byteAt F (p + 1)) 8 ≤ F.length ∧ parseEntries F (c + 1) p =
      match parseEntries F c (p + 2 + ceilDiv (byteAt F (p + 1)) 8) with
      | .error e => .error e
      | .ok (t, r) => .ok ((F.getD p 0,
          unpack ((F.drop (p + 2)).take (ceilDiv (byteAt F (p + 1)) 8)) (byteAt F (p + 1))) :: t, r)) := by
  simp only [parseEntries]
  by_cases h1 : F.length < p + 2
  · exact .inl ⟨h1, by rw [if_pos h1]⟩
  rw [if_neg h1]
  by_cases h2 : byteAt F (p + 1) = 0
  · exact .inr (.inl ⟨by omega, h2, by rw [if_pos h2]⟩)
  rw [if_neg h2]
  by_cases h3 : F.length < p + 2 + ceilDiv (byteAt F (p + 1)) 8
  · exact .inr (.inr (.inl ⟨by omega, h2, h3, by rw [if_pos h3]⟩))
  rw [if_neg h3]
  exact .inr (.inr (.inr ⟨h2, by omega, rfl⟩))

/-- R288: the entry loop over the entries that stand at its offset. -/
theorem TableReads.parse {G : List Byte} {T : List Entry} (h : TableReads G T) :
    ∀ {A R : List Byte} {c : Nat}, parseEntries (A ++ (G ++ R)) (T.length + c) A.length =
      match parseEntries (A ++ (G ++ R)) c (A.length + G.length) with
      | .error e => .error e
      | .ok (t, r) => .ok (T ++ t, r) := by
  induction h with
  | nil =>
    intro A R c
    simp only [List.length_nil, Nat.zero_add, Nat.add_zero, List.nil_append]
    cases parseEntries (A ++ R) c A.length <;> rfl
  | cons s bits field G T pos le size reads rest ih =>
    intro A R c
    have hc : ((s, bits) :: T).length + c = T.length + c + 1 := by simp; omega
    rw [hc]
    generalize hF : A ++ (s :: BitVec.ofNat 8 bits.length :: (field ++ G) ++ R) = F
    have hb : byteAt F (A.length + 1) = bits.length := by
      rw [← hF, byteAt_append_right (by omega)]
      simp [byteAt]
      omega
    have hs : F.getD A.length 0 = s := by
      rw [← hF, List.getD_append_right _ _ _ _ (le_refl _)]
      simp
    have hl : A.length + 2 + ceilDiv bits.length 8 ≤ F.length := by
      rw [← hF]
      simp
      omega
    have hd : (F.drop (A.length + 2)).take (ceilDiv bits.length 8) = field := by
      rw [← hF, ← List.drop_drop, List.drop_left, ← size]
      simp
    have hu : unpack field bits.length = bits :=
      (eq_unpack (by rw [size, ceilDiv_eight]; omega) reads).symm
    have hq : A.length + 2 + ceilDiv bits.length 8 = (A ++ s :: BitVec.ofNat 8 bits.length :: field).length := by
      simp
      omega
    have hF' : (A ++ s :: BitVec.ofNat 8 bits.length :: field) ++ (G ++ R) = F := by
      rw [← hF]
      simp
    have hi := ih (A := A ++ s :: BitVec.ofNat 8 bits.length :: field) (R := R) (c := c)
    rw [hF', ← hq] at hi
    rcases parseEntries_succ F (T.length + c) A.length with ⟨h', _⟩ | ⟨_, h', _⟩ | ⟨_, _, h', _⟩ | ⟨_, _, h'⟩
    · omega
    · omega
    · rw [hb] at h'; omega
    · rw [hb, hs, hd, hu, hi] at h'
      rw [h']
      have hlen : A.length + (s :: BitVec.ofNat 8 bits.length :: (field ++ G)).length =
          A.length + 2 + ceilDiv bits.length 8 + G.length := by
        simp
        omega
      rw [hlen]
      cases parseEntries F c (A.length + 2 + ceilDiv bits.length 8 + G.length) <;> rfl

/-- R288: what the entry loop reads stands at its offset. -/
theorem parseEntries_reads {F : List Byte} (c : Nat) : ∀ {p q : Nat} {T : List Entry}, p ≤ F.length →
    parseEntries F c p = .ok (T, q) → ∃ G, F.drop p = G ++ F.drop q ∧ TableReads G T ∧ q = p + G.length ∧ q ≤ F.length := by
  induction c with
  | zero =>
    intro p q T hp h
    simp only [parseEntries, Except.ok.injEq, Prod.mk.injEq] at h
    obtain ⟨rfl, rfl⟩ := h
    exact ⟨[], rfl, .nil, rfl, hp⟩
  | succ c ih =>
    intro p q T hp h
    rcases parseEntries_succ F c p with ⟨_, h'⟩ | ⟨_, _, h'⟩ | ⟨_, _, _, h'⟩ | ⟨hb, hl, h'⟩ <;> rw [h'] at h
    · cases h
    · cases h
    · cases h
    · cases hr : parseEntries F c (p + 2 + ceilDiv (byteAt F (p + 1)) 8) with
      | error e => rw [hr] at h; cases h
      | ok x =>
        obtain ⟨t, r⟩ := x
        rw [hr] at h
        simp only [Except.ok.injEq, Prod.mk.injEq] at h
        obtain ⟨rfl, rfl⟩ := h
        obtain ⟨G, hG, hT, hq, hqF⟩ := ih hl hr
        have hbl : byteAt F (p + 1) < 256 := (F.getD (p + 1) 0).isLt
        have hfl : ((F.drop (p + 2)).take (ceilDiv (byteAt F (p + 1)) 8)).length = ceilDiv (byteAt F (p + 1)) 8 := by
          rw [List.length_take, List.length_drop]
          omega
        have hfit : byteAt F (p + 1) ≤ 8 * ((F.drop (p + 2)).take (ceilDiv (byteAt F (p + 1)) 8)).length := by
          rw [hfl, ceilDiv_eight]
          omega
        have hul := unpack_length _ _ hfit
        have hsplit : F.drop p = F.getD p 0 :: F.getD (p + 1) 0 ::
            ((F.drop (p + 2)).take (ceilDiv (byteAt F (p + 1)) 8) ++ (F.drop (p + 2)).drop (ceilDiv (byteAt F (p + 1)) 8)) := by
          rw [List.take_append_drop, List.drop_eq_getElem_cons (by omega), List.drop_eq_getElem_cons (by omega),
            List.getD_eq_getElem _ _ (by omega), List.getD_eq_getElem _ _ (by omega)]
        have hbyte : F.getD (p + 1) 0 = BitVec.ofNat 8 (byteAt F (p + 1)) := by simp [byteAt]
        refine ⟨_, ?_, TableReads.cons (F.getD p 0) _ ((F.drop (p + 2)).take (ceilDiv (byteAt F (p + 1)) 8)) G t
          (by rw [hul]; omega) (by rw [hul]; omega) (by rw [hul, hfl])
          (fun j hj => unpack_getD _ (by rwa [hul] at hj)) hT, ?_, hqF⟩
        · rw [hsplit, hul, hbyte, List.drop_drop, hG]
          simp
        · rw [hq]
          simp [hfl]
          omega

/-- R287: the entries a serializer writes. -/
theorem TableReads.written (T : List Entry) (h : ∀ e ∈ T, 1 ≤ e.2.length ∧ e.2.length ≤ 255) :
    TableReads (T.flatMap fun e => serializeEntry e.1 e.2) T := by
  induction T with
  | nil => exact .nil
  | cons e T ih =>
    have := TableReads.cons e.1 e.2 (pack e.2) _ T (h e (by simp)).1 (h e (by simp)).2 (pack_length _)
      (fun j _ => (pack_bitAt _ _).symm) (ih fun f hf => h f (by simp [hf]))
    rw [List.flatMap_cons, serializeEntry]
    simpa using this

/-- R288: the table at the head of a frame parses to its entries. -/
theorem HufTableAt.parse {F R : List Byte} {T : List Entry} (h : HufTableAt F T R) :
    parseTable F = .ok (T.length, T, F.length - R.length) ∧ F.drop (F.length - R.length) = R ∧ 2 ≤ F.length := by
  obtain ⟨hi, lo, G, rfl, hc, hle, hG⟩ := h
  have hp := hG.parse (A := [hi, lo]) (R := R) (c := 0)
  simp only [parseEntries, List.append_nil, Nat.add_zero, List.length_cons, List.length_nil, List.cons_append,
    List.nil_append] at hp
  have hlen : (hi :: lo :: (G ++ R)).length - R.length = 0 + 1 + 1 + G.length := by
    simp
    omega
  have hr : be16Read (hi :: lo :: (G ++ R)) 0 = T.length := by
    rw [← hc]
    simp [be16Read, byteAt]
  refine ⟨?_, ?_, by simp⟩
  · unfold parseTable
    rw [if_neg (by simp)]
    simp only [hr]
    rw [if_neg (by omega), hp, hlen]
  · rw [hlen, Nat.add_comm, ← List.drop_drop]
    simp

/-- R288: what parses as a table stands at the head of the frame. -/
theorem HufTableAt.of_parse {F : List Byte} {c p : Nat} {T : List Entry} (h : parseTable F = .ok (c, T, p)) :
    HufTableAt F T (F.drop p) ∧ c = T.length ∧ p ≤ F.length := by
  rcases parseTable_cases F with ⟨d, _, h'⟩ | ⟨h2, hc, T', p', he, hT, h'⟩ <;> rw [h'] at h
  · cases h
  · simp only [Except.ok.injEq, Prod.mk.injEq] at h
    obtain ⟨rfl, rfl, rfl⟩ := h
    obtain ⟨G, hG, hR, hq, hqF⟩ := parseEntries_reads _ (by omega) he
    refine ⟨⟨F.getD 0 0, F.getD 1 0, G, ?_, ?_, by omega, hR⟩, hT.symm, hqF⟩
    · rw [← hG]
      have := List.drop_zero (l := F)
      rw [List.drop_eq_getElem_cons (by omega), List.drop_eq_getElem_cons (by omega)] at this
      rw [List.getD_eq_getElem _ _ (by omega), List.getD_eq_getElem _ _ (by omega)]
      exact this.symm
    · rw [hT]
      simp [be16Read, byteAt]

/-! ### The trailer -/

/-- R259: the trailer parse looks at what follows its offset. -/
theorem parseTrailer_drop {F : List Byte} {p : Nat} (h : p ≤ F.length) :
    parseTrailer F p = parseTrailer (F.drop p) 0 := by
  simp only [parseTrailer, be32Read_drop, byteAt_drop, List.length_drop, Nat.zero_add]
  have h1 : (F.length < p + 5) = (F.length - p < 5) := propext ⟨fun _ => by omega, fun _ => by omega⟩
  have h2 : F.length - (p + 5) = F.length - p - 5 := by omega
  simp only [h1, h2]

/-- R259: a trailer that passes the checks is one of the payload bits it announces. -/
theorem HufTrailerAt.of_checks {R : List Byte} (h5 : 5 ≤ R.length) (hp : byteAt R 4 = padLen (be32Read R 0))
    (hl : R.length - 5 = ceilDiv (be32Read R 0) 8) : HufTrailerAt R (unpack (R.drop 5) (be32Read R 0)) := by
  have hu : (unpack (R.drop 5) (be32Read R 0)).length = be32Read R 0 :=
    unpack_length _ _ (by rw [List.length_drop, hl, ceilDiv_eight]; omega)
  exact
    { length := by rw [hu]; omega, bitlen := hu.symm, pad := by rw [hu]; exact hp
      reads := fun j hj => unpack_getD _ (by rwa [hu] at hj) }

/-- R259: what the trailer parse accepts is a trailer of the payload bits behind it. -/
theorem HufTrailerAt.of_parse {F : List Byte} {p b pad : Nat} (h : parseTrailer F p = .ok (b, pad)) :
    HufTrailerAt (F.drop p) (unpack (F.drop (p + 5)) b) ∧ pad = padLen b := by
  rcases parseTrailer_cases F p with ⟨d, _, h4⟩ | ⟨h5, h6, h7, h4⟩ <;> rw [h4] at h
  · cases h
  · obtain ⟨hb, hpad⟩ := Prod.mk.inj (Except.ok.inj h)
    rw [hb] at h6 h7 hpad
    have := HufTrailerAt.of_checks (R := F.drop p) (by rw [List.length_drop]; omega)
      (by rw [byteAt_drop, be32Read_drop, hb, h6]) (by rw [be32Read_drop, hb, List.length_drop, ← h7]; omega)
    rw [List.drop_drop, be32Read_drop, hb] at this
    exact ⟨this, hpad.symm⟩

/-- R125, R131: the trailer an encoder writes. -/
theorem HufTrailerAt.written {bits : List Bool} (h : bits.length < 2 ^ 32) :
    HufTrailerAt (be32 bits.length ++ [BitVec.ofNat 8 (padLen bits.length)] ++ pack bits) bits where
  length := by simp [be32_length, pack_length]; omega
  bitlen := by
    have := be32Read_be32 h [] ([BitVec.ofNat 8 (padLen bits.length)] ++ pack bits)
    rwa [List.nil_append, List.length_nil, ← List.append_assoc] at this
  pad := by
    have := padLen_lt bits.length
    rw [byteAt_append_left (by simp [be32_length]), byteAt_append_right (by simp [be32_length])]
    simp [be32_length, byteAt]
    omega
  reads := fun j _ => by
    rw [List.drop_left' (by simp [be32_length]), pack_bitAt]

/-- R259, R131: the trailer and the payload bits behind it. -/
theorem HufTrailerAt.parse {R : List Byte} {bits : List Bool} (h : HufTrailerAt R bits) :
    parseTrailer R 0 = .ok (bits.length, padLen bits.length) ∧ unpack (R.drop 5) bits.length = bits := by
  have hl := h.length
  constructor
  · unfold parseTrailer
    rw [if_neg (by omega)]
    have hp := h.pad
    have hb := h.bitlen
    simp only [Nat.zero_add, hp, hb, ne_eq, not_true_eq_false, if_false]
    rw [if_neg (by omega)]
  · refine (eq_unpack ?_ h.reads).symm
    rw [List.length_drop, hl, ceilDiv_eight]
    omega

/-! ### The scan -/

/-- R317: a codeword that ends when the output is full. -/
theorem hufScanLoop_full {T : List Entry} {cap : Nat} {e : Entry} (he : e ∈ T) {j start : Nat} {out : List Byte}
    {rest : List Bool} (hne : e.2 ≠ []) (hcap : cap < out.length + 1) :
    hufScanLoop cap T j (e.2 ++ rest) { acc := [], start := start, out := out } = .error (Raise.capacity .capOut) := by
  have key : ∀ (suf pre : List Bool) (j : Nat), suf ≠ [] → e.2 = pre ++ suf →
      hufScanLoop cap T j (suf ++ rest) { acc := pre, start := start, out := out } = .error (Raise.capacity .capOut) := by
    intro suf
    induction suf with
    | nil => intro _ _ h; exact absurd rfl h
    | cons b bs ih =>
      intro pre j _ hcw
      rw [List.cons_append, hufScanLoop]
      rcases hufScanStep_cases cap T j b { acc := pre, start := start, out := out } with ⟨hf, h⟩ | ⟨f, hf, _, h⟩ | ⟨f, hf, hc, h⟩
      · rw [h]
        cases bs with
        | nil =>
          have := List.find?_eq_none.mp hf e he
          simp [hcw] at this
        | cons b' bs => exact ih (pre ++ [b]) (j + 1) (by simp) (by simp [hcw])
      · rw [h]
      · simp only at hc
        omega
  simpa using key e.2 [] j hne (by simp)

/-- R260, R317: the scan of whole codewords. -/
theorem hufScanLoop_word {T : List Entry} (hT : TableOk T) (hpos : ∀ e ∈ T, 1 ≤ e.2.length) {cap : Nat} (word : List Entry) :
    (∀ e ∈ word, e ∈ T) → ∀ {j : Nat} {out : List Byte} {rest : List Bool}, out.length ≤ cap →
      (out.length + word.length ≤ cap →
        hufScanLoop cap T j (word.flatMap Prod.snd ++ rest) { acc := [], start := j, out := out } =
          hufScanLoop cap T (j + (word.flatMap Prod.snd).length) rest
            { acc := [], start := j + (word.flatMap Prod.snd).length, out := out ++ word.map Prod.fst }) ∧
      (cap < out.length + word.length →
        hufScanLoop cap T j (word.flatMap Prod.snd ++ rest) { acc := [], start := j, out := out } =
          .error (Raise.capacity .capOut)) := by
  induction word with
  | nil =>
    intro _ j out rest _
    refine ⟨fun _ => ?_, fun h => by simp at h; omega⟩
    simp
  | cons e word ih =>
    intro hw j out rest hout
    have heT := hw e (by simp)
    have hne : e.2 ≠ [] := by
      have := hpos e heT
      intro h
      simp [h] at this
    simp only [List.flatMap_cons, List.append_assoc, List.length_append, List.length_cons, List.map_cons]
    by_cases hc : out.length + 1 ≤ cap
    · rw [hufScanLoop_codeword hT heT e.2 (pre := []) (start := j) (j := j) (out := out)
        (rest := word.flatMap Prod.snd ++ rest) hne rfl hc]
      have hi := ih (fun f hf => hw f (by simp [hf])) (j := j + e.2.length) (out := out ++ [e.1]) (rest := rest)
        (by simpa using hc)
      constructor
      · intro h
        rw [hi.1 (by simp; omega), Nat.add_assoc, List.append_assoc]
        rfl
      · intro h
        exact hi.2 (by simp; omega)
    · refine ⟨fun h => by omega, fun _ => ?_⟩
      exact hufScanLoop_full heT hne (by omega)
/-- R260: what a scan that runs to the end has read. -/
theorem hufScanLoop_sound {T : List Entry} {cap : Nat} (bits : List Bool) :
    ∀ {j : Nat} {d d' : HufScan}, hufScanLoop cap T j bits d = .ok d' →
      ∃ word : List Entry, (∀ e ∈ word, e ∈ T) ∧ d.acc ++ bits = word.flatMap Prod.snd ++ d'.acc ∧
        d'.out = d.out ++ word.map Prod.fst := by
  induction bits with
  | nil =>
    intro j d d' h
    rw [hufScanLoop] at h
    cases h
    exact ⟨[], by simp, by simp, by simp⟩
  | cons b bs ih =>
    intro j d d' h
    rw [hufScanLoop] at h
    rcases hufScanStep_cases cap T j b d with ⟨_, hs⟩ | ⟨e, _, _, hs⟩ | ⟨e, hf, _, hs⟩ <;> rw [hs] at h
    · obtain ⟨word, hw, hb, ho⟩ := ih h
      exact ⟨word, hw, by simpa using hb, ho⟩
    · cases h
    · obtain ⟨word, hw, hb, ho⟩ := ih h
      have he := List.find?_some hf
      refine ⟨e :: word, ?_, ?_, ?_⟩
      · intro f hf'
        rcases List.mem_cons.mp hf' with rfl | hf'
        · exact List.mem_of_find?_eq_some hf
        · exact hw f hf'
      · have he' : e.2 = d.acc ++ [b] := by simpa using he
        rw [List.flatMap_cons, he', List.append_assoc, List.append_assoc, ← hb]
        simp
      · simpa using ho

/-- R261: bits that begin with no codeword stay in the accumulator. -/
theorem hufScanLoop_none {T : List Entry} {cap : Nat} (rest : List Bool) :
    ∀ {j : Nat} {d : HufScan}, (∀ e ∈ T, ∀ k, 0 < k → k ≤ rest.length → e.2 ≠ d.acc ++ rest.take k) →
      hufScanLoop cap T j rest d = .ok { d with acc := d.acc ++ rest } := by
  induction rest with
  | nil => intro j d _; simp [hufScanLoop]
  | cons b bs ih =>
    intro j d h
    rw [hufScanLoop]
    rcases hufScanStep_cases cap T j b d with ⟨_, hs⟩ | ⟨e, hf, _, hs⟩ | ⟨e, hf, _, hs⟩
    · rw [hs]
      have := ih (j := j + 1) (d := { d with acc := d.acc ++ [b] }) fun e he k hk hl => by
        have := h e he (k + 1) (by omega) (by simpa using hl)
        simpa using this
      refine this.trans ?_
      simp
    · have he := List.find?_some hf
      have := h e (List.mem_of_find?_eq_some hf) 1 (by omega) (by simp)
      simp at he this
      exact absurd he this
    · have he := List.find?_some hf
      have := h e (List.mem_of_find?_eq_some hf) 1 (by omega) (by simp)
      simp at he this
      exact absurd he this

/-- R260: the scan's end. -/
theorem hufScan_of_loop {cap : Nat} {T : List Entry} {bits : List Bool} {d : HufScan}
    (h : hufScanLoop cap T 0 bits HufScan.init = .ok d) :
    hufScan cap T bits = if d.acc.length = 0 then .ok d else .error (Raise.malformed .hufTrailingBits d.start) := by
  rw [hufScan, h]

/-- R256: HUF_DECODE behind a sound table and a right trailer. -/
theorem hufDecode_of_frame {cfg : Config} {F R : List Byte} {T : List Entry} {bits : List Bool} (hT : HufTableAt F T R)
    (hS : TableSound T) (hR : HufTrailerAt R bits) :
    (∃ e, hufScan cfg.outCap T bits = .error e ∧ hufDecode cfg F = .error e) ∨
    (∃ d hid, hufScan cfg.outCap T bits = .ok d ∧ hufDecode cfg F =
      .ok ({ out := d.out, hufSymbols := T.length, hufBitlen := bits.length, hufPad := padLen bits.length }, hid)) := by
  obtain ⟨hp, hd, h2⟩ := hT.parse
  have hok := tableSound_iff.mp hS
  have ht := hR.parse
  rw [hufDecode_of_table cfg (by omega) hp]
  unfold hufDecodeBody
  rw [(uniqueSymbols_iff _).mpr hok.syms, (prefixFree_iff _).mpr hok.free, parseTrailer_drop (Nat.sub_le _ _), hd, ht.1]
  simp only [Bool.not_true, Bool.false_eq_true, if_false]
  rw [← List.drop_drop, hd, ht.2]
  cases hufScan cfg.outCap T bits with
  | error e => exact .inl ⟨e, rfl, rfl⟩
  | ok d => exact .inr ⟨d, _, rfl, rfl⟩

/-- R257, R258: HUF_DECODE on a table that is not sound. -/
theorem hufDecode_unsound {cfg : Config} {F R : List Byte} {T : List Entry} (hT : HufTableAt F T R) :
    (¬ (T.map Prod.fst).Nodup → hufDecode cfg F = .error (Raise.malformed .hufDupSymbol 0)) ∧
    ((T.map Prod.fst).Nodup → ¬ CodesFree (T.map Prod.snd) →
      hufDecode cfg F = .error (Raise.malformed .hufNotPrefixFree 0)) := by
  obtain ⟨hp, hd, h2⟩ := hT.parse
  rw [hufDecode_of_table cfg (by omega) hp]
  unfold hufDecodeBody
  constructor
  · intro h
    have : uniqueSymbols T = false := by
      rw [← Bool.not_eq_true, uniqueSymbols_iff]
      exact h
    rw [this]
    rfl
  · intro h h'
    have : prefixFree T = false := by
      rw [← Bool.not_eq_true, prefixFree_iff]
      exact h'
    rw [(uniqueSymbols_iff _).mpr h, this]
    rfl

/-- R260: HUF_DECODE of a frame whose payload spells a string that fits OBUF. -/
theorem hufDecode_spells {cfg : Config} {F R : List Byte} {T : List Entry} {bits : List Bool} {out : List Byte}
    (hT : HufTableAt F T R) (hS : TableSound T) (hR : HufTrailerAt R bits) (hw : Spells T bits out)
    (hcap : out.length ≤ cfg.outCap) :
    ∃ hid, hufDecode cfg F =
      .ok ({ out := out, hufSymbols := T.length, hufBitlen := bits.length, hufPad := padLen bits.length }, hid) := by
  obtain ⟨word, hw1, hw2, rfl⟩ := hw
  obtain ⟨hi, lo, G, _, _, _, hG⟩ := id hT
  have hl := (hufScanLoop_word (tableSound_iff.mp hS) (fun e he => (hG.bounds e he).1) (cap := cfg.outCap) word hw1 (j := 0)
    (out := []) (rest := []) (by simp)).1 (by simpa using hcap)
  simp only [List.append_nil, ← hw2, List.nil_append, Nat.zero_add] at hl
  have hsc := hufScan_of_loop (bits := bits) (T := T) (cap := cfg.outCap)
    (d := ⟨[], bits.length, word.map Prod.fst⟩) (by rw [HufScan.init, hl]; rfl)
  rw [if_pos (by rfl)] at hsc
  rcases hufDecode_of_frame (cfg := cfg) hT hS hR with ⟨e, he, _⟩ | ⟨d, hid, hd, hx⟩
  · rw [hsc] at he
    cases he
  · rw [hsc] at hd
    cases hd
    exact ⟨hid, hx⟩

/-- R317: HUF_DECODE of a frame whose payload begins with codewords of a string that does not fit OBUF. -/
theorem hufDecode_overflows {cfg : Config} {F R : List Byte} {T : List Entry} {bits rest : List Bool} {out : List Byte}
    (hT : HufTableAt F T R) (hS : TableSound T) (hR : HufTrailerAt R (bits ++ rest)) (hw : Spells T bits out)
    (hcap : cfg.outCap < out.length) : hufDecode cfg F = .error (Raise.capacity .capOut) := by
  obtain ⟨word, hw1, hw2, rfl⟩ := hw
  obtain ⟨hi, lo, G, _, _, _, hG⟩ := id hT
  have hl := (hufScanLoop_word (tableSound_iff.mp hS) (fun e he => (hG.bounds e he).1) (cap := cfg.outCap) word hw1 (j := 0)
    (out := []) (rest := rest) (by simp)).2 (by simpa using hcap)
  rw [← hw2] at hl
  rcases hufDecode_of_frame (cfg := cfg) hT hS hR with ⟨e, he, hx⟩ | ⟨d, hid, hd, hx⟩
  · rw [hufScan, HufScan.init, hl] at he
    cases he
    exact hx
  · rw [hufScan, HufScan.init, hl] at hd
    cases hd

end Sys2Proof.Machine
end

