-- ==== Sys2Proof/Laws/Machine.lean ====
section
/-! SUPPORT. What a transaction, a host line, a turn and a step can do, once each (20_memory.md R80 to R98). -/

namespace Sys2Proof.Machine

/-! ### Transactions -/

theorem registerOk_offset (r : Reg) : registerOk 32 r.offset = true := by cases r <;> rfl

theorem Reg.offset_of_ok {width off : Nat} (h : registerOk width off = true) : width = 32 ∧ ∃ r : Reg, r.offset = off := by
  simp only [registerOk, Bool.and_eq_true, beq_iff_eq, decide_eq_true_eq] at h
  obtain ⟨⟨hw, hm⟩, hle⟩ := h
  refine ⟨hw, ?_⟩
  have : off = 0 ∨ off = 4 ∨ off = 8 ∨ off = 12 ∨ off = 16 ∨ off = 20 ∨ off = 24 ∨ off = 28 ∨ off = 32 ∨ off = 36 ∨
      off = 40 ∨ off = 44 ∨ off = 48 ∨ off = 52 ∨ off = 56 ∨ off = 60 := by omega
  rcases this with rfl | rfl | rfl | rfl | rfl | rfl | rfl | rfl | rfl | rfl | rfl | rfl | rfl | rfl | rfl | rfl
  exacts [⟨.command, rfl⟩, ⟨.status, rfl⟩, ⟨.inLen, rfl⟩, ⟨.outLen, rfl⟩, ⟨.lzwWidth, rfl⟩, ⟨.lzwCount, rfl⟩,
    ⟨.hufSymbols, rfl⟩, ⟨.hufBitlen, rfl⟩, ⟨.hufPad, rfl⟩, ⟨.errDetail, rfl⟩, ⟨.errPos, rfl⟩, ⟨.reserved2C, rfl⟩,
    ⟨.capIn, rfl⟩, ⟨.capOut, rfl⟩, ⟨.capDict, rfl⟩, ⟨.reserved3C, rfl⟩]

/-- R82: a read of a register. -/
theorem transact_regRead (r : Reg) (s : State) : transact (.regRead 32 r.offset) s = .next (s.hostReadReg r) := by
  simp [transact, Transaction.refusal, registerOk_offset, State.perform, Reg.ofOffset_offset]

/-- R82: a write of a register. -/
theorem transact_regWrite (r : Reg) (v : Word) (s : State) :
    transact (.regWrite 32 r.offset v) s = .next (s.writeReg r v) := by
  simp [transact, Transaction.refusal, registerOk_offset, State.perform, Reg.ofOffset_offset]

/-- R116: a write of COMMAND. -/
theorem transact_command (v : Word) (s : State) : transact (.regWrite 32 0x00 v) s = .next (s.commandWrite v) :=
  transact_regWrite .command v s

theorem transact_register_refused {width off : Nat} (h : registerOk width off = false) (s : State) :
    transact (.regRead width off) s = .refused (.registerAccess width off) ∧
      ∀ v, transact (.regWrite width off v) s = .refused (.registerAccess width off) := by
  simp [transact, Transaction.refusal, h]

theorem transact_ibufRead {s : State} {i : Nat} (h : i < s.cfg.inCap) :
    transact (.ibufRead i) s = .next (s.sees (.ibuf i (s.ibufByte i))) := by
  simp [transact, Transaction.refusal, h, State.perform]

theorem transact_ibufWrite {s : State} {i : Nat} (h : i < s.cfg.inCap) (b : Byte) :
    transact (.ibufWrite i b) s = .next (s.writeIbuf i b) := by
  simp [transact, Transaction.refusal, h, State.perform]

theorem transact_obufRead {s : State} {i : Nat} (h : i < s.cfg.outCap) :
    transact (.obufRead i) s = .next (s.hostReadObuf i) := by
  simp [transact, Transaction.refusal, h, State.perform]

theorem transact_obufWrite {s : State} {i : Nat} (h : i < s.cfg.outCap) (b : Byte) :
    transact (.obufWrite i b) s = .next s := by
  simp [transact, Transaction.refusal, h, State.perform]

theorem transact_next {x : Transaction} {s : State} (h : x.inContract s.cfg = true) :
    transact x s = .next (s.perform x) := by
  simp only [Transaction.inContract, Option.isNone_iff_eq_none] at h
  simp [transact, h]

theorem transact_cases (x : Transaction) (s : State) :
    (x.inContract s.cfg = true ∧ transact x s = .next (s.perform x)) ∨
    (x.inContract s.cfg = false ∧ ∃ r, transact x s = .refused r) := by
  cases h : x.refusal s.cfg with
  | none => exact .inl ⟨by simp [Transaction.inContract, h], by simp [transact, h]⟩
  | some r => exact .inr ⟨by simp [Transaction.inContract, h], r, by simp [transact, h]⟩

/-! ### What a read answers -/

/-- A read of a register that no running command leaves open. -/
theorem reads_reg {s : State} {r : Reg} (h : s.isBusy = false ∨ r.isResult = false) :
    s.Reads r.offset (s.regValue r).toNat := by
  have hb : (s.isBusy && r.isResult) = false := by rcases h with h | h <;> simp [h]
  refine ⟨s.regValue r, rfl, ?_⟩
  rw [transact_regRead, State.hostReadReg]
  simp [State.readReg, hb]

/-- R35: the fields of STATUS at their places. -/
theorem State.statusWord_toNat (s : State) :
    s.statusWord.toNat =
      s.lastOp.toNat * 2 ^ 8 + s.err.code.toNat * 2 ^ 4 + s.done.toNat * 2 + s.isBusy.toNat := by
  have h1 := s.lastOp.isLt
  have h2 := s.err.code.isLt
  unfold State.statusWord
  simp only [BitVec.toNat_append, BitVec.toNat_ofBool, BitVec.toNat_ofNat, Nat.shiftLeft_eq, Nat.zero_mod,
    Nat.zero_mul, Nat.zero_or]
  have hd : s.done.toNat < 2 := Bool.toNat_lt _
  have hb : s.isBusy.toNat < 2 := Bool.toNat_lt _
  generalize s.done.toNat = d at *
  generalize s.isBusy.toNat = b at *
  generalize s.lastOp.toNat = l at *
  generalize s.err.code.toNat = e at *
  rw [← Nat.shiftLeft_eq, ← Nat.shiftLeft_eq, ← Nat.shiftLeft_eq, ← Nat.shiftLeft_eq]
  rw [Nat.or_zero]
  rw [Nat.shiftLeft_eq, Nat.shiftLeft_eq, Nat.shiftLeft_eq, Nat.shiftLeft_eq]
  have ha : l * 2 ^ 4 ||| e = l * 2 ^ 4 + e := by
    rw [Nat.mul_comm, Nat.two_pow_add_eq_or_of_lt h2]
  have hc : (l * 2 ^ 4 + e) * 2 ^ 2 * 2 ^ 1 ||| d = ((l * 2 ^ 4 + e) * 2 ^ 2) * 2 ^ 1 + d := by
    rw [Nat.mul_comm, Nat.two_pow_add_eq_or_of_lt (by omega)]
  have hf : (((l * 2 ^ 4 + e) * 2 ^ 2) * 2 ^ 1 + d) * 2 ^ 1 ||| b = (((l * 2 ^ 4 + e) * 2 ^ 2) * 2 ^ 1 + d) * 2 ^ 1 + b := by
    rw [Nat.mul_comm, Nat.two_pow_add_eq_or_of_lt (by omega)]
  rw [ha, hc, hf]
  ring

end Sys2Proof.Machine
end

