-- ==== Sys2Proof/Laws/Steps.lean ====
section
/-! SUPPORT. The COMMAND word, how a command ends, and what a turn keeps (30_encoding.md R111 to R116, 60_exceptions.md R310,
20_memory.md R95, R96). -/

namespace Sys2Proof.Machine

/-! ### The COMMAND word -/

theorem rsvdField_iff (w : Word) : rsvdField w = 0#28 ↔ w.toNat < 16 := by
  rw [rsvdField, ← BitVec.toNat_inj, BitVec.extractLsb'_toNat, Nat.shiftRight_eq_div_pow]
  have := w.isLt
  simp
  omega

/-- R113: a word with a reserved bit set. -/
theorem decode_reserved {w : Word} (h : 16 ≤ w.toNat) : decode w = .error .reservedBits := by
  rw [decode, if_pos]
  intro h'
  have := (rsvdField_iff w).mp h'
  omega

theorem opField_toNat (v : Word) : (opField v).toNat = v.toNat % 16 := by
  simp [opField, BitVec.extractLsb'_toNat]

theorem decode_encode (i : Instr) : decode (encode i) = .ok i := by cases i <;> decide

theorem opField_encode (i : Instr) : opField (encode i) = i.opcode := by cases i <;> decide

/-- R114: the OP field of an accepted word is the command's opcode. -/
theorem opField_of_decode {v : Word} {i : Instr} (hd : decode v = .ok i) : opField v = i.opcode := by
  unfold decode at hd
  split at hd
  · cases hd
  · split at hd
    · rename_i j hj
      cases hd
      unfold instrOfOpcode at hj
      split_ifs at hj <;> cases hj <;> assumption
    · cases hd

/-- R116, R315: a rejected word is an error of the kind BAD_COMMAND. -/
theorem Raise.good_badCommand (e : CommandError) : (Raise.badCommand (badCommandDetail e)).Good := by
  cases e <;>
    exact
      { kind := rfl, failed := by simp [Raise.badCommand, badCommandDetail], pos_lt := by simp [Raise.badCommand]
        pos := fun _ _ => rfl }

/-- What a failure leaves does not depend on the rest of the state it came in. -/
theorem State.Failed.of_draws {s u t : State} {d : Detail} {pos : Nat} (h : s.Failed t d pos) (hd : u.draws = s.draws) :
    u.Failed t d pos :=
  { h with obuf := by rw [hd]; exact h.obuf }

/-! ### The configuration's ranges -/

theorem wf_inCap {c : Config} (h : c.wf = true) : c.inCap < 2 ^ 29 := by
  simp only [Config.wf, Config.inCapOk, Config.outCapOk, Config.dictSizeOk, Bool.and_eq_true, decide_eq_true_eq] at h
  omega

theorem wf_outCap {c : Config} (h : c.wf = true) : c.outCap < 2 ^ 32 := by
  simp only [Config.wf, Config.inCapOk, Config.outCapOk, Config.dictSizeOk, Bool.and_eq_true, decide_eq_true_eq] at h
  omega

theorem wf_dictSize {c : Config} (h : c.wf = true) : 256 ≤ c.dictSize ∧ c.dictSize ≤ 2 ^ 31 := by
  simp only [Config.wf, Config.inCapOk, Config.outCapOk, Config.dictSizeOk, Bool.and_eq_true, decide_eq_true_eq] at h
  omega

theorem lzwBound_mono (c : Config) {a b : Nat} (h : a ≤ b) : c.lzwBound a ≤ c.lzwBound b := by
  unfold Config.lzwBound
  have := Nat.mul_le_mul_right c.wMax h
  simp only [ceilDiv_eight]
  split_ifs <;> omega

theorem hufBound_mono {a b : Nat} (h : a ≤ b) : Config.hufBound a ≤ Config.hufBound b := by
  unfold Config.hufBound
  split_ifs <;> omega

/-! ### How a command ends -/

/-- R310: a command ends with an error or with a success. -/
theorem exec_cases (i : Instr) {s : State} (hc : s.cfg.wf = true) :
    (∃ e : Raise, e.Good ∧ exec i s = .next (s.completeErr e) ∧
      ((s.cfg.inCap < s.latchedLen.toNat ∧ e = Raise.capacity .capInLen) ∨
        (s.latchedLen.toNat ≤ s.cfg.inCap ∧ engineOf i s.cfg s.input = .error e))) ∨
    (∃ (r : Success) (h : Hidden), r.Good s.cfg ∧ exec i s = .next (State.completeOk r { s with hidden := h }) ∧
      s.latchedLen.toNat ≤ s.cfg.inCap ∧ engineOf i s.cfg s.input = .ok (r, h)) := by
  have hin := wf_inCap hc
  have hl := s.input_length
  rcases s.runCommand_cases (engineOf i) with ⟨h, hr⟩ | ⟨h, e, he, hr⟩ | ⟨h, r, x, he, hr⟩
  · exact .inl ⟨_, Raise.good_capacity rfl, by rw [exec_eq, hr], .inl ⟨h, rfl⟩⟩
  · exact .inl ⟨e, (engineOf_good i (by omega)).2 e he, by rw [exec_eq, hr], .inr ⟨h, he⟩⟩
  · exact .inr ⟨r, x, (engineOf_good i (by omega)).1 r x he, by rw [exec_eq, hr], h, he⟩

/-- A command in a state that ended without an error. -/
theorem exec_ok_cases {i : Instr} {s t : State} (hc : s.cfg.wf = true) (ht : exec i s = .next t) (hok : t.err = .ok) :
    ∃ r h, engineOf i s.cfg s.input = .ok (r, h) ∧ t = State.completeOk r { s with hidden := h } ∧ r.Good s.cfg ∧
      s.latchedLen.toNat ≤ s.cfg.inCap := by
  rcases exec_cases i hc with ⟨e, hg, hx, _⟩ | ⟨r, h, hg, hx, hl, he⟩ <;> rw [hx] at ht <;> cases ht
  · exact absurd hok (State.failed_completeErr hg s).failed
  · exact ⟨r, h, he, rfl, hg, hl⟩

/-- R310: what every completion does. -/
theorem exec_done {i : Instr} {s t : State} (ht : exec i s = .next t) :
    t.seq = .idle ∧ t.done = true ∧ t.lastOp = s.lastOp ∧ t.schedule = s.schedule ∧ t.host = s.host ∧ t.cfg = s.cfg := by
  rw [exec_eq] at ht
  cases ht
  rcases s.runCommand_cases (engineOf i) with ⟨_, h⟩ | ⟨_, e, _, h⟩ | ⟨_, r, x, _, h⟩ <;> rw [h] <;>
    exact ⟨rfl, rfl, rfl, rfl, rfl, rfl⟩

/-- R50, R311: every completion writes ERR with the kind of its detail. -/
theorem exec_kind {i : Instr} {s t : State} (ht : exec i s = .next t) : t.err = t.res.errDetail.kind := by
  rw [exec_eq] at ht
  cases ht
  rcases s.runCommand_cases (engineOf i) with ⟨_, h⟩ | ⟨_, e, he, h⟩ | ⟨_, r, x, _, h⟩ <;> rw [h]
  · rfl
  · exact (engineOf_raises he).kind
  · rfl

theorem latchedLen_of_nil {s : State} (h : s.input = []) : s.latchedLen = 0 := by
  have := State.input_length s
  rw [h] at this
  exact BitVec.eq_of_toNat_eq this.symm

/-- R119, R126: the engines on the empty input. -/
theorem exec_nil {i : Instr} {s : State} (h : s.latchedLen = 0) :
    exec i s = .next (State.completeOk { out := [] } { s with hidden := Hidden.init }) := by
  have hin : s.input = [] := by
    rw [← List.length_eq_zero_iff, State.input_length, h]
    rfl
  have he : engineOf i s.cfg [] = .ok ({ out := [] }, Hidden.init) := by cases i <;> rfl
  rw [exec_eq, State.runCommand_ok (by rw [h]; exact Nat.zero_le _) (by rw [hin]; exact he)]

theorem succeeded_nil (s : State) : (State.completeOk { out := [] } s).Succeeded [] 0 0 0 0 0 :=
  ⟨rfl, rfl, rfl, rfl, rfl, rfl, rfl, rfl, rfl, rfl, rfl, fun i h => by simp at h⟩

/-- R43: n_sym is the number of distinct symbols. -/
theorem hufBuild_nSym_dedup (X : List Byte) : (hufBuild X).nSym = X.dedup.length := by
  rw [hufBuild_nSym]
  refine List.Perm.length_eq ?_
  rw [List.perm_ext_iff_of_nodup (distinctSyms_nodup X) X.nodup_dedup]
  intro a
  rw [mem_distinctSyms, List.mem_dedup]

/-- R104: the input of a command whose frame was copied from OBUF to IBUF. -/
theorem input_of_copy {s u : State} {r : Success} {h : Hidden} (hc : s.cfg.wf = true) (hg : r.Good s.cfg)
    (hul : u.latchedLen = (State.completeOk r { s with hidden := h }).res.outLen)
    (hub : ∀ i, i < (State.completeOk r { s with hidden := h }).res.outLen.toNat →
      u.ibufByte i = (State.completeOk r { s with hidden := h }).obufByte i) : u.input = r.out := by
  have hs := State.succeeded_completeOk (s := { s with hidden := h }) hg hc
  have ho : (State.completeOk r { s with hidden := h }).res.outLen.toNat = r.out.length := hs.outLen
  refine List.ext_getElem ?_ fun i h1 h2 => ?_
  · rw [State.input_length, hul, ho]
  · rw [State.input_getElem, hub i (by omega), hs.obuf i h2, List.getD_eq_getElem _ _ h2]

/-- OUT_LEN and OBUF after a command whose output is the input of another. -/
theorem output_of_input {s u : State} {r : Success} {h : Hidden} (hcu : u.cfg.wf = true) (hg : r.Good u.cfg)
    (hout : r.out = s.input) :
    (State.completeOk r { u with hidden := h }).res.outLen = s.latchedLen ∧
      ∀ i, i < s.latchedLen.toNat → (State.completeOk r { u with hidden := h }).obufByte i = s.ibufByte i := by
  have hs := State.succeeded_completeOk (s := { u with hidden := h }) hg hcu
  have ho : (State.completeOk r { u with hidden := h }).res.outLen.toNat = r.out.length := hs.outLen
  refine ⟨BitVec.eq_of_toNat_eq (by rw [ho, hout, State.input_length]), fun i hi => ?_⟩
  have h1 : i < r.out.length := by rw [hout, State.input_length]; exact hi
  have h2 : i < s.input.length := by rw [State.input_length]; exact hi
  rw [hs.obuf i h1, List.getD_eq_getElem _ _ h1]
  simp only [hout]
  exact State.input_getElem s h2

/-! ### What a turn keeps -/

theorem State.SameCore.trans {s t u : State} (h : s.SameCore t) (h' : t.SameCore u) : s.SameCore u := by
  unfold State.SameCore at *
  rw [h] at h'
  exact h'

theorem sameCore_hostReadReg (s : State) (r : Reg) (ls : List HostLine) : s.SameCore ((s.hostReadReg r).hostNext ls) := by
  simp [State.hostReadReg, State.readReg_snd, State.sees, State.SameCore, State.hostNext]

theorem sameCore_hostReadObuf (s : State) (i : Nat) (ls : List HostLine) :
    s.SameCore ((s.hostReadObuf i).hostNext ls) := by
  simp [State.hostReadObuf, State.readObuf_snd, State.sees, State.SameCore, State.hostNext]

/-- R96: a transaction while a command runs. -/
theorem perform_busy {s : State} {op : Instr} (h : s.seq = .busy op) (x : Transaction) : s.SameCore (s.perform x) := by
  have hb := State.isBusy_busy h
  cases x <;> simp only [State.perform]
  · split
    · exact sameCore_hostReadReg s _ []
    · rfl
  · split
    · rename_i r _
      have : s.commandWrite ‹Word› = s := by simp [State.commandWrite, h]
      cases r <;> simp [State.writeReg, this, State.writeInLen, hb, State.SameCore]
    · rfl
  · simp [State.sees, State.SameCore]
  · simp [State.writeIbuf, hb, State.SameCore]
  · exact sameCore_hostReadObuf s _ []
  · rfl

/-- R96: a turn of the host while a command runs. -/
theorem hostTurn_busy {s t : State} {op : Instr} (h : s.seq = .busy op) (ht : hostTurn s = .next t) : s.SameCore t := by
  unfold hostTurn at ht
  split at ht
  · cases ht
    rfl
  · rename_i line rest _
    have base : s.SameCore { s with host := rest } := rfl
    refine base.trans ?_
    cases line with
    | txn x =>
      rcases transact_cases x { s with host := rest } with ⟨_, hx⟩ | ⟨_, r, hx⟩ <;> rw [runLine, hx] at ht <;> cases ht
      exact perform_busy (s := { s with host := rest }) h x
    | wait => cases ht; exact sameCore_hostReadReg _ _ _
    | dump => cases ht; exact sameCore_hostReadReg _ _ _
    | copy => cases ht; exact sameCore_hostReadReg _ _ _
    | copyByte i =>
      rw [runLine] at ht
      split at ht <;> cases ht
      exact sameCore_hostReadObuf _ _ _

/-- A step is the turn of the agent that moves. -/
theorem step_eq (s : State) : step s = takeTurn s.turn { s with schedule := s.schedule.tail } := by
  unfold step nextTurn State.turn
  cases h : s.schedule with
  | nil =>
    simp only [List.headD_nil, List.tail_nil]
    rw [← h]
  | cons t rest => simp

/-- A transaction keeps the configuration, the schedule and the host's lines. -/
theorem perform_keeps (x : Transaction) (s : State) :
    (s.perform x).cfg = s.cfg ∧ (s.perform x).schedule = s.schedule ∧ (s.perform x).host = s.host := by
  cases x <;> simp only [State.perform]
  · split <;> simp [State.hostReadReg, State.readReg_snd, State.sees]
  · split
    · rename_i r _
      cases r <;> simp only [State.writeReg]
      · unfold State.commandWrite
        split
        · simp
        · split <;> exact ⟨rfl, rfl, rfl⟩
      all_goals simp [State.writeInLen_eq]
    · simp
  · simp [State.sees]
  · simp [State.writeIbuf_eq]
  · simp [State.hostReadObuf, State.readObuf_snd, State.sees]
  · simp

/-- A host line keeps the configuration and the schedule. -/
theorem runLine_keeps {l : HostLine} {s t : State} (ht : runLine l s = .next t) :
    t.cfg = s.cfg ∧ t.schedule = s.schedule := by
  cases l with
  | txn x =>
    rcases transact_cases x s with ⟨_, hx⟩ | ⟨_, r, hx⟩ <;> rw [runLine, hx] at ht <;> cases ht
    exact ⟨(perform_keeps x s).1, (perform_keeps x s).2.1⟩
  | copyByte i =>
    rw [runLine] at ht
    split at ht <;> cases ht
    simp [State.hostReadObuf, State.readObuf_snd, State.sees, State.hostNext]
  | _ =>
    cases ht
    simp [State.hostReadReg, State.readReg_snd, State.sees, State.hostNext]

/-- A turn of the host keeps the configuration and the schedule. -/
theorem hostTurn_keeps {s t : State} (ht : hostTurn s = .next t) : t.cfg = s.cfg ∧ t.schedule = s.schedule := by
  unfold hostTurn at ht
  split at ht
  · cases ht
    exact ⟨rfl, rfl⟩
  · have := runLine_keeps ht
    exact this

/-- R48: no step changes the configuration. -/
theorem step_cfg {s t : State} (ht : step s = .next t) : t.cfg = s.cfg := by
  rw [step_eq] at ht
  cases h : s.turn <;> rw [h] at ht <;> simp only [takeTurn] at ht
  · exact (hostTurn_keeps ht).1
  · unfold coreTurn at ht
    split at ht
    · cases ht
      rfl
    · exact (exec_done ht).2.2.2.2.2
  · cases ht
    rfl

/-- A step that writes COMMAND. -/
theorem step_commandWrite {s t : State} {v : Word} (hw : s.WritesCommand v) (ht : step s = .next t) :
    ∃ rest, t = State.commandWrite v { s with schedule := s.schedule.tail, host := rest } := by
  obtain ⟨hh, rest, hl⟩ := hw
  rw [step_eq, hh] at ht
  simp only [takeTurn, hostTurn, hl, runLine, transact_command] at ht
  cases ht
  exact ⟨rest, rfl⟩

/-- R32, R50, R51: a turn of the host that does not write COMMAND leaves the flags. -/
theorem hostTurn_flags {s t : State} (ht : hostTurn s = .next t)
    (hn : ¬ ∃ v rest, s.host = .txn (.regWrite 32 0 v) :: rest) :
    t.seq = s.seq ∧ t.done = s.done ∧ t.err = s.err ∧ t.lastOp = s.lastOp ∧ t.res = s.res := by
  have same : ∀ {u v : State}, u.SameCore v →
      v.seq = u.seq ∧ v.done = u.done ∧ v.err = u.err ∧ v.lastOp = u.lastOp ∧ v.res = u.res := by
    intro u v h
    unfold State.SameCore at h
    rw [h]
    exact ⟨rfl, rfl, rfl, rfl, rfl⟩
  unfold hostTurn at ht
  split at ht
  · cases ht
    exact ⟨rfl, rfl, rfl, rfl, rfl⟩
  · rename_i line rest hh
    cases line with
    | txn x =>
      rcases transact_cases x { s with host := rest } with ⟨hc, hx⟩ | ⟨_, r, hx⟩ <;> rw [runLine, hx] at ht <;> cases ht
      cases x <;> simp only [State.perform]
      · split
        · exact same (sameCore_hostReadReg _ _ [])
        · exact ⟨rfl, rfl, rfl, rfl, rfl⟩
      · rename_i w off v
        split
        · rename_i r hr
          have hoff := Reg.offset_of_ofOffset hr
          have hw : w = 32 := by
            by_contra hne
            simp [Transaction.inContract, Transaction.refusal, registerOk, hne] at hc
          subst hw hoff
          cases r <;> simp only [State.writeReg]
          · exact absurd ⟨v, rest, hh⟩ hn
          all_goals simp [State.writeInLen_eq]
        · simp
      · simp [State.sees]
      · simp [State.writeIbuf_eq]
      · exact same (sameCore_hostReadObuf _ _ [])
      · simp
    | wait => cases ht; exact same (sameCore_hostReadReg _ _ _)
    | dump => cases ht; exact same (sameCore_hostReadReg _ _ _)
    | copy => cases ht; exact same (sameCore_hostReadReg _ _ _)
    | copyByte i =>
      rw [runLine] at ht
      split at ht <;> cases ht
      exact same (sameCore_hostReadObuf _ _ _)

/-- R84: a turn of a host whose lines are within the contract. -/
theorem hostTurn_inContract {s : State} (h : ∀ l ∈ s.host, l.inContract s.cfg = true) :
    ∃ t, hostTurn s = .next t ∧ t.schedule = s.schedule ∧ ∀ l ∈ t.host, l.inContract t.cfg = true := by
  unfold hostTurn
  split
  · exact ⟨s, rfl, rfl, h⟩
  · rename_i line rest hh
    have hl := h line (by simp [hh])
    have hr : ∀ l ∈ rest, l.inContract s.cfg = true := fun l hm => h l (by simp [hh, hm])
    cases line with
    | txn x =>
      have hx : x.inContract ({ s with host := rest } : State).cfg = true := hl
      have hk := perform_keeps x { s with host := rest }
      refine ⟨_, by rw [runLine, transact_next hx], hk.2.1, ?_⟩
      rw [hk.1, hk.2.2]
      exact hr
    | wait =>
      refine ⟨_, rfl, ?_, ?_⟩
      · simp [State.hostReadReg, State.readReg_snd, State.sees, State.hostNext]
      · simp only [State.hostReadReg, State.readReg_snd, State.sees, State.hostNext, List.mem_append]
        rintro l (hm | hm)
        · split at hm
          · rw [List.mem_singleton] at hm
            subst hm
            rfl
          · simp at hm
        · exact hr l hm
    | dump => simp [HostLine.inContract] at hl
    | copy => simp [HostLine.inContract] at hl
    | copyByte i =>
      simp only [HostLine.inContract, Bool.and_eq_true, decide_eq_true_eq] at hl
      refine ⟨_, by simp only [runLine, Transaction.refusal, if_pos hl.1]; rfl, ?_, ?_⟩
      · simp [State.hostReadObuf, State.readObuf_snd, State.sees, State.hostNext]
      · simp only [State.hostReadObuf, State.readObuf_snd, State.sees, State.hostNext, List.mem_append,
          List.mem_singleton]
        rintro l (rfl | hm)
        · simp [HostLine.wibuf, HostLine.inContract, Transaction.inContract, Transaction.refusal, hl.2]
        · exact hr l hm

/-- R84: when a turn of the host is refused, and why. -/
theorem hostTurn_refused_iff {s : State} {r : Refusal} : hostTurn s = .refused r ↔ s.NextLineRefused r := by
  unfold hostTurn State.NextLineRefused
  cases hh : s.host with
  | nil => simp
  | cons line rest =>
    simp only [List.cons.injEq, existsAndEq, and_true]
    cases line with
    | txn x => cases hx : x.refusal s.cfg <;> simp [runLine, transact, hx]
    | copyByte i => cases hx : (Transaction.obufRead i).refusal s.cfg <;> simp [runLine, hx]
    | _ => simp [runLine]

/-- R82 to R84: one turn of the host while BUSY, the first of `n + 1` whose lines are within the contract. -/
theorem hostTurn_turnsInContract {s : State} {op : Instr} {n : Nat} (hb : s.seq = .busy op)
    (h : HostLine.turnsInContract s.cfg (n + 1) s.host = true) :
    ∃ t, hostTurn s = .next t ∧ t.schedule = s.schedule ∧ HostLine.turnsInContract t.cfg n t.host = true := by
  unfold hostTurn
  split
  · rename_i hh
    refine ⟨s, rfl, rfl, ?_⟩
    rw [hh]
    cases n <;> rfl
  · rename_i line rest hh
    rw [hh] at h
    cases line with
    | txn x =>
      simp only [HostLine.turnsInContract, Bool.and_eq_true] at h
      have hk := perform_keeps x { s with host := rest }
      refine ⟨_, by rw [runLine, transact_next (s := { s with host := rest }) h.1], hk.2.1, ?_⟩
      rw [hk.1, hk.2.2]
      exact h.2
    | wait =>
      have hbit : (State.readReg { s with host := rest } .status).1.getLsbD 0 = true := by
        have hbusy : ({ s with host := rest } : State).isBusy = true := State.isBusy_busy hb
        have := State.statusWord_toNat { s with host := rest }
        simp only [State.readReg, Reg.isResult, Bool.and_false, Bool.false_eq_true, if_false, State.regValue]
        rw [BitVec.getLsbD, Nat.testBit_zero, this, hbusy]
        simp
        omega
      refine ⟨_, rfl, ?_, ?_⟩
      · simp [State.hostReadReg, State.readReg_snd, State.sees, State.hostNext]
      · rw [hbit]
        cases n <;> rfl
    | dump =>
      obtain rfl : n = 0 := by simpa [HostLine.turnsInContract] using h
      exact ⟨_, rfl, by simp [State.hostReadReg, State.readReg_snd, State.sees, State.hostNext], rfl⟩
    | copy =>
      obtain rfl : n = 0 := by simpa [HostLine.turnsInContract] using h
      exact ⟨_, rfl, by simp [State.hostReadReg, State.readReg_snd, State.sees, State.hostNext], rfl⟩
    | copyByte i =>
      simp only [HostLine.turnsInContract, Bool.and_eq_true, decide_eq_true_eq] at h
      refine ⟨_, by simp only [runLine, Transaction.refusal, if_pos h.1]; rfl, ?_, ?_⟩
      · simp [State.hostReadObuf, State.readObuf_snd, State.sees, State.hostNext]
      · simp only [State.hostReadObuf, State.readObuf_snd, State.sees, State.hostNext, List.singleton_append]
        cases n with
        | zero => rfl
        | succ n =>
          simpa [HostLine.wibuf, HostLine.turnsInContract, Transaction.inContract, Transaction.refusal] using h.2

/-! ### Several steps -/

theorem core_run_next {s t : State} (k : Nat) (h : step s = .next t) :
    Sys2Proof.core.run (k + 1) s = Sys2Proof.core.run k t := by
  have : ∀ (M : Host.Core) {a b : M.State}, M.step a = .next b → M.run (k + 1) a = M.run k b := fun M a b hab => by
    rw [Host.Core.run, hab]
  exact this Sys2Proof.core h

theorem core_run_refused {s : State} {r : Refusal} (k : Nat) (h : step s = .refused r) :
    Sys2Proof.core.run (k + 1) s = Host.Outcome.refused r := by
  have : ∀ (M : Host.Core) {a : M.State} {q : M.Refusal}, M.step a = .refused q → M.run (k + 1) a = .refused q :=
    fun M a q hab => by rw [Host.Core.run, hab]
  exact this Sys2Proof.core h

/-- One more step at the end of a run. -/
theorem core_run_last (k : Nat) : ∀ (s t : State), Sys2Proof.core.run k s = Host.Outcome.next t →
    Sys2Proof.core.run (k + 1) s = step t := by
  induction k with
  | zero =>
    intro s t h
    cases h
    cases hs : step s with
    | next u => rw [core_run_next 0 hs]; rfl
    | fault r => cases r
    | refused r => rw [core_run_refused 0 hs]; rfl
  | succ k ih =>
    intro s t h
    cases hs : step s with
    | next u =>
      rw [core_run_next k hs] at h
      rw [core_run_next (k + 1) hs]
      exact ih u t h
    | fault r => cases r
    | refused r =>
      rw [core_run_refused k hs] at h
      cases h

end Sys2Proof.Machine
end

