-- ==== Sys2Proof/Laws/Invariant.lean ====
section
/-! SUPPORT. The invariant of CORE's state (Safety.lean), through each of the operations a step is made of. -/

namespace Sys2Proof.Machine

/-- The invariant does not look at what the host has to do and has seen, and allows more draws. -/
theorem State.Inv.outside {s : State} (h : s.Inv) (ho : List HostLine) (se : List Seen) (sc : List Turn) {d : Nat}
    (hd : s.draws ≤ d) : ({ s with host := ho, seen := se, schedule := sc, draws := d } : State).Inv :=
  { h with draws_lt := ⟨Nat.lt_of_lt_of_le h.draws_lt.1 hd, Nat.lt_of_lt_of_le h.draws_lt.2 hd⟩ }

theorem inv_completeErr {s : State} (hc : s.cfg.wf = true) (h1 : s.ibuf.wf = true)
    (h2 : s.ibuf.below s.cfg.inCap = true) (hd : s.ibufDraw < s.draws) {e : Raise} (he : e.Good) :
    (s.completeErr e).Inv where
  cfg_wf := hc
  ibuf_wf := h1
  ibuf_below := h2
  obuf_lists := rfl
  outLen_le := Nat.zero_le _
  busy_status := fun i h => by cases h
  notDone_ok := fun h => by cases h
  detail_kind := fun _ => he.kind.symm
  error_zero := fun _ => rfl
  errPos_zero := fun h1 h2 => by simp [State.completeErr, he.pos h1 h2]
  one_engine := .inl ⟨rfl, rfl⟩
  width_ok := rfl
  symbols_le := by simp [State.completeErr]
  pad_eq := by simp [State.completeErr]; decide
  draws_lt := by simp [State.completeErr]; omega

theorem inv_completeOk {s : State} (hc : s.cfg.wf = true) (h1 : s.ibuf.wf = true)
    (h2 : s.ibuf.below s.cfg.inCap = true) (hd : s.ibufDraw < s.draws) {r : Success} (hr : r.Good s.cfg) :
    (State.completeOk r s).Inv := by
  have hs := State.succeeded_completeOk hr hc
  have hout : (State.completeOk r s).res.outLen.toNat = r.out.length := hs.outLen
  have hw : (BitVec.ofNat 8 r.lzwWidth).toNat = r.lzwWidth := by
    have := hr.width
    simp only [widthOk, List.contains_eq_mem, List.mem_cons, List.not_mem_nil, or_false, decide_eq_true_eq] at this
    rw [BitVec.toNat_ofNat, Nat.mod_eq_of_lt (by omega)]
  have hp := padLen_lt r.hufBitlen
  exact
    { cfg_wf := hc
      ibuf_wf := h1
      ibuf_below := h2
      obuf_lists := by rw [hout]; exact Memory.ofBytes_addrs _
      outLen_le := by rw [hout]; exact hr.out_le
      busy_status := fun i h => by cases h
      notDone_ok := fun h => by cases h
      detail_kind := fun _ => rfl
      error_zero := fun h => absurd rfl h
      errPos_zero := fun _ _ => rfl
      one_engine := by
        rcases hr.one with ⟨h1, h2⟩ | ⟨h1, h2, h3⟩
        · left; simp [State.completeOk, h1, h2]
        · right; simp [State.completeOk, h1, h2, h3]
      width_ok := by
        change widthOk (BitVec.ofNat 8 r.lzwWidth).toNat = true
        rw [hw]
        exact hr.width
      symbols_le := by
        have := hr.symbols_le
        change (BitVec.ofNat 9 r.hufSymbols).toNat ≤ 256
        rw [BitVec.toNat_ofNat, Nat.mod_eq_of_lt (by omega)]
        exact this
      pad_eq := by
        change (BitVec.ofNat 3 r.hufPad).toNat = padLen (BitVec.ofNat 32 r.hufBitlen).toNat
        rw [BitVec.toNat_ofNat, BitVec.toNat_ofNat, Nat.mod_eq_of_lt hr.bitlen_lt, hr.pad, Nat.mod_eq_of_lt (by omega)]
      draws_lt := by simp [State.completeOk]; omega }

theorem inv_commandWrite {s : State} (h : s.Inv) (v : Word) : (s.commandWrite v).Inv := by
  unfold State.commandWrite
  split
  · exact h
  · split
    · exact inv_completeErr (s := { s with lastOp := opField v }) h.cfg_wf h.ibuf_wf h.ibuf_below h.draws_lt.1
        (Raise.good_badCommand _)
    · rename_i i hd
      exact
        { h with
          busy_status := fun j hj => by cases hj; exact ⟨rfl, rfl, opField_of_decode hd⟩
          notDone_ok := fun _ => rfl
          detail_kind := fun hj => by cases hj }

theorem inv_hostReadReg {s : State} (h : s.Inv) (r : Reg) (ls : List HostLine) : ((s.hostReadReg r).hostNext ls).Inv := by
  simp only [State.hostReadReg, State.readReg_snd, State.sees, State.hostNext]
  exact h.outside _ _ _ (by split <;> omega)

theorem inv_hostReadObuf {s : State} (h : s.Inv) (i : Nat) (ls : List HostLine) :
    ((s.hostReadObuf i).hostNext ls).Inv := by
  simp only [State.hostReadObuf, State.readObuf_snd, State.sees, State.hostNext]
  exact h.outside _ _ _ (by split <;> omega)

theorem inv_perform {s : State} (h : s.Inv) {x : Transaction} (hx : x.inContract s.cfg = true) : (s.perform x).Inv := by
  cases x with
  | regRead w off =>
    simp only [State.perform]
    split
    · exact inv_hostReadReg h _ []
    · exact h
  | regWrite w off v =>
    simp only [State.perform]
    split
    · rename_i r _
      cases r <;> simp only [State.writeReg] <;> first | exact h | exact inv_commandWrite h v | skip
      unfold State.writeInLen
      split
      · exact h
      · exact { h with }
    · exact h
  | ibufRead i => exact h.outside _ _ _ (le_refl _)
  | ibufWrite i b =>
    simp only [State.perform, State.writeIbuf]
    split
    · exact h
    · have hi : i < s.cfg.inCap := by
        by_contra hn
        simp [Transaction.inContract, Transaction.refusal, hn] at hx
      exact { h with ibuf_wf := Memory.write_wf h.ibuf_wf i b, ibuf_below := Memory.write_below h.ibuf_below hi b }
  | obufRead i => exact inv_hostReadObuf h _ []
  | obufWrite i b => exact h

theorem inv_runLine {l : HostLine} {s t : State} (h : s.Inv) (ht : runLine l s = .next t) : t.Inv := by
  cases l with
  | txn x =>
    rcases transact_cases x s with ⟨hc, hx⟩ | ⟨_, r, hx⟩ <;> rw [runLine, hx] at ht <;> cases ht
    exact inv_perform h hc
  | wait => cases ht; exact inv_hostReadReg h _ _
  | dump => cases ht; exact inv_hostReadReg h _ _
  | copy => cases ht; exact inv_hostReadReg h _ _
  | copyByte i =>
    rw [runLine] at ht
    split at ht <;> cases ht
    exact inv_hostReadObuf h _ _

theorem inv_exec {i : Instr} {s t : State} (h : s.Inv) (ht : exec i s = .next t) : t.Inv := by
  rcases exec_cases i h.cfg_wf with ⟨e, hg, hx, _⟩ | ⟨r, x, hg, hx, _⟩ <;> rw [hx] at ht <;> cases ht
  · exact inv_completeErr h.cfg_wf h.ibuf_wf h.ibuf_below h.draws_lt.1 hg
  · exact inv_completeOk (s := { s with hidden := x }) h.cfg_wf h.ibuf_wf h.ibuf_below h.draws_lt.1 hg

end Sys2Proof.Machine
end

