-- ==== Sys2Proof/Laws/LzwRead.lean ====
section
/-! SUPPORT. What an LZW frame says bit by bit, and the frame parse (30_encoding.md R118 to R124, 40_lzw.md R181). -/

namespace Sys2Proof.Machine

/-- R123: bit `j` of code field `i`. -/
theorem lzwPayload_getD {ks : List Nat} {w i j : Nat} (hi : i < ks.length) (hj : j < w) :
    (lzwPayload ks w).getD (i * w + j) false = (ks.getD i 0).testBit (w - 1 - j) := by
  induction ks generalizing i with
  | nil => simp at hi
  | cons k ks ih =>
    rw [lzwPayload, List.flatMap_cons]
    cases i with
    | zero =>
      rw [Nat.zero_mul, Nat.zero_add, List.getD_append _ _ _ _ (by simpa using hj), bitsOf_getD hj]
      rfl
    | succ i =>
      have hle : (bitsOf k w).length ≤ (i + 1) * w + j := by
        rw [bitsOf_length, Nat.succ_mul]
        omega
      have he : (i + 1) * w + j - (bitsOf k w).length = i * w + j := by
        rw [bitsOf_length, Nat.succ_mul]
        omega
      rw [List.getD_append_right _ _ _ _ hle, he, List.getD_cons_succ]
      exact ih (by simpa using hi)

/-- Every bit of the code fields is bit `j` of field `i` for some `i` and `j`. -/
theorem field_index {n w p : Nat} (h : p < n * w) : ∃ i j, i < n ∧ j < w ∧ p = i * w + j := by
  have hw : 0 < w := by
    rcases Nat.eq_zero_or_pos w with rfl | h'
    · simp at h
    · exact h'
  refine ⟨p / w, p % w, Nat.div_lt_of_lt_mul (by rwa [Nat.mul_comm] at h), Nat.mod_lt _ hw, ?_⟩
  rw [Nat.mul_comm]
  exact (Nat.div_add_mod p w).symm

/-- R123: the code fields of a bit string, written out again. -/
theorem lzwPayload_codesOf {w n : Nat} {bits : List Bool} (h : bits.length = n * w) :
    lzwPayload (codesOf w n bits) w = bits := by
  induction n generalizing bits with
  | zero =>
    have : bits = [] := List.length_eq_zero_iff.mp (by simpa using h)
    subst this
    rfl
  | succ n ih =>
    rw [Nat.succ_mul] at h
    have hl : (bits.take w).length = w := by
      rw [List.length_take]
      omega
    have hv := bitsOf_value (bits.take w)
    rw [hl] at hv
    rw [codesOf, lzwPayload, List.flatMap_cons, hv]
    have := ih (bits := bits.drop w) (by rw [List.length_drop]; omega)
    rw [lzwPayload] at this
    rw [this, List.take_append_drop]

theorem codesOf_lt {w n : Nat} {bits : List Bool} (h : bits.length = n * w) : ∀ k ∈ codesOf w n bits, k < 2 ^ w := by
  induction n generalizing bits with
  | zero => simp [codesOf]
  | succ n ih =>
    rw [Nat.succ_mul] at h
    intro k hk
    rw [codesOf, List.mem_cons] at hk
    rcases hk with rfl | hk
    · have := value_lt (bits.take w)
      rwa [List.length_take, Nat.min_eq_left (by omega)] at this
    · exact ih (by rw [List.length_drop]; omega) k hk

theorem legalWidth_iff {w : Nat} : legalWidth w = true ↔ w ∈ [1, 2, 4, 8, 16, 32] := by
  simp [legalWidth, List.contains_eq_mem]

theorem LzwFrameReads.five_le {F : List Byte} {w : Nat} {ks : List Nat} (h : LzwFrameReads F w ks) : 5 ≤ F.length := by
  have := h.length
  omega

/-- The bytes behind the header hold the code fields. -/
theorem code_bits_fit {F : List Byte} {n : Nat} (h : F.length = 5 + ceilDiv n 8) : n ≤ 8 * (F.drop 5).length := by
  rw [ceilDiv_eight] at h
  rw [List.length_drop]
  omega

/-- R181: a frame that passes every check parses to its codes. -/
theorem LzwFrameReads.parse {F : List Byte} {w : Nat} {ks : List Nat} (h : LzwFrameReads F w ks) :
    lzwParse F = .ok (w, ks.length, ks) := by
  have hfit := code_bits_fit h.length
  have hbits : unpack (F.drop 5) (ks.length * w) = lzwPayload ks w := by
    have hl := lzwPayload_length ks w
    rw [← hl]
    refine (eq_unpack (by rw [hl]; exact hfit) fun p hp => ?_).symm
    rw [hl] at hp
    obtain ⟨i, j, hi, hj, rfl⟩ := field_index hp
    rw [lzwPayload_getD hi hj, h.bits i hi j hj]
  have h5 := h.five_le
  unfold lzwParse
  rw [if_neg (by omega)]
  simp only [h.width, legalWidth_iff.mpr h.legal, Bool.not_true, Bool.false_eq_true, if_false, h.count, hbits,
    codesOf_payload h.lt]
  rw [if_neg (by rw [← h.length]; simp)]

/-- R181: what passes every check is a frame of the codes it parses to. -/
theorem LzwFrameReads.of_checks {F : List Byte} (hw : byteAt F 0 ∈ [1, 2, 4, 8, 16, 32])
    (hl : F.length = 5 + ceilDiv (be32Read F 1 * byteAt F 0) 8) :
    LzwFrameReads F (byteAt F 0)
      (codesOf (byteAt F 0) (be32Read F 1) (unpack (F.drop 5) (be32Read F 1 * byteAt F 0))) := by
  have hfit := code_bits_fit hl
  have hb := unpack_length _ _ hfit
  refine
    { legal := hw, width := rfl, count := (codesOf_length _ _ _).symm, length := by rw [codesOf_length]; exact hl
      lt := codesOf_lt hb, bits := fun i hi j hj => ?_ }
  rw [← lzwPayload_getD hi hj, lzwPayload_codesOf hb]
  refine unpack_getD _ ?_
  rw [codesOf_length] at hi
  calc i * byteAt F 0 + j < i * byteAt F 0 + byteAt F 0 := by omega
    _ = (i + 1) * byteAt F 0 := (Nat.succ_mul _ _).symm
    _ ≤ be32Read F 1 * byteAt F 0 := Nat.mul_le_mul_right _ hi

/-- R181: the frames that parse, and to what. -/
theorem lzwParse_reads {F : List Byte} {w n : Nat} {ks : List Nat} (h : lzwParse F = .ok (w, n, ks)) :
    LzwFrameReads F w ks ∧ n = ks.length := by
  rcases lzwParse_cases F with ⟨d, _, h'⟩ | ⟨_, hw, hl, h'⟩
  · rw [h'] at h
    exact absurd h (by simp)
  · rw [h'] at h
    have hx := Prod.mk.inj (Except.ok.inj h)
    have hy := Prod.mk.inj hx.2
    have hr := LzwFrameReads.of_checks (legalWidth_iff.mp hw) hl
    rw [hy.2, hx.1] at hr
    refine ⟨hr, ?_⟩
    rw [← hy.2, codesOf_length]
    exact hy.1.symm

end Sys2Proof.Machine
end

