-- ==== Sys2Proof/Laws/LzwSource.lean ====
section
/-! SUPPORT. The encoder's dictionary as a mapping from strings to codes (40_lzw.md R165, R168, R169). -/

namespace Sys2Proof.Machine

/-- Different codes stand for different strings. -/
def Dict.Inj (d : Dict) : Prop := ∀ k l, k < d.nextCode → l < d.nextCode → d.str k = d.str l → k = l

/-- The strings of a dictionary, by code. -/
def Dict.strings (d : Dict) : List (List Byte) := (List.range d.nextCode).map d.str

theorem strIn_split {es : List DictEntry} (wf : DictWf es) {k : Nat} (h : 256 ≤ k) (hk : k < 256 + es.length) :
    ∃ p c, p < 256 + es.length ∧ strIn es k = strIn es p ++ [c] ∧ findIn p c es ≠ none := by
  induction es with
  | nil => simp at hk; omega
  | cons e es ih =>
    obtain ⟨hpre, wf⟩ := wf
    by_cases he : k = 256 + es.length
    · subst he
      refine ⟨e.pre, e.suf, by simp; omega, by rw [strIn_cons_eq, strIn_cons_lt hpre], by simp [findIn]⟩
    · have hk' : k < 256 + es.length := by simp at hk; omega
      obtain ⟨p, c, hp, hs, hf⟩ := ih wf hk'
      refine ⟨p, c, by simp; omega, by rw [strIn_cons_lt hk', strIn_cons_lt hp, hs], ?_⟩
      rw [findIn]
      split
      · simp
      · exact hf

/-- R165: `find(p, c)` answers the code of the string it names. -/
theorem Dict.Inj.find {d : Dict} (hi : d.Inj) (wf : DictWf d.entries) {p : Nat} (hp : p < d.nextCode) (c : Byte) (k : Nat) :
    d.find p c = some k ↔ k < d.nextCode ∧ d.str k = d.str p ++ [c] := by
  constructor
  · intro h
    exact ⟨(findIn_range wf h).2.1, findIn_str wf h⟩
  · rintro ⟨hk, hs⟩
    have hk256 : 256 ≤ k := by
      by_contra hlt
      rw [Dict.str, strIn_seeded (by omega)] at hs
      have h1 := congrArg List.length hs
      have h2 := strIn_ne_nil (es := d.entries) hp
      rw [Dict.str] at h1
      simp only [List.length_append, List.length_singleton] at h1
      exact h2 (List.length_eq_zero_iff.mp (by omega))
    obtain ⟨q, b, hq, hs', hf⟩ := strIn_split wf hk256 hk
    have hs'' : d.str p ++ [c] = d.str q ++ [b] := hs.symm.trans hs'
    obtain ⟨h1, h2⟩ := List.append_inj' hs'' rfl
    have hpq := hi p q hp hq h1
    have hcb : c = b := by simpa using h2
    subst hpq hcb
    cases hfk : findIn p c d.entries with
    | none => exact absurd hfk hf
    | some k' =>
      have hk' := (findIn_range wf hfk).2.1
      have := findIn_str wf hfk
      have hkk := hi k k' hk hk' (by rw [hs]; exact this.symm)
      rw [Dict.find, hfk, hkk]

theorem Dict.Inj.init : Dict.init.Inj := by
  intro k l hk hl h
  have hk' : k < 256 := hk
  have hl' : l < 256 := hl
  rw [Dict.str, Dict.str, strIn_seeded hk', strIn_seeded hl'] at h
  have := congrArg BitVec.toNat (List.cons.inj h).1
  simpa [Nat.mod_eq_of_lt hk', Nat.mod_eq_of_lt hl'] using this

/-- What one insert does: nothing, or one more code. -/
theorem Dict.insert_cases (n : Nat) (d : Dict) (p : Nat) (c : Byte) :
    (n ≤ d.nextCode ∧ d.insert n p c = d) ∨
    (d.nextCode < n ∧ (d.insert n p c).nextCode = d.nextCode + 1 ∧
      (∀ k, k < d.nextCode → (d.insert n p c).str k = d.str k) ∧
      (d.insert n p c).str d.nextCode = d.str p ++ [c]) := by
  by_cases h : d.nextCode < n
  · refine .inr ⟨h, ?_, ?_, ?_⟩ <;> rw [Dict.insert, if_pos h]
    · rw [Dict.nextCode, List.length_cons]
      rfl
    · intro k hk
      exact strIn_cons_lt hk
    · rw [Dict.str, Dict.nextCode, strIn_cons_eq]
      rfl
  · exact .inl ⟨by omega, by rw [Dict.insert, if_neg h]⟩

/-- An insert of a string that is not in the dictionary keeps the codes apart. -/
theorem Dict.Inj.insert {d : Dict} (hi : d.Inj) (n : Nat) {p : Nat} {c : Byte}
    (hnew : ∀ k, k < d.nextCode → d.str k ≠ d.str p ++ [c]) : (d.insert n p c).Inj := by
  rcases d.insert_cases n p c with ⟨_, he⟩ | ⟨_, hn, hs, ht⟩
  · rw [he]
    exact hi
  · intro k l hk hl h
    rw [hn] at hk hl
    by_cases h1 : k < d.nextCode <;> by_cases h2 : l < d.nextCode
    · rw [hs k h1, hs l h2] at h
      exact hi k l h1 h2 h
    · have : l = d.nextCode := by omega
      rw [hs k h1, this, ht] at h
      exact absurd h (hnew k h1)
    · have : k = d.nextCode := by omega
      rw [hs l h2, this, ht] at h
      exact absurd h.symm (hnew l h2)
    · omega

/-- What the encoder keeps of its dictionary and its match. -/
structure EncMap (n : Nat) (d : Dict) (w : Nat) : Prop where
  ok : EncOk n d w
  inj : d.Inj

theorem EncMap.init {n : Nat} (h : 256 ≤ n) (x : Byte) : EncMap n Dict.init x.toNat := ⟨EncOk.init h x, Dict.Inj.init⟩

theorem EncMap.found {n : Nat} {d : Dict} {w k : Nat} {c : Byte} (h : EncMap n d w) (hf : d.find w c = some k) :
    EncMap n d k := ⟨h.ok.found hf, h.inj⟩

theorem EncMap.absent {n : Nat} {d : Dict} {w : Nat} {c : Byte} (h : EncMap n d w) (hf : d.find w c = none) :
    ∀ k, k < d.nextCode → d.str k ≠ d.str w ++ [c] := fun k hk hs => by
  have := (h.inj.find h.ok.wf h.ok.known c k).mpr ⟨hk, hs⟩
  rw [hf] at this
  cases this

theorem EncMap.inserted {n : Nat} {d : Dict} {w : Nat} {c : Byte} (h : EncMap n d w) (hf : d.find w c = none) :
    EncMap n (d.insert n w c) c.toNat := ⟨h.ok.inserted c, h.inj.insert n (h.absent hf)⟩

/-- One turn of the scan keeps the mapping. -/
theorem EncMap.step {n : Nat} {e : LzwEnc} (h : EncMap n e.dict e.w) (c : Byte) :
    EncMap n (lzwEncStep n e c).dict (lzwEncStep n e c).w := by
  rw [lzwEncStep]
  cases hf : e.dict.find e.w c with
  | some k => exact h.found hf
  | none => exact h.inserted hf

theorem EncMap.fold {n : Nat} (xs : List Byte) : ∀ {e : LzwEnc}, EncMap n e.dict e.w →
    EncMap n (xs.foldl (lzwEncStep n) e).dict (xs.foldl (lzwEncStep n) e).w := by
  induction xs with
  | nil => exact fun h => h
  | cons c cs ih => exact fun h => ih (h.step c)

theorem lzwScan_map {n : Nat} (h : 256 ≤ n) (x : Byte) (xs : List Byte) :
    EncMap n (lzwScan n x xs).dict (lzwScan n x xs).w := EncMap.fold xs (EncMap.init h x)

/-! ### The dictionary as a list of strings -/

theorem Dict.strings_length (d : Dict) : d.strings.length = d.nextCode := by simp [Dict.strings]

theorem Dict.strings_getElem (d : Dict) {k : Nat} (h : k < d.strings.length) : d.strings[k] = d.str k := by
  simp [Dict.strings]

theorem Dict.mem_strings {d : Dict} {s : List Byte} : s ∈ d.strings ↔ ∃ k, k < d.nextCode ∧ d.str k = s := by
  simp [Dict.strings]

theorem Dict.Inj.idxOf {d : Dict} (hi : d.Inj) {k : Nat} (hk : k < d.nextCode) : d.strings.idxOf (d.str k) = k := by
  have hm : d.str k ∈ d.strings := Dict.mem_strings.mpr ⟨k, hk, rfl⟩
  have hlt := List.idxOf_lt_length_of_mem hm
  have hget := List.getElem_idxOf hlt
  rw [Dict.strings_getElem] at hget
  exact hi _ k (by rwa [Dict.strings_length] at hlt) hk hget

theorem Dict.strings_insert (n : Nat) (d : Dict) (p : Nat) (c : Byte) :
    (d.insert n p c).strings = if d.strings.length < n then d.strings ++ [d.str p ++ [c]] else d.strings := by
  rw [Dict.strings_length]
  rcases d.insert_cases n p c with ⟨h, he⟩ | ⟨h, hn, hs, ht⟩
  · rw [he, if_neg (by omega)]
  · rw [if_pos h, Dict.strings, hn, List.range_succ, List.map_append, List.map_cons, List.map_nil, ht]
    congr 1
    exact List.map_congr_left fun k hk => hs k (List.mem_range.mp hk)

theorem Dict.strings_init : Dict.init.strings = seededStrings := by
  rw [Dict.strings, seededStrings]
  exact List.map_congr_left fun k hk => strIn_seeded (List.mem_range.mp hk)

/-- R169: the encoder over codes emits what the encoder over strings emits. -/
theorem sourceEncode_emit {n : Nat} (xs : List Byte) : ∀ {d : Dict} {w : Nat}, EncMap n d w →
    sourceEncode n d.strings (d.str w) xs = lzwEmit n d w xs := by
  induction xs with
  | nil =>
    intro d w h
    have hne : d.str w ≠ [] := strIn_ne_nil h.ok.known
    rw [sourceEncode, if_neg hne, h.inj.idxOf h.ok.known]
    rfl
  | cons c cs ih =>
    intro d w h
    rw [sourceEncode, lzwEmit]
    cases hf : d.find w c with
    | some k =>
      obtain ⟨hk, hs⟩ := (h.inj.find h.ok.wf h.ok.known c k).mp hf
      rw [if_pos (Dict.mem_strings.mpr ⟨k, hk, hs⟩), ← hs]
      exact ih (h.found hf)
    | none =>
      have hnew := h.absent hf
      rw [if_neg (fun hm => by
        obtain ⟨k, hk, hs⟩ := Dict.mem_strings.mp hm
        exact hnew k hk hs), h.inj.idxOf h.ok.known, ← Dict.strings_insert]
      have hc : [c] = (d.insert n w c).str c.toNat := (strIn_byte _ c).symm
      rw [hc]
      exact congrArg (w :: ·) (ih (h.inserted hf))

end Sys2Proof.Machine
end

