-- ==== Sys2Proof/Laws/LzwStrings.lean ====
section
/-! SUPPORT. The code loop of LZW_DECODE against the strings its codes stand for (40_lzw.md R182 to R186). -/

namespace Sys2Proof.Machine

/-- The code `k`, read after codes with the strings `es`, stands for the string `e`. -/
def CodeSays (n : Nat) (es : List (List Byte)) (k : Nat) (e : List Byte) : Prop :=
  (k < 256 ∧ e = [BitVec.ofNat 8 k]) ∨
  (∃ j, j < es.length ∧ k = 256 + j ∧ 256 + j < n ∧ e = es.getD j [] ++ [((es ++ [e]).getD (j + 1) []).headD 0])

theorem getD_snoc_lt {α : Type} {l : List α} {x d : α} {i : Nat} (h : i < l.length) : (l ++ [x]).getD i d = l.getD i d :=
  List.getD_append _ _ _ _ h

theorem getD_snoc_eq {α : Type} (l : List α) (x d : α) : (l ++ [x]).getD l.length d = x := by
  rw [List.getD_append_right _ _ _ _ (le_refl _), Nat.sub_self]
  rfl

/-- Codes decode one after the other. -/
theorem lzwDecodesTo_snoc {n : Nat} {ks : List Nat} {es : List (List Byte)} {k : Nat} {e : List Byte}
    (hl : es.length = ks.length) :
    LzwDecodesTo n (ks ++ [k]) (es ++ [e]) ↔ LzwDecodesTo n ks es ∧ CodeSays n es k e := by
  have hpt : ∀ i, i < ks.length →
      (((ks ++ [k]).getD i 0 < 256 ∧ (es ++ [e]).getD i [] = [BitVec.ofNat 8 ((ks ++ [k]).getD i 0)]) ∨
        (∃ j, j < i ∧ (ks ++ [k]).getD i 0 = 256 + j ∧ 256 + j < n ∧
          (es ++ [e]).getD i [] = (es ++ [e]).getD j [] ++ [((es ++ [e]).getD (j + 1) []).headD 0]) ↔
      (ks.getD i 0 < 256 ∧ es.getD i [] = [BitVec.ofNat 8 (ks.getD i 0)]) ∨
        (∃ j, j < i ∧ ks.getD i 0 = 256 + j ∧ 256 + j < n ∧
          es.getD i [] = es.getD j [] ++ [(es.getD (j + 1) []).headD 0])) := by
    intro i hi
    rw [getD_snoc_lt hi, getD_snoc_lt (by omega)]
    refine or_congr Iff.rfl (exists_congr fun j => ?_)
    refine and_congr_right fun hj => ?_
    rw [getD_snoc_lt (by omega), getD_snoc_lt (by omega)]
  have hlast : (((ks ++ [k]).getD ks.length 0 < 256 ∧
        (es ++ [e]).getD ks.length [] = [BitVec.ofNat 8 ((ks ++ [k]).getD ks.length 0)]) ∨
      (∃ j, j < ks.length ∧ (ks ++ [k]).getD ks.length 0 = 256 + j ∧ 256 + j < n ∧
        (es ++ [e]).getD ks.length [] = (es ++ [e]).getD j [] ++ [((es ++ [e]).getD (j + 1) []).headD 0])) ↔
      CodeSays n es k e := by
    have h1 : (es ++ [e]).getD ks.length [] = e := by rw [← hl, getD_snoc_eq]
    rw [getD_snoc_eq, h1, CodeSays, hl]
    refine or_congr Iff.rfl (exists_congr fun j => ?_)
    refine and_congr_right fun hj => ?_
    rw [getD_snoc_lt (by omega)]
  unfold LzwDecodesTo
  constructor
  · rintro ⟨_, h⟩
    refine ⟨⟨hl, fun i hi => (hpt i hi).mp (h i (by simp; omega))⟩, hlast.mp (h ks.length (by simp))⟩
  · rintro ⟨⟨_, h⟩, hc⟩
    refine ⟨by simp [hl], fun i hi => ?_⟩
    rw [List.length_append, List.length_singleton] at hi
    rcases Nat.lt_or_ge i ks.length with hi' | hi'
    · exact (hpt i hi').mpr (h i hi')
    · have : i = ks.length := by omega
      subst this
      exact hlast.mpr hc

/-- The first codes of a sequence that decodes decode. -/
theorem LzwDecodesTo.first {n : Nat} {ks xs : List Nat} {es fs : List (List Byte)} (h : LzwDecodesTo n (ks ++ xs) (es ++ fs))
    (hl : es.length = ks.length) : LzwDecodesTo n ks es := by
  refine ⟨hl, fun i hi => ?_⟩
  have hk : (ks ++ xs).getD i 0 = ks.getD i 0 := List.getD_append _ _ _ _ hi
  have he : ∀ j, j < ks.length → (es ++ fs).getD j [] = es.getD j [] := fun j hj => List.getD_append _ _ _ _ (by omega)
  have := h.2 i (by simp; omega)
  rw [hk, he i hi] at this
  rcases this with h1 | ⟨j, h1, h2, h3, h4⟩
  · exact .inl h1
  · rw [he j (by omega), he (j + 1) (by omega)] at h4
    exact .inr ⟨j, h1, h2, h3, h4⟩

/-- The variables of the code loop after the codes `ks`, with the strings `es`. -/
structure DecAt (n : Nat) (ks : List Nat) (es : List (List Byte)) (d : LzwDec) : Prop where
  len : es.length = ks.length
  out : d.out = es.flatten
  next : d.dict.nextCode = min n (256 + (ks.length - 1))
  ne : ∀ e ∈ es, e ≠ []
  strs : ∀ j, j + 1 < ks.length → 256 + j < n → d.dict.str (256 + j) = es.getD j [] ++ [(es.getD (j + 1) []).headD 0]
  prev : (ks = [] ∧ d.prev = none) ∨
    (∃ ks' es' k e, ks = ks' ++ [k] ∧ es = es' ++ [e] ∧ d.prev = some (k, e) ∧ k < d.dict.nextCode ∧ d.dict.str k = e)

theorem DecAt.init {n : Nat} (hn : 256 ≤ n) : DecAt n [] [] LzwDec.init where
  len := rfl
  out := rfl
  next := by simp [LzwDec.init, Dict.init, Dict.nextCode, hn]
  ne := by simp
  strs := by simp
  prev := .inl ⟨rfl, rfl⟩

theorem DecAt.seeded {n : Nat} {ks : List Nat} {es : List (List Byte)} {d : LzwDec} (_ : DecAt n ks es d) {k : Nat}
    (hk : k < 256) : d.dict.str k = [BitVec.ofNat 8 k] := strIn_seeded hk

/-- R182 to R184: the string the decoder finds for a code is the one the code stands for. -/
theorem DecAt.entry {n : Nat} {ks : List Nat} {es : List (List Byte)} {d : LzwDec} (hn : 256 ≤ n) (h : DecAt n ks es d)
    (k : Nat) (e : List Byte) : lzwEntry n d k = some e ↔ CodeSays n es k e := by
  have hlen := h.len
  rcases h.prev with ⟨rfl, hp⟩ | ⟨ks', es', pk, pe, rfl, rfl, hp, hpk, hstr⟩
  · have hes : es = [] := List.length_eq_zero_iff.mp hlen
    subst hes
    rw [lzwEntry, hp, CodeSays]
    by_cases hk : 256 ≤ k
    · rw [if_pos hk]
      constructor
      · intro hx
        exact absurd hx (by simp)
      · rintro (⟨h1, _⟩ | ⟨j, h1, _⟩)
        · omega
        · simp at h1
    · rw [if_neg hk]
      constructor
      · intro hx
        exact .inl ⟨by omega, (Option.some.inj hx).symm⟩
      · rintro (⟨_, h1⟩ | ⟨j, h1, _⟩)
        · rw [h1]
        · simp at h1
  · have hlen' : es'.length = ks'.length := by simpa using hlen
    have hnext : d.dict.nextCode = min n (256 + ks'.length) := by simpa using h.next
    have hpe : pe ≠ [] := h.ne pe (by simp)
    have hself : CodeSays n (es' ++ [pe]) (256 + ks'.length) e ↔
        256 + ks'.length < n ∧ e = pe ++ [pe.headD 0] := by
      rw [CodeSays]
      constructor
      · rintro (⟨h1, _⟩ | ⟨j, _, h2, h3, h4⟩)
        · omega
        · have hj : j = ks'.length := by omega
          subst hj
          refine ⟨h3, ?_⟩
          have hx : (es' ++ [pe] ++ [e]).getD (ks'.length + 1) [] = e := by
            rw [← hlen', show es'.length + 1 = (es' ++ [pe]).length by simp, getD_snoc_eq]
          have hy : (es' ++ [pe]).getD ks'.length [] = pe := by rw [← hlen', getD_snoc_eq]
          rw [hx, hy] at h4
          have : e.headD 0 = pe.headD 0 := by rw [h4, headD_append hpe]
          rw [← this]
          exact h4
      · rintro ⟨h1, h2⟩
        refine .inr ⟨ks'.length, by simp [hlen'], rfl, h1, ?_⟩
        have hx : (es' ++ [pe] ++ [e]).getD (ks'.length + 1) [] = e := by
          rw [← hlen', show es'.length + 1 = (es' ++ [pe]).length by simp, getD_snoc_eq]
        have hy : (es' ++ [pe]).getD ks'.length [] = pe := by rw [← hlen', getD_snoc_eq]
        rw [hx, hy, h2, headD_append hpe]
    rw [lzwEntry, hp]
    simp only
    by_cases h1 : k < d.dict.nextCode
    · rw [if_pos h1]
      by_cases hk : k < 256
      · rw [h.seeded hk, CodeSays]
        constructor
        · intro hx
          exact .inl ⟨hk, (Option.some.inj hx).symm⟩
        · rintro (⟨_, hx⟩ | ⟨j, _, hx, _⟩)
          · rw [hx]
          · omega
      · obtain ⟨j, rfl⟩ : ∃ j, k = 256 + j := ⟨k - 256, by omega⟩
        have hj : j < ks'.length := by omega
        have hjn : 256 + j < n := by omega
        rw [h.strs j (by simp; omega) hjn, CodeSays]
        constructor
        · intro hx
          refine .inr ⟨j, by simp; omega, rfl, hjn, ?_⟩
          rw [getD_snoc_lt (x := e) (by simp; omega), ← Option.some.inj hx]
        · rintro (⟨hx, _⟩ | ⟨i, _, hi, _, hx⟩)
          · omega
          · have : i = j := by omega
            subst this
            rw [getD_snoc_lt (x := e) (by simp; omega)] at hx
            rw [← hx]
    · rw [if_neg h1]
      by_cases h2 : k = d.dict.nextCode ∧ d.dict.nextCode < n
      · rw [if_pos h2]
        have hk : k = 256 + ks'.length := by omega
        rw [hk, hself]
        constructor
        · intro hx
          exact ⟨by omega, (Option.some.inj hx).symm⟩
        · rintro ⟨_, hx⟩
          rw [hx]
      · rw [if_neg h2]
        constructor
        · intro hx
          exact absurd hx (by simp)
        · rintro (⟨hx, _⟩ | ⟨j, hj, hx, hx', _⟩)
          · omega
          · simp at hj
            omega

/-- R185: the variables after one more code. -/
theorem DecAt.snoc {n : Nat} {ks : List Nat} {es : List (List Byte)} {d : LzwDec} (hn : 256 ≤ n) (h : DecAt n ks es d)
    {k : Nat} {e : List Byte} (he : lzwEntry n d k = some e) :
    DecAt n (ks ++ [k]) (es ++ [e]) { dict := lzwLearn n d e, prev := some (k, e), out := d.out ++ e } := by
  have hlen := h.len
  have hsays := (h.entry hn k e).mp he
  have hne : e ≠ [] := by
    rcases hsays with ⟨_, h1⟩ | ⟨j, _, _, _, h1⟩ <;> rw [h1] <;> simp
  have hall : ∀ x ∈ es ++ [e], x ≠ [] := by
    intro x hx
    rcases List.mem_append.mp hx with hx | hx
    · exact h.ne x hx
    · rw [List.mem_singleton.mp hx]
      exact hne
  rcases h.prev with ⟨rfl, hp⟩ | ⟨ks', es', pk, pe, rfl, rfl, hp, hpk, hstr⟩
  · have hes : es = [] := List.length_eq_zero_iff.mp hlen
    subst hes
    have hlearn : lzwLearn n d e = d.dict := by rw [lzwLearn, hp]
    have hk : k < 256 ∧ e = [BitVec.ofNat 8 k] := by
      rcases hsays with h1 | ⟨j, h1, _⟩
      · exact h1
      · simp at h1
    refine ⟨rfl, by simp [h.out], ?_, hall, fun j hj => by simp at hj, .inr ⟨[], [], k, e, rfl, rfl, rfl, ?_, ?_⟩⟩
    · rw [hlearn]
      exact h.next
    · rw [hlearn, h.next]
      simp
      omega
    · rw [hlearn, hk.2]
      exact h.seeded hk.1
  · have hlen' : es'.length = ks'.length := by simpa using hlen
    have hnext : d.dict.nextCode = min n (256 + ks'.length) := by simpa using h.next
    have hlearn : lzwLearn n d e = d.dict.insert n pk (e.headD 0) := by rw [lzwLearn, hp]
    have hpe : pe ≠ [] := h.ne pe (by simp)
    have hpeD : (es' ++ [pe]).getD ks'.length [] = pe := by rw [← hlen', getD_snoc_eq]
    -- the entry the insert makes, and what stays
    have hnew : d.dict.nextCode < n → (d.dict.insert n pk (e.headD 0)).nextCode = d.dict.nextCode + 1 ∧
        (d.dict.insert n pk (e.headD 0)).str d.dict.nextCode = pe ++ [e.headD 0] := by
      intro hlt
      rw [Dict.insert, if_pos hlt]
      refine ⟨by simp [Dict.nextCode]; omega, ?_⟩
      rw [Dict.str, Dict.nextCode, strIn_cons_eq, ← hstr]
      rfl
    have hold : ∀ c, c < d.dict.nextCode → (d.dict.insert n pk (e.headD 0)).str c = d.dict.str c := by
      intro c hc
      rw [Dict.insert]
      split
      · exact strIn_cons_lt hc
      · rfl
    have hfull : ¬ d.dict.nextCode < n → d.dict.insert n pk (e.headD 0) = d.dict := by
      intro hlt
      rw [Dict.insert, if_neg hlt]
    have hnext' : (d.dict.insert n pk (e.headD 0)).nextCode = min n (256 + (ks'.length + 1)) := by
      by_cases hlt : d.dict.nextCode < n
      · rw [(hnew hlt).1]
        omega
      · rw [hfull hlt]
        omega
    refine ⟨by simp [hlen'], by simp [h.out], ?_, hall, ?_, .inr ⟨ks' ++ [pk], es' ++ [pe], k, e, rfl, rfl, rfl, ?_, ?_⟩⟩
    · rw [hlearn, hnext']
      simp
    · intro j hj hjn
      simp only [List.length_append, List.length_singleton] at hj
      rw [hlearn]
      rcases Nat.lt_or_ge j ks'.length with hj' | hj'
      · rw [hold _ (by omega), h.strs j (by simp; omega) hjn, getD_snoc_lt (x := e) (by simp; omega),
          getD_snoc_lt (x := e) (by simp; omega)]
      · have hj' : j = ks'.length := by omega
        subst hj'
        have hx : 256 + ks'.length = d.dict.nextCode := by omega
        rw [hx, (hnew (by omega)).2, getD_snoc_lt (x := e) (by simp; omega), hpeD,
          show ks'.length + 1 = (es' ++ [pe]).length by simp [hlen'], getD_snoc_eq]
    · rw [hlearn, hnext']
      rcases hsays with ⟨h1, _⟩ | ⟨j, h1, h2, h3, _⟩
      · omega
      · simp at h1
        omega
    · rw [hlearn]
      by_cases hkn : k < d.dict.nextCode
      · rw [hold k hkn]
        have := he
        rw [lzwEntry, hp] at this
        simp only [if_pos hkn] at this
        exact Option.some.inj this
      · have := he
        rw [lzwEntry, hp] at this
        simp only [if_neg hkn] at this
        by_cases h2 : k = d.dict.nextCode ∧ d.dict.nextCode < n
        · rw [if_pos h2] at this
          have hx := Option.some.inj this
          rw [h2.1, (hnew h2.2).2, ← hx, headD_append hpe]
        · rw [if_neg h2] at this
          exact absurd this (by simp)

/-- The code loop over codes that follow one another. -/
theorem lzwDecLoop_append (cfg : Config) (xs ys : List Nat) : ∀ (i : Nat) (d : LzwDec),
    lzwDecLoop cfg i (xs ++ ys) d =
      match lzwDecLoop cfg i xs d with
      | .error e => .error e
      | .ok d' => lzwDecLoop cfg (i + xs.length) ys d' := by
  induction xs with
  | nil => intro i d; rfl
  | cons x xs ih =>
    intro i d
    rw [List.cons_append, lzwDecLoop, lzwDecLoop]
    cases lzwDecStep cfg i x d with
    | error e => rfl
    | ok d' =>
      simp only [ih, List.length_cons, show i + 1 + xs.length = i + (xs.length + 1) by omega]

/-- R182, R186: codes that decode run through the loop, unless their output overflows. -/
theorem lzwDecLoop_decodes {cfg : Config} (hn : 256 ≤ cfg.dictSize) (xs : List Nat) :
    ∀ {ks : List Nat} {es fs : List (List Byte)} {d : LzwDec}, DecAt cfg.dictSize ks es d →
      LzwDecodesTo cfg.dictSize (ks ++ xs) (es ++ fs) →
      (∃ d', lzwDecLoop cfg ks.length xs d = .ok d' ∧ DecAt cfg.dictSize (ks ++ xs) (es ++ fs) d' ∧
        ((es ++ fs).flatten.length ≤ cfg.outCap ∨ xs = [])) ∨
      (lzwDecLoop cfg ks.length xs d = .error (Raise.capacity .capOut) ∧ cfg.outCap < (es ++ fs).flatten.length) := by
  induction xs with
  | nil =>
    intro ks es fs d h hd
    have : fs = [] := by
      have h1 := hd.1
      have h2 := h.len
      simp at h1
      exact List.length_eq_zero_iff.mp (by omega)
    subst this
    exact .inl ⟨d, rfl, by simpa using h, .inr rfl⟩
  | cons x xs ih =>
    intro ks es fs d h hd
    cases fs with
    | nil =>
      have h1 := hd.1
      have h2 := h.len
      simp at h1
      omega
    | cons f fs =>
      have hassoc : ks ++ x :: xs = ks ++ [x] ++ xs := by simp
      have hassoc' : es ++ f :: fs = es ++ [f] ++ fs := by simp
      have hpre : LzwDecodesTo cfg.dictSize (ks ++ [x]) (es ++ [f]) := by
        rw [hassoc, hassoc'] at hd
        exact hd.first (by simp [h.len])
      have hsays := ((lzwDecodesTo_snoc h.len).mp hpre).2
      have he := (h.entry hn x f).mpr hsays
      rw [lzwDecLoop]
      rcases lzwDecStep_cases cfg ks.length x d with ⟨hx, _⟩ | ⟨entry, hx, hcap, hs⟩ | ⟨entry, hx, hcap, hs⟩
      · rw [hx] at he
        exact absurd he (by simp)
      · rw [hx] at he
        have := Option.some.inj he
        subst this
        rw [hs]
        refine .inr ⟨rfl, ?_⟩
        rw [hassoc', List.flatten_append, List.flatten_append, ← h.out]
        simp
        omega
      · rw [hx] at he
        have := Option.some.inj he
        subst this
        rw [hs]
        have hat := h.snoc hn hx
        rw [hassoc, hassoc'] at hd ⊢
        have := ih hat hd
        rw [List.length_append, List.length_singleton] at this
        rcases this with ⟨d', h1, h2, h3⟩ | h1
        · refine .inl ⟨d', h1, h2, .inl ?_⟩
          rcases h3 with h3 | h3
          · exact h3
          · subst h3
            have h5 := hd.1
            have h6 := h.len
            simp at h5
            have : fs = [] := List.length_eq_zero_iff.mp (by omega)
            subst this
            rw [List.append_nil, List.flatten_append, ← h.out]
            simpa using hcap
        · exact .inr h1

/-- R182: what runs through the loop decodes. -/
theorem lzwDecLoop_sound {cfg : Config} (hn : 256 ≤ cfg.dictSize) (xs : List Nat) :
    ∀ {ks : List Nat} {es : List (List Byte)} {d d' : LzwDec}, DecAt cfg.dictSize ks es d →
      LzwDecodesTo cfg.dictSize ks es → lzwDecLoop cfg ks.length xs d = .ok d' →
      ∃ fs, DecAt cfg.dictSize (ks ++ xs) (es ++ fs) d' ∧ LzwDecodesTo cfg.dictSize (ks ++ xs) (es ++ fs) := by
  induction xs with
  | nil =>
    intro ks es d d' h hd hl
    cases hl
    exact ⟨[], by simpa using h, by simpa using hd⟩
  | cons x xs ih =>
    intro ks es d d' h hd hl
    rw [lzwDecLoop] at hl
    rcases lzwDecStep_cases cfg ks.length x d with ⟨_, hs⟩ | ⟨entry, _, _, hs⟩ | ⟨entry, hx, _, hs⟩
    · rw [hs] at hl
      exact absurd hl (by simp)
    · rw [hs] at hl
      exact absurd hl (by simp)
    · rw [hs] at hl
      simp only at hl
      have hat := h.snoc hn hx
      have hto := (lzwDecodesTo_snoc h.len).mpr ⟨hd, (h.entry hn x entry).mp hx⟩
      obtain ⟨fs, h1, h2⟩ := ih hat hto (by rw [List.length_append, List.length_singleton]; exact hl)
      refine ⟨entry :: fs, ?_, ?_⟩
      · simpa using h1
      · simpa using h2

theorem lzwDecodesTo_nil (n : Nat) : LzwDecodesTo n [] [] := ⟨rfl, by simp⟩

/-- Codes have one decoding. -/
theorem LzwDecodesTo.unique {n : Nat} (hn : 256 ≤ n) {ks : List Nat} {es fs : List (List Byte)}
    (h : LzwDecodesTo n ks es) (h' : LzwDecodesTo n ks fs) : es = fs := by
  induction ks using List.reverseRecOn generalizing es fs with
  | nil =>
    have h1 := h.1
    have h2 := h'.1
    simp at h1 h2
    rw [h1, h2]
  | append_singleton ks k ih =>
    have hes : es ≠ [] := by
      intro h0
      have := h.1
      rw [h0] at this
      simp at this
    have hfs : fs ≠ [] := by
      intro h0
      have := h'.1
      rw [h0] at this
      simp at this
    obtain ⟨es, e, rfl⟩ : ∃ l x, es = l ++ [x] := ⟨es.dropLast, es.getLast hes, (List.dropLast_append_getLast hes).symm⟩
    obtain ⟨fs, f, rfl⟩ : ∃ l x, fs = l ++ [x] := ⟨fs.dropLast, fs.getLast hfs, (List.dropLast_append_getLast hfs).symm⟩
    have hle : es.length = ks.length := by simpa using h.1
    have hlf : fs.length = ks.length := by simpa using h'.1
    obtain ⟨ha, hb⟩ := (lzwDecodesTo_snoc hle).mp h
    obtain ⟨ha', hb'⟩ := (lzwDecodesTo_snoc hlf).mp h'
    have heq := ih ha ha'
    subst heq
    -- the loop's variables over `ks` decide the string of `k`
    obtain ⟨cfg, hc, hcap⟩ : ∃ cfg : Config, cfg.dictSize = n ∧ es.flatten.length ≤ cfg.outCap :=
      ⟨{ Config.reference with outCap := es.flatten.length, dictSize := n }, rfl, le_refl _⟩
    subst hc
    rcases lzwDecLoop_decodes (cfg := cfg) hn ks (DecAt.init hn) (by simpa using ha) with ⟨d, _, hat, _⟩ | ⟨_, hov⟩
    · have hat' : DecAt cfg.dictSize ks es d := by simpa using hat
      have e1 := (hat'.entry hn k e).mpr hb
      have e2 := (hat'.entry hn k f).mpr hb'
      rw [e1] at e2
      rw [Option.some.inj e2]
    · rw [List.nil_append] at hov
      omega

/-- R182: LZW_DECODE of a frame whose codes decode to strings that fit OBUF. -/
theorem lzwDecode_of_reads {cfg : Config} {F : List Byte} {w : Nat} {ks : List Nat} {es : List (List Byte)}
    (hd : 256 ≤ cfg.dictSize) (h : LzwFrameReads F w ks) (he : LzwDecodesTo cfg.dictSize ks es)
    (hcap : es.flatten.length ≤ cfg.outCap) :
    ∃ hid, lzwDecode cfg F = .ok ({ out := es.flatten, lzwWidth := w, lzwCount := ks.length }, hid) := by
  have h0 : F.length ≠ 0 := by
    have := h.five_le
    omega
  have hz : ([] : List Nat).length = 0 := rfl
  rcases lzwDecLoop_decodes (cfg := cfg) hd ks (DecAt.init hd) (fs := es) (by simpa using he) with ⟨d', h1, h2, _⟩ | ⟨h1, h2⟩
  · rw [hz] at h1
    rcases lzwDecode_of_parse cfg h0 h.parse with ⟨e, hl, _⟩ | ⟨d, hid, hl, hx⟩ <;> rw [h1] at hl <;> cases hl
    have : d'.out = es.flatten := by simpa using h2.out
    rw [this] at hx
    exact ⟨hid, hx⟩
  · simp only [List.nil_append] at h2
    omega

end Sys2Proof.Machine
end

