-- ==== Sys2Proof/Laws/PerInstr.lean ====
section
/-! SUPPORT. Per command: its COMMAND word (30_encoding.md R111 to R115). -/

namespace Sys2Proof.Laws.Encoding

/-- The command's word is well formed, its value is the command's OP, and the decoder reads the command from it, as from the
row of the opcode table. -/
def Statement (i : Instr) : Prop :=
  i.wf = true ∧ (encode i).toNat = i.opcode.toNat ∧ decode (encode i) = .ok i ∧
    decodeTableWord 32 (encode i).toNat = some i

theorem lzwEncode : Statement .lzwEncode := ⟨by decide, by decide, by decide, by decide⟩

theorem lzwDecode : Statement .lzwDecode := ⟨by decide, by decide, by decide, by decide⟩

theorem hufEncode : Statement .hufEncode := ⟨by decide, by decide, by decide, by decide⟩

theorem hufDecode : Statement .hufDecode := ⟨by decide, by decide, by decide, by decide⟩

end Sys2Proof.Laws.Encoding
end

