-- ==== Sys2Proof/Tests/Slice0.lean ====
section
/-! SUPPORT. The model's own tests: ill-formed terms that are refused, words written out from the opcode table, one step of each
command on vectors of 95_test_vectors.md, and a witness for the hypotheses of every obligation that has some. -/

namespace Sys2Proof.Tests

open Sys2Proof.Machine

/-! ### Ill-formed terms -/

/-- R113: the lowest and the highest reserved bit. -/
theorem test_wf_reserved_bits : commandWordWf 0x00000011#32 = false ∧ commandWordWf 0x80000003#32 = false := by decide

/-- R115: the reserved OP values next to the defined ones. -/
theorem test_wf_reserved_op :
    commandWordWf 0x00000000#32 = false ∧ commandWordWf 0x00000005#32 = false ∧ commandWordWf 0x0000000F#32 = false := by
  decide

/-- The configuration of 95_test_vectors.md with other capacities. -/
def withAll (inCap outCap dictSize : Nat) : Config :=
  { Config.reference with inCap := inCap, outCap := outCap, dictSize := dictSize }

/-- R9: IN_CAP below and above its range. -/
theorem test_wf_in_cap :
    (withAll 0 1 256).wf = false ∧
      (withAll (2 ^ 29) 1 256).wf = false := by decide

/-- R10: OUT_CAP below and above its range. -/
theorem test_wf_out_cap :
    (withAll 1 0 256).wf = false ∧
      (withAll 1 (2 ^ 32) 256).wf = false := by decide

/-- R11: DICT_SIZE below and above its range. -/
theorem test_wf_dict_size :
    (withAll 1 1 255).wf = false ∧
      (withAll 1 1 (2 ^ 31 + 1)).wf = false := by decide

/-- R9 to R11: the least and the greatest configuration. -/
theorem test_wf_ends :
    (withAll 1 1 256).wf = true ∧
      (withAll (2 ^ 29 - 1) (2 ^ 32 - 1) (2 ^ 31)).wf = true := by decide

/-- The address order of a buffer's memory. -/
theorem test_memory_wf : Memory.wf [(1, 0), (0, 0)] = false ∧ Memory.wf [(0, 0), (0, 1)] = false := by decide

/-- R82 to R84: a register access of 16 bits, at 0x02 and at 0x40, and an index at each capacity, are out of contract. -/
theorem test_contract :
    Transaction.inContract Config.reference (.regRead 16 0) = false ∧
      Transaction.inContract Config.reference (.regRead 32 2) = false ∧
      Transaction.inContract Config.reference (.regWrite 32 0x40 0) = false ∧
      Transaction.inContract Config.reference (.ibufRead 16384) = false ∧
      Transaction.inContract Config.reference (.obufWrite 65536 0) = false ∧
      Transaction.inContract Config.reference (.obufRead 65535) = true := by decide

/-- R85, R86: the placement of State.reset keeps the spaces apart; one in which IBUF begins inside REG does not, nor one in
which OBUF begins at the last byte of IBUF; spaces that touch are apart. -/
theorem test_placement :
    Config.reference.placementOk = true ∧
      Config.placementOk { Config.reference with place := { reg := 0x0, ibuf := 0x3F, obuf := 0x10000 } } = false ∧
      Config.placementOk { Config.reference with place := { reg := 0x0, ibuf := 0x4000, obuf := 0x7FFF } } = false ∧
      Config.placementOk { Config.reference with place := { reg := 0x14000, ibuf := 0x10000, obuf := 0x0 } } = true := by
  decide

/-- R86: what stands at the first and the last address of each space, and next to them; another placement. -/
theorem test_locate :
    ([0x0, 0x3F, 0x40, 0x3FFF, 0x4000, 0x7FFF, 0x8000, 0xFFFF, 0x10000, 0x1FFFF, 0x20000].map Config.reference.locate) =
        [some (.reg, 0), some (.reg, 63), none, none, some (.ibuf, 0), some (.ibuf, 16383), none, none, some (.obuf, 0),
          some (.obuf, 65535), none] ∧
      HostLine.writeWordAt { Config.reference with place := { reg := 0x90000, ibuf := 0, obuf := 0x10000 } } 0x90008 10 =
        some (HostLine.wreg .inLen 10) := by decide

/-- R83: a write of two bytes at a system address is two byte transactions; one that runs off the end of IBUF's addresses is
none of CORE's. -/
theorem test_writeBytesAt :
    HostLine.writeBytesAt Config.reference 0x4001 [0x41, 0x42] = some (HostLine.load 1 [0x41, 0x42]) ∧
      HostLine.writeBytesAt Config.reference 0x7FFF [0x41, 0x42] = none ∧
      HostLine.readBytesAt Config.reference 0x10000 2 = some (HostLine.dumpRest 2) := by decide

/-- R82, R84: a byte write at the address of COMMAND is no COMMAND write: it is refused. -/
theorem test_byte_in_reg :
    HostLine.writeBytesAt Config.reference 0x0 [0x01] = some [.txn (.regWrite 8 0 1)] ∧
      Transaction.inContract Config.reference (.regWrite 8 0 1) = false ∧
      HostLine.writeWordAt Config.reference 0x4000 1 = none := by decide

/-! ### Decoding: the words of the opcode table, bit by bit (R111, R114) -/

theorem test_decode_lzwEncode : decode 0b00000000000000000000000000000001#32 = .ok .lzwEncode := by decide

theorem test_decode_lzwDecode : decode 0b00000000000000000000000000000010#32 = .ok .lzwDecode := by decide

theorem test_decode_hufEncode : decode 0b00000000000000000000000000000011#32 = .ok .hufEncode := by decide

theorem test_decode_hufDecode : decode 0b00000000000000000000000000000100#32 = .ok .hufDecode := by decide

/-- 95_test_vectors.md 2.1: the words that are refused, RSVD before OP. -/
theorem test_decode_refused :
    decode 0x00000000#32 = .error .badOpcode ∧ decode 0x00000005#32 = .error .badOpcode ∧
      decode 0x0000000F#32 = .error .badOpcode ∧ decode 0x00000010#32 = .error .reservedBits ∧
      decode 0x00000011#32 = .error .reservedBits ∧ decode 0xFFFFFFFF#32 = .error .reservedBits := by decide

theorem test_decodeTableWord : decodeTableWord 32 3 = some .hufEncode ∧ decodeTableWord 32 5 = none := by decide

/-! ### One step of each command -/

/-- The machine with the command `op` running on the bytes `X`. -/
def running (c : Config) (op : Instr) (X : List Byte) : State :=
  { State.resetWith c with
    seq := .busy op, lastOp := op.opcode, inLen := BitVec.ofNat 32 X.length, latchedLen := BitVec.ofNat 32 X.length,
    ibuf := Memory.ofBytes X }

/-- The configuration of 95_test_vectors.md with another OUT_CAP and DICT_SIZE. -/
def withCaps (outCap dictSize : Nat) : Config := withAll 16384 outCap dictSize

/-- After one step the registers, in the order STATUS, LZW_WIDTH, LZW_COUNT, HUF_SYMBOLS, HUF_BITLEN, HUF_PAD, ERR_DETAIL,
ERR_POS, read `regs`, and OBUF holds `out`, OUT_LEN bytes. -/
def yields (s : State) (regs : List Nat) (out : List Byte) : Bool :=
  match step s with
  | .next t =>
    ([Reg.status, .lzwWidth, .lzwCount, .hufSymbols, .hufBitlen, .hufPad, .errDetail, .errPos].map t.reg == regs) &&
      (t.reg .outLen == out.length) && ((List.range out.length).map t.obufByte == out)
  | _ => false

/-- R289: the examples of the utilities. -/
theorem test_framing_bits :
    bitsOf 259 16 = [false, false, false, false, false, false, false, true, false, false, false, false, false, false, true, true] ∧
      bitsOf 5 4 = [false, true, false, true] ∧ pack [true, false, true] = [0xA0] ∧
      pack [true, false, true, true, false] = [0xB0] ∧
      pack (bitsOf 0 2 ++ bitsOf 1 2 ++ bitsOf 2 2 ++ bitsOf 3 2) = [0x1B] ∧ pack [] = [] ∧ unpack [0x7F] 1 = [false] ∧
      value [true, true, false] = 6 ∧ be16 256 = [0x01, 0x00] ∧ be32 19 = [0x00, 0x00, 0x00, 0x13] ∧ padLen 19 = 5 ∧
      padLen 8 = 0 := by decide

/-- R289: the examples of the table. -/
theorem test_framing_table :
    serializeTable (hufBuild [0x41, 0x41, 0x41, 0x41, 0x42, 0x42, 0x42, 0x43, 0x43, 0x44]).code 4 =
        [0x00, 0x04, 0x41, 0x01, 0x00, 0x42, 0x02, 0x80, 0x43, 0x03, 0xE0, 0x44, 0x03, 0xC0] ∧
      parseTable [0x00, 0x02, 0x42, 0x01, 0x80, 0x41, 0x01, 0x00, 0xFF] =
        .ok (2, [(0x42, [true]), (0x41, [false])], 8) := by decide +kernel

/-- R175: Scenario 1. -/
theorem test_lzwEncode_scenario1 :
    yields (running Config.reference .lzwEncode [0x41, 0x41, 0x41, 0x41, 0x42, 0x42, 0x42, 0x43, 0x43, 0x44])
      [0x00000102, 16, 8, 0, 0, 0, 0, 0]
      [0x10, 0x00, 0x00, 0x00, 0x08, 0x00, 0x41, 0x01, 0x00, 0x00, 0x41, 0x00, 0x42, 0x01, 0x03, 0x00, 0x43, 0x00, 0x43,
        0x00, 0x44] = true := by decide +kernel

/-- 95_test_vectors.md 2.2: the dictionary stops growing at 257 entries; with OUT_CAP 20 Scenario 1 fails. -/
theorem test_lzwEncode_caps :
    yields (running (withCaps 65536 257) .lzwEncode [0x41, 0x41, 0x41, 0x41]) [0x00000102, 16, 3, 0, 0, 0, 0, 0]
      [0x10, 0x00, 0x00, 0x00, 0x03, 0x00, 0x41, 0x01, 0x00, 0x00, 0x41] = true ∧
    yields (running (withCaps 20 4096) .lzwEncode [0x41, 0x41, 0x41, 0x41, 0x42, 0x42, 0x42, 0x43, 0x43, 0x44])
      [0x00000122, 0, 0, 0, 0, 0, 14, 0] [] = true := by decide +kernel

/-- 95_test_vectors.md 2.3: the self-referential code, and the pad bits that are ignored. -/
theorem test_lzwDecode_ok :
    yields (running Config.reference .lzwDecode [0x10, 0x00, 0x00, 0x00, 0x02, 0x00, 0x41, 0x01, 0x00])
      [0x00000202, 16, 2, 0, 0, 0, 0, 0] [0x41, 0x41, 0x41] = true ∧
    yields (running Config.reference .lzwDecode [0x01, 0x00, 0x00, 0x00, 0x01, 0x7F]) [0x00000202, 1, 1, 0, 0, 0, 0, 0]
      [0x00] = true := by decide +kernel

/-- R190, 95_test_vectors.md 2.3: Scenario 4; a full dictionary; a frame one byte too long. -/
theorem test_lzwDecode_malformed :
    yields (running Config.reference .lzwDecode [0x10, 0x00, 0x00, 0x00, 0x02, 0x00, 0x41, 0x01, 0xF4])
      [0x00000212, 0, 0, 0, 0, 0, 4, 1] [] = true ∧
    yields (running (withCaps 65536 256) .lzwDecode [0x10, 0x00, 0x00, 0x00, 0x02, 0x00, 0x41, 0x01, 0x00])
      [0x00000212, 0, 0, 0, 0, 0, 4, 1] [] = true ∧
    yields (running Config.reference .lzwDecode [0x08, 0x00, 0x00, 0x00, 0x01, 0x41, 0x00])
      [0x00000212, 0, 0, 0, 0, 0, 3, 0] [] = true := by decide +kernel

/-- R247: Scenario 1. -/
theorem test_hufEncode_scenario1 :
    yields (running Config.reference .hufEncode [0x41, 0x41, 0x41, 0x41, 0x42, 0x42, 0x42, 0x43, 0x43, 0x44])
      [0x00000302, 0, 0, 4, 19, 5, 0, 0]
      [0x00, 0x04, 0x41, 0x01, 0x00, 0x42, 0x02, 0x80, 0x43, 0x03, 0xE0, 0x44, 0x03, 0xC0, 0x00, 0x00, 0x00, 0x13, 0x05,
        0x0A, 0xBF, 0xC0] = true := by decide +kernel

/-- 95_test_vectors.md 2.5: "ABCCDD", where the ties are broken by the least index. -/
theorem test_hufEncode_ties :
    yields (running Config.reference .hufEncode [0x41, 0x42, 0x43, 0x43, 0x44, 0x44]) [0x00000302, 0, 0, 4, 12, 4, 0, 0]
      [0x00, 0x04, 0x41, 0x02, 0x00, 0x42, 0x02, 0x40, 0x43, 0x02, 0x80, 0x44, 0x02, 0xC0, 0x00, 0x00, 0x00, 0x0C, 0x04,
        0x1A, 0xF0] = true := by decide +kernel

/-- 95_test_vectors.md 2.6: entries out of order; an incomplete table. -/
theorem test_hufDecode_ok :
    yields (running Config.reference .hufDecode
        [0x00, 0x02, 0x42, 0x01, 0x80, 0x41, 0x01, 0x00, 0x00, 0x00, 0x00, 0x02, 0x06, 0x40])
      [0x00000402, 0, 0, 2, 2, 6, 0, 0] [0x41, 0x42] = true ∧
    yields (running Config.reference .hufDecode [0x00, 0x01, 0x41, 0x02, 0x00, 0x00, 0x00, 0x00, 0x04, 0x04, 0x00])
      [0x00000402, 0, 0, 1, 4, 4, 0, 0] [0x41, 0x41] = true := by decide +kernel

/-- 95_test_vectors.md 2.6: a codeword that is a prefix of another; trailing bits; more symbols than OUT_CAP. -/
theorem test_hufDecode_errors :
    yields (running Config.reference .hufDecode
        [0x00, 0x02, 0x41, 0x01, 0x00, 0x42, 0x02, 0x00, 0x00, 0x00, 0x00, 0x01, 0x07, 0x00])
      [0x00000412, 0, 0, 0, 0, 0, 9, 0] [] = true ∧
    yields (running Config.reference .hufDecode [0x00, 0x01, 0x41, 0x01, 0x00, 0x00, 0x00, 0x00, 0x03, 0x05, 0x20])
      [0x00000412, 0, 0, 0, 0, 0, 12, 2] [] = true ∧
    yields (running (withCaps 3 4096) .hufDecode
        [0x00, 0x01, 0x41, 0x01, 0x00, 0x00, 0x00, 0x00, 0x09, 0x07, 0x00, 0x00])
      [0x00000422, 0, 0, 0, 0, 0, 14, 0] [] = true := by decide +kernel

/-- 95_test_vectors.md 3.4: IN_LEN above IN_CAP. -/
theorem test_capInLen :
    yields { running Config.reference .hufEncode [] with latchedLen := 16385 } [0x00000322, 0, 0, 0, 0, 0, 13, 0] [] =
      true := by decide +kernel

/-- 95_test_vectors.md 2.1: rejected words complete within the write. -/
theorem test_rejected :
    ((State.commandWrite 0x00000015 State.reset).statusWord, (State.commandWrite 0x00000015 State.reset).res.errDetail) =
        (0x00000532, .cmdReservedBits) ∧
    ((State.commandWrite 0x00000007 State.reset).statusWord, (State.commandWrite 0x00000007 State.reset).res.errDetail) =
        (0x00000732, .badOpcode) := by decide

/-- R116: the placed word is the command that runs next. -/
theorem test_withFetchWord : yields (State.reset.withFetchWord 32 1) [0x00000102, 0, 0, 0, 0, 0, 0, 0] [] = true := by
  decide +kernel

/-! ### Witnesses

For each obligation with hypotheses, states and operands that meet them, clause by clause, at the ends of the ranges. -/

/-- Scenario 1 of the source. -/
def scenario1 : List Byte := [0x41, 0x41, 0x41, 0x41, 0x42, 0x42, 0x42, 0x43, 0x43, 0x44]

/-- LZW_ENCODE running on "A". -/
def busyA : State := running Config.reference .lzwEncode [0x41]

theorem busyA_inv : busyA.Inv where
  cfg_wf := by decide
  ibuf_wf := by decide
  ibuf_below := by decide
  obuf_lists := by decide
  outLen_le := by decide
  busy_status := fun i h => by cases h; decide
  notDone_ok := by decide
  detail_kind := by decide
  error_zero := by decide
  errPos_zero := by decide
  one_engine := by decide
  width_ok := by decide
  symbols_le := by decide
  pad_eq := by decide
  draws_lt := by decide

/-- An idle state that has failed a command. -/
def idleFailed : State := State.completeErr (Raise.capacity .capInLen) State.reset

theorem idleFailed_inv : idleFailed.Inv :=
  inv_completeErr (by decide) (by decide) (by decide) (by decide) (Raise.good_capacity rfl)

theorem witness_CommandWriteEffect :
    busyA.seq = .busy .lzwEncode ∧ State.reset.seq = .idle ∧ 16 ≤ (0x00000010#32).toNat ∧ 16 ≤ (0xFFFFFFFF#32).toNat ∧
      (0x00000000#32).toNat = 0 ∧ 5 ≤ (0x00000005#32).toNat ∧ (0x0000000F#32).toNat ≤ 15 ∧
      0x00000001#32 = encode .lzwEncode ∧ 0x00000004#32 = encode .hufDecode := by decide

theorem witness_HostCannotDisturbARunningCommand :
    ({ busyA with host := [.wait] } : State).seq = .busy .lzwEncode ∧ 16383 < busyA.cfg.inCap ∧
      ∃ t, hostTurn { busyA with host := [.wait] } = .next t := ⟨rfl, by decide, _, rfl⟩

theorem witness_InLenRegister :
    State.reset.seq = .idle ∧ busyA.seq = .busy .lzwEncode ∧
      (∃ t, transact (.regWrite 32 0x00 (encode .hufEncode)) State.reset = .next t) ∧
      ({ busyA with latchedLen := 16385 } : State).cfg.inCap < (16385#32).toNat ∧ ∃ t, exec .lzwEncode busyA = .next t :=
  ⟨rfl, rfl, ⟨_, transact_command _ _⟩, by decide, _, exec_eq _ _⟩

theorem witness_OnlyThreeTransactionsChangeCore :
    Transaction.inContract State.reset.cfg (.regWrite 32 0x3C 1) = true ∧
      Transaction.inContract State.reset.cfg (.obufWrite 65535 1) = true ∧
      (∀ v, Transaction.regWrite 32 0x3C 1 ≠ .regWrite 32 0x00 v) ∧ (∀ v, Transaction.regWrite 32 0x3C 1 ≠ .regWrite 32 0x08 v) ∧
      ∀ i b, Transaction.regWrite 32 0x3C 1 ≠ .ibufWrite i b := by
  refine ⟨by decide, by decide, ?_, ?_, ?_⟩ <;> intros <;> intro h <;> cases h

theorem witness_RegisterMapWhileIdle : State.reset.cfg.wf = true ∧ State.reset.seq = .idle := by decide

theorem witness_ReadsWhileBusy :
    busyA.Inv ∧ busyA.seq = .busy .lzwEncode ∧ Reg.isResult .outLen = true ∧ Reg.isResult .errPos = true :=
  ⟨busyA_inv, rfl, rfl, rfl⟩

theorem witness_CapRegistersNeverChange :
    (withAll 1 (2 ^ 32 - 1) (2 ^ 31)).wf = true ∧ busyA.cfg.wf = true ∧
      ∃ t, step busyA = .next t := ⟨by decide, by decide, _, by rw [step_eq]; rfl⟩

theorem witness_TransactionsOutsideTheContract :
    31 ≠ 32 ∧ 0x02 % 4 ≠ 0 ∧ 0x3C < 0x40 ∧ 0x3C % 4 = 0 ∧ 0x3C ≤ 0x3C ∧ State.reset.cfg.inCap ≤ 16384 ∧
      16383 < State.reset.cfg.inCap ∧ State.reset.cfg.outCap ≤ 65536 ∧ 65535 < State.reset.cfg.outCap ∧
      ({ State.reset with host := [.txn (.ibufRead 16384)] } : State).host = .txn (.ibufRead 16384) :: [] ∧
      transact (.ibufRead 16384) { State.reset with host := [.txn (.ibufRead 16384)] } = .refused (.ibufIndex 16384) :=
  ⟨by decide, by decide, by decide, by decide, by decide, by decide, by decide, by decide, by decide, rfl, rfl⟩

theorem witness_BufferTransactions :
    idleFailed.Inv ∧ idleFailed.seq = .idle ∧ busyA.Inv ∧ busyA.seq = .busy .lzwEncode ∧ 16383 < idleFailed.cfg.inCap ∧
      65535 < busyA.cfg.outCap ∧ 0 ≠ 16383 :=
  ⟨idleFailed_inv, rfl, busyA_inv, rfl, by decide, by decide, by decide⟩

theorem witness_EveryCommandCompletes : busyA.cfg.wf = true := by decide

theorem witness_OversizedLengthFails :
    ({ busyA with latchedLen := 16385 } : State).cfg.inCap < (16385#32).toNat ∧
      ({ busyA with latchedLen := 0xFFFFFFFF } : State).cfg.inCap < (0xFFFFFFFF#32).toNat ∧
      ({ busyA with latchedLen := 0 } : State).latchedLen = 0 := by decide

theorem witness_FailedCommandEffects :
    (busyA.cfg.wf = true ∧ ∃ t, exec .lzwEncode { busyA with latchedLen := 16385 } = .next t ∧ t.err ≠ .ok) ∧
      State.reset.seq = .idle ∧ decode 0x00000010#32 = .error .reservedBits ∧ decode 0x00000005#32 = .error .badOpcode ∧
      ∃ t, transact (.regWrite 32 0x00 0x00000010#32) State.reset = .next t :=
  ⟨⟨by decide, _, exec_eq _ _, by decide +kernel⟩, rfl, by decide, by decide, _, transact_command _ _⟩

theorem witness_EachCommandRaisesOnlyItsErrors : busyA.cfg.wf = true ∧ (∃ t, exec .lzwEncode busyA = .next t) ∧
    (∃ t, exec .lzwDecode busyA = .next t) ∧ (∃ t, exec .hufDecode busyA = .next t) :=
  ⟨by decide, ⟨_, exec_eq _ _⟩, ⟨_, exec_eq _ _⟩, _, exec_eq _ _⟩

/-- LZW_DECODE running on the frame of "AAA". -/
def decAAA (outCap : Nat) : State :=
  running (withCaps outCap 4096) .lzwDecode [0x10, 0x00, 0x00, 0x00, 0x02, 0x00, 0x41, 0x01, 0x00]

theorem decAAA_reads (outCap : Nat) : LzwFrameReads (decAAA outCap).input 16 [65, 256] := by
  have h : (decAAA outCap).input = [0x10, 0x00, 0x00, 0x00, 0x02, 0x00, 0x41, 0x01, 0x00] := rfl
  rw [h]
  exact ⟨by decide, by decide, by decide, by decide, by decide, by decide⟩

theorem decAAA_decodes : LzwDecodesTo 4096 [65, 256] [[0x41], [0x41, 0x41]] := by
  refine ⟨rfl, fun i hi => ?_⟩
  match i, hi with
  | 0, _ => exact .inl (by decide)
  | 1, _ => exact .inr ⟨0, by decide⟩

/-- The frame of nine times "A", from its trailer on. -/
def trailerA9 : List Byte := [0x00, 0x00, 0x00, 0x09, 0x07, 0x00, 0x00]

/-- The table with the one entry A = `0`. -/
def tableA : List Entry := [(0x41, [false])]

/-- HUF_DECODE running on the frame of nine times "A". -/
def decA9 (outCap : Nat) : State :=
  running (withCaps outCap 4096) .hufDecode ([0x00, 0x01, 0x41, 0x01, 0x00] ++ trailerA9)

theorem tableA_at (R : List Byte) : HufTableAt ([0x00, 0x01, 0x41, 0x01, 0x00] ++ R) tableA R :=
  ⟨0x00, 0x01, [0x41, 0x01, 0x00], rfl, by decide, by decide,
    .cons 0x41 [false] [0x00] [] [] (by decide) (by decide) (by decide) (by decide) .nil⟩

theorem tableA_sound : TableSound tableA := ⟨by decide, by simp [tableA]⟩

theorem trailerA9_at : HufTrailerAt trailerA9 (List.replicate 9 false) := ⟨by decide, by decide, by decide, by decide⟩

theorem decA9_input (outCap : Nat) : (decA9 outCap).input = [0x00, 0x01, 0x41, 0x01, 0x00] ++ trailerA9 := rfl

theorem tableA_spells (n : Nat) : Spells tableA (List.replicate n false) (List.replicate n 0x41) := by
  refine ⟨List.replicate n (0x41, [false]), fun e he => ?_, ?_, ?_⟩
  · rw [List.eq_of_mem_replicate he]
    decide
  · induction n with
    | zero => rfl
    | succ n ih => rw [List.replicate_succ, List.replicate_succ, List.flatMap_cons, ← ih]; rfl
  · simp

theorem witness_OutputOverflow :
    ((running (withCaps 20 4096) .lzwEncode scenario1).cfg.wf = true ∧
      (running (withCaps 20 4096) .lzwEncode scenario1).latchedLen.toNat ≤ 16384 ∧
      (running (withCaps 20 4096) .lzwEncode scenario1).input ≠ [] ∧
      20 < (lzwFrame (lzwCodes 4096 (running (withCaps 20 4096) .lzwEncode scenario1).input)).length) ∧
    (21 < (hufFrame (hufBuild scenario1).code (hufBuild scenario1).nSym (hufPayload (hufBuild scenario1).code scenario1)).length ∧
      (running (withCaps 21 4096) .hufEncode scenario1).input = scenario1) ∧
    ((decAAA 2).cfg.wf = true ∧ (decAAA 2).latchedLen.toNat ≤ 16384 ∧ LzwFrameReads (decAAA 2).input 16 ([65, 256] ++ []) ∧
      LzwDecodesTo (decAAA 2).cfg.dictSize [65, 256] [[0x41], [0x41, 0x41]] ∧
      (decAAA 2).cfg.outCap < [[0x41], [0x41, 0x41]].flatten.length) ∧
    ((decA9 3).cfg.wf = true ∧ (decA9 3).latchedLen.toNat ≤ 16384 ∧ HufTableAt (decA9 3).input tableA trailerA9 ∧
      TableSound tableA ∧ HufTrailerAt trailerA9 (List.replicate 4 false ++ List.replicate 5 false) ∧
      Spells tableA (List.replicate 4 false) (List.replicate 4 0x41) ∧
      (decA9 3).cfg.outCap < (List.replicate 4 (0x41 : Byte)).length) :=
  ⟨⟨by decide, by decide, by decide +kernel, by decide +kernel⟩, ⟨by decide +kernel, rfl⟩,
    ⟨by decide, by decide, decAAA_reads 2, decAAA_decodes, by decide⟩,
    ⟨by decide, by decide, tableA_at _, tableA_sound, trailerA9_at, tableA_spells 4, by decide⟩⟩

theorem witness_EmptyInputs : (running Config.reference .hufDecode []).latchedLen = 0 := by decide

theorem witness_LzwEncodeResult :
    (running (withCaps 21 4096) .lzwEncode scenario1).cfg.wf = true ∧
      (running (withCaps 21 4096) .lzwEncode scenario1).latchedLen.toNat ≤ 16384 ∧
      (running (withCaps 21 4096) .lzwEncode []).input = [] ∧
      (running (withCaps 21 4096) .lzwEncode scenario1).input = scenario1 ∧ scenario1 ≠ [] ∧
      (lzwFrame (lzwCodes 4096 scenario1)).length ≤ 21 :=
  ⟨by decide, by decide, rfl, rfl, by decide, by decide +kernel⟩

theorem witness_LzwFrameLayout :
    [0] ≠ ([] : List Nat) ∧ (∀ k ∈ [0], k < 2 ^ 32) ∧ (∀ k ∈ [2 ^ 32 - 1], k < 2 ^ 32) ∧ (1 ∈ [1, 2, 4, 8, 16, 32]) ∧
      (∀ k ∈ [0], k < 2 ^ 1) ∧ [0].length * 1 ≤ 7 ∧ 7 < 8 * ((lzwFrame [0]).length - 5) := by decide

theorem witness_LzwEncodeIsTheSourcesAlgorithm : 256 ≤ 256 := by decide

theorem witness_FindIsTheMapping :
    256 ≤ 257 ∧ 256 < (lzwScan 257 0x41 [0x41, 0x41]).dict.nextCode ∧ 255 < (lzwScan 256 0x41 [0x41]).dict.nextCode := by
  decide

theorem witness_DictionaryGrowth :
    255 < Dict.init.nextCode ∧ Dict.init.nextCode < 257 ∧ 256 ≤ Dict.init.nextCode := by decide

theorem witness_LzwEncodeCornerCases :
    256 ≤ 256 ∧ [0x41] ≠ ([] : List Byte) ∧ (([0x41, 0x42, 0x41] : List Byte).zip [0x42, 0x41]).Nodup ∧ 256 < 257 := by
  decide

/-- LZW_DECODE running on a byte string. -/
def lzwDec (F : List Byte) : State := running Config.reference .lzwDecode F

theorem witness_LzwParseChecks :
    (lzwDec []).cfg.wf = true ∧ (lzwDec [0x08, 0x00, 0x00, 0x00]).latchedLen.toNat ≤ 16384 ∧ (lzwDec []).input.length = 0 ∧
      1 ≤ (lzwDec [0x08]).input.length ∧ (lzwDec [0x08, 0x00, 0x00, 0x00]).input.length < 5 ∧
      (5 ≤ (lzwDec [0x09, 0x00, 0x00, 0x00, 0x00]).input.length ∧
        byteAt (lzwDec [0x09, 0x00, 0x00, 0x00, 0x00]).input 0 ∉ [1, 2, 4, 8, 16, 32]) ∧
      (byteAt (lzwDec [0x08, 0x00, 0x00, 0x00, 0x01]).input 0 ∈ [1, 2, 4, 8, 16, 32] ∧
        (lzwDec [0x08, 0x00, 0x00, 0x00, 0x01]).input.length ≠
          5 + ceilDiv (be32Read (lzwDec [0x08, 0x00, 0x00, 0x00, 0x01]).input 1 *
            byteAt (lzwDec [0x08, 0x00, 0x00, 0x00, 0x01]).input 0) 8) ∧
      (lzwDec [0x08, 0x00, 0x00, 0x00, 0x00]).input.length =
        5 + ceilDiv (be32Read (lzwDec [0x08, 0x00, 0x00, 0x00, 0x00]).input 1 *
          byteAt (lzwDec [0x08, 0x00, 0x00, 0x00, 0x00]).input 0) 8 := by decide +kernel

theorem witness_LzwDecodeResult :
    (decAAA 3).cfg.wf = true ∧ (decAAA 3).latchedLen.toNat ≤ 16384 ∧ (lzwDec []).input = [] ∧
      LzwFrameReads (decAAA 3).input 16 [65, 256] ∧ LzwDecodesTo (decAAA 3).cfg.dictSize [65, 256] [[0x41], [0x41, 0x41]] ∧
      [[0x41], [0x41, (0x41 : Byte)]].flatten.length ≤ (decAAA 3).cfg.outCap ∧
      ∃ t, exec .lzwDecode (decAAA 2) = .next t ∧ t.err ≠ .ok :=
  ⟨by decide, by decide, rfl, decAAA_reads 3, decAAA_decodes, by decide, _, exec_eq _ _, by decide +kernel⟩

theorem witness_LzwDecodeExactly :
    256 ≤ (withCaps 3 4096).dictSize ∧ (decAAA 3).input ≠ [] ∧ LzwFrameReads (decAAA 3).input 16 [65, 256] ∧
      LzwDecodesTo (withCaps 3 4096).dictSize [65, 256] [[0x41], [0x41, 0x41]] ∧
      ([0x41, 0x41, 0x41] : List Byte) = [[0x41], [0x41, 0x41]].flatten ∧ 3 ≤ (withCaps 3 4096).outCap :=
  ⟨by decide, by decide +kernel, decAAA_reads 3, decAAA_decodes, rfl, by decide⟩

theorem witness_LzwBadCodes :
    (LzwFrameReads [0x10, 0x00, 0x00, 0x00, 0x01, 0x01, 0x00] 16 ([] ++ 256 :: []) ∧ LzwDecodesTo 4096 [] []) ∧
      (LzwFrameReads [0x10, 0x00, 0x00, 0x00, 0x02, 0x00, 0x41, 0x01, 0x01] 16 ([65] ++ 257 :: []) ∧
        LzwDecodesTo 4096 [65] [[0x41]] ∧ [[(0x41 : Byte)]].flatten.length ≤ 1 ∧ 256 + [65].length ≤ 257) ∧
      (LzwFrameReads [0x10, 0x00, 0x00, 0x00, 0x02, 0x00, 0x41, 0x01, 0x00] 16 ([65] ++ 256 :: []) ∧
        LzwDecodesTo 256 [65] [[0x41]] ∧ 256 ≤ 256) := by
  have h : ∀ n, LzwDecodesTo n [65] [[0x41]] := fun n => ⟨rfl, fun i hi => by
    match i, hi with
    | 0, _ => exact .inl (by decide)⟩
  exact ⟨⟨⟨by decide, by decide, by decide, by decide, by decide, by decide⟩, rfl, by simp⟩,
    ⟨⟨by decide, by decide, by decide, by decide, by decide, by decide⟩, h _, by decide, by decide⟩,
    ⟨by decide, by decide, by decide, by decide, by decide, by decide⟩, h _, by decide⟩

theorem witness_LzwSelfReference :
    let d : LzwDec := { dict := Dict.init, prev := some (0x41, [0x41]), out := [0x41] }
    d.prev = some (0x41, [0x41]) ∧ 0x41 < d.dict.nextCode ∧ d.dict.str 0x41 = [0x41] ∧
      d.dict.nextCode < (withCaps 3 4096).dictSize ∧ d.out.length + [(0x41 : Byte)].length + 1 ≤ (withCaps 3 4096).outCap ∧
      d.dict.nextCode = (withCaps 3 256).dictSize ∧ (withCaps 3 256).dictSize ≤ 256 := by decide

/-- LZW_DECODE running, in the configuration of Scenario 1, on the frame of Scenario 1. -/
def copied : State :=
  running Config.reference .lzwDecode
    [0x10, 0x00, 0x00, 0x00, 0x08, 0x00, 0x41, 0x01, 0x00, 0x00, 0x41, 0x00, 0x42, 0x01, 0x03, 0x00, 0x43, 0x00, 0x43,
      0x00, 0x44]

theorem witness_LzwRoundTrip :
    let s := running Config.reference .lzwEncode scenario1
    let t := s.runCommand lzwEncode
    s.cfg.wf = true ∧ s.latchedLen.toNat ≤ s.cfg.inCap ∧ s.latchedLen.toNat ≤ s.cfg.outCap ∧ exec .lzwEncode s = .next t ∧
      t.err = .ok ∧ copied.cfg = s.cfg ∧ copied.latchedLen = t.res.outLen ∧ t.res.outLen.toNat ≤ s.cfg.inCap ∧
      ∀ i, i < t.res.outLen.toNat → copied.ibufByte i = t.obufByte i := by
  refine ⟨by decide, by decide, by decide, rfl, ?_⟩
  decide +kernel

theorem witness_LzwAcrossInstances :
    Config.reference.wf = true ∧ (withCaps 3 256).wf = true ∧ ([0x41, 0x41, 0x41] : List Byte).length ≤ 3 ∧
      (∃ r h, lzwEncode Config.reference [0x41, 0x41, 0x41] = .ok (r, h)) ∧
      Config.reference.dictSize ≤ (withCaps 3 4096).dictSize ∧ (withCaps 3 256).dictSize < Config.reference.dictSize ∧
      (∃ r h, lzwDecode (withCaps 3 4096) [0x10, 0x00, 0x00, 0x00, 0x02, 0x00, 0x41, 0x01, 0x00] = .ok (r, h)) := by
  have he := lzwEncode_cases Config.reference [0x41, 0x41, 0x41]
  have hd := lzwDecode_of_reads (cfg := withCaps 3 4096) (by decide) (decAAA_reads 3) decAAA_decodes (by decide)
  refine ⟨by decide, by decide, by decide, ?_, by decide, by decide, ?_⟩
  · rcases he with ⟨h, _⟩ | ⟨_, h, _⟩ | ⟨_, _, hid, h⟩
    · cases h
    · exact absurd h (by decide +kernel)
    · exact ⟨_, _, h⟩
  · obtain ⟨hid, h⟩ := hd
    exact ⟨_, _, h⟩

theorem witness_EncodersNeverFail :
    busyA.cfg.wf = true ∧ busyA.cfg.MeetsBound ∧
      ({ busyA with latchedLen := 16384 } : State).latchedLen.toNat ≤ busyA.cfg.inCap := by decide

theorem witness_TakeMinIsTheLeastPair : [0, 1] ≠ ([] : List Nat) := by decide

/-- The second input has one internal node, at index 2. -/
theorem witness_HufArenaShape :
    ([0x41] : List Byte) ≠ [] ∧ [0x41, 0x42].length ≤ 2 ∧ 2 < (hufBuild [0x41, 0x42]).arena.length := by decide +kernel

theorem witness_HufCodewordsArePaths :
    2 ≤ (hufBuild [0x41, 0x42]).nSym ∧ (0x41 : Byte) ∈ ([0x41, 0x42] : List Byte) := by
  rw [hufBuild_nSym_dedup]
  decide

theorem witness_HufTableIsPrefixFree :
    (0x41 : Byte) ∈ ([0x41, 0x42] : List Byte) ∧ (0x42 : Byte) ∈ ([0x41, 0x42] : List Byte) ∧ (0x41 : Byte) ≠ 0x42 := by
  decide

theorem witness_HufTableBounds :
    ([0x41] : List Byte) ≠ [] ∧ (0x42 : Byte) ∉ ([0x41] : List Byte) ∧ (0x41 : Byte) ∈ ([0x41] : List Byte) ∧
      (hufBuild [0x41]).nSym = 1 ∧ 2 ≤ (hufBuild [0x41, 0x42]).nSym ∧ (0x41 : Byte) ∈ ([0x41, 0x42] : List Byte) := by
  rw [hufBuild_nSym_dedup, hufBuild_nSym_dedup]
  decide

theorem witness_HufIsOptimal :
    ([0x41, 0x42] : List Byte) ≠ [] ∧ Assigns [(0x41, [true]), (0x42, [false, false])] [0x41, 0x42] ∧
      (hufBuild [0x41]).nSym = 1 := by
  refine ⟨by decide, ⟨by decide, fun s => by simp, by decide, by decide⟩, by rw [hufBuild_nSym_dedup]; decide⟩

theorem witness_HufPayloadLength : ([0x41] : List Byte) ≠ [] := by decide

theorem witness_HufLargerFrequencyIsNotLonger :
    (0x42 : Byte) ∈ ([0x41, 0x41, 0x42] : List Byte) ∧
      ([0x41, 0x41, 0x42] : List Byte).count 0x42 < ([0x41, 0x41, 0x42] : List Byte).count 0x41 := by decide

theorem witness_HufEncodeResult :
    let s := running (withCaps 22 4096) .hufEncode scenario1
    s.cfg.wf = true ∧ s.latchedLen.toNat ≤ s.cfg.inCap ∧ (running (withCaps 22 4096) .hufEncode []).input = [] ∧
      s.input = scenario1 ∧ scenario1 ≠ [] ∧
      (hufFrame (hufBuild scenario1).code (hufBuild scenario1).nSym (hufPayload (hufBuild scenario1).code scenario1)).length ≤
        s.cfg.outCap := ⟨by decide, by decide, rfl, rfl, by decide, by decide +kernel⟩

theorem witness_HufFrameLayout : scenario1 ≠ [] ∧ scenario1.length < 2 ^ 29 := by decide

theorem witness_HufSingleSymbolFrame : 1 ≤ 1 := by decide

/-- HUF_DECODE running on a byte string. -/
def hufDec (F : List Byte) : State := running Config.reference .hufDecode F

theorem witness_HufParseChecks :
    (hufDec []).cfg.wf = true ∧ (hufDec [0x00]).latchedLen.toNat ≤ 16384 ∧ (hufDec [0x00]).input.length = 1 ∧
      (2 ≤ (hufDec [0x01, 0x01]).input.length ∧ 256 < be16Read (hufDec [0x01, 0x01]).input 0) ∧
      ((hufDec [0x01, 0x00, 0x41]).input = 0x01 :: 0x00 :: ([] ++ [0x41]) ∧ TableReads [] [] ∧
        ([] : List Entry).length < (0x01#8).toNat * 2 ^ 8 + (0x00#8).toNat ∧
        (0x01#8).toNat * 2 ^ 8 + (0x00#8).toNat ≤ 256 ∧ ([0x41] : List Byte).length < 2) ∧
      ((hufDec [0x00, 0x01, 0x41, 0x00]).input = 0x00 :: 0x01 :: ([] ++ [0x41, 0x00]) ∧
        byteAt [0x41, 0x00] 1 = 0) ∧
      ((hufDec [0x00, 0x01, 0x41, 0x09, 0x00]).input = 0x00 :: 0x01 :: ([] ++ [0x41, 0x09, 0x00]) ∧
        byteAt [0x41, 0x09, 0x00] 1 ≠ 0 ∧ ([0x41, 0x09, 0x00] : List Byte).length < 2 + ceilDiv (byteAt [0x41, 0x09, 0x00] 1) 8) ∧
      HufTableAt (decA9 9).input tableA trailerA9 :=
  ⟨by decide, by decide, by decide +kernel, by decide +kernel, ⟨rfl, .nil, by decide, by decide, by decide⟩,
    ⟨rfl, by decide⟩, ⟨rfl, by decide, by decide⟩, tableA_at _⟩

/-- The table bytes of A = `0` and a second entry with symbol `s` and codeword `0`. -/
def tableTwo (s : Byte) : List Byte := [0x41, 0x01, 0x00, s, 0x01, 0x00]

theorem tableTwo_at (s : Byte) (R : List Byte) :
    HufTableAt (0x00 :: 0x02 :: (tableTwo s ++ R)) [(0x41, [false]), (s, [false])] R :=
  ⟨0x00, 0x02, tableTwo s, rfl, rfl, Nat.le_of_ble_eq_true rfl,
    .cons 0x41 [false] [0x00] _ _ (by decide) (by decide) (by decide) (by decide)
      (.cons s [false] [0x00] [] [] (by decide) (by decide) (by decide) (by decide) .nil)⟩

theorem witness_HufTableChecks :
    (hufDec (0x00 :: 0x02 :: (tableTwo 0x41 ++ []))).cfg.wf = true ∧
      (hufDec (0x00 :: 0x02 :: (tableTwo 0x41 ++ []))).latchedLen.toNat ≤ 16384 ∧
      (HufTableAt (0x00 :: 0x02 :: (tableTwo 0x41 ++ [])) [(0x41, [false]), (0x41, [false])] [] ∧
        ¬ ([((0x41 : Byte), [false]), (0x41, [false])].map Prod.fst).Nodup) ∧
      (HufTableAt (0x00 :: 0x02 :: (tableTwo 0x42 ++ [])) [(0x41, [false]), (0x42, [false])] [] ∧
        ([((0x41 : Byte), [false]), (0x42, [false])].map Prod.fst).Nodup ∧
        [false] <+: ([((0x41 : Byte), [false]), (0x42, [false])].getD 1 (0, [])).2) ∧
      (HufTableAt (decA9 9).input tableA trailerA9 ∧ TableSound tableA) :=
  ⟨by decide, by decide, ⟨tableTwo_at _ _, by decide⟩, ⟨tableTwo_at _ _, by decide, by decide⟩, tableA_at _, tableA_sound⟩

theorem witness_HufTrailerChecks :
    (∀ R, HufTableAt ([0x00, 0x01, 0x41, 0x01, 0x00] ++ R) tableA R) ∧ TableSound tableA ∧
      ([0x00, 0x00, 0x00, 0x09] : List Byte).length < 5 ∧
      byteAt [0x00, 0x00, 0x00, 0x09, 0x06] 4 ≠ padLen (be32Read [0x00, 0x00, 0x00, 0x09, 0x06] 0) ∧
      (byteAt [0x00, 0x00, 0x00, 0x09, 0x07] 4 = padLen (be32Read [0x00, 0x00, 0x00, 0x09, 0x07] 0) ∧
        ([0x00, 0x00, 0x00, 0x09, 0x07] : List Byte).length - 5 ≠ ceilDiv (be32Read [0x00, 0x00, 0x00, 0x09, 0x07] 0) 8) ∧
      (5 ≤ trailerA9.length ∧ byteAt trailerA9 4 = padLen (be32Read trailerA9 0) ∧
        trailerA9.length - 5 = ceilDiv (be32Read trailerA9 0) 8) :=
  ⟨tableA_at, tableA_sound, by decide, by decide, by decide, by decide⟩

theorem witness_HufTrailingBits :
    HufTableAt ([0x00, 0x01, 0x41, 0x01, 0x00] ++ [0x00, 0x00, 0x00, 0x03, 0x05, 0x20]) tableA
        [0x00, 0x00, 0x00, 0x03, 0x05, 0x20] ∧
      TableSound tableA ∧ HufTrailerAt [0x00, 0x00, 0x00, 0x03, 0x05, 0x20] ([false, false] ++ [true]) ∧
      Spells tableA [false, false] [0x41, 0x41] ∧ [true] ≠ ([] : List Bool) ∧ ∀ e ∈ tableA, ¬ e.2 <+: [true] :=
  ⟨tableA_at _, tableA_sound, ⟨by decide, by decide, by decide, by decide⟩, tableA_spells 2, by decide, by decide⟩

theorem witness_HufDecodeResult :
    (decA9 9).cfg.wf = true ∧ (decA9 9).latchedLen.toNat ≤ 16384 ∧ (hufDec []).input = [] ∧
      HufTableAt (decA9 9).input tableA trailerA9 ∧ TableSound tableA ∧ HufTrailerAt trailerA9 (List.replicate 9 false) ∧
      Spells tableA (List.replicate 9 false) (List.replicate 9 0x41) ∧
      (List.replicate 9 (0x41 : Byte)).length ≤ (decA9 9).cfg.outCap ∧
      ∃ t, exec .hufDecode (decA9 8) = .next t ∧ t.err ≠ .ok :=
  ⟨by decide, by decide, rfl, tableA_at _, tableA_sound, trailerA9_at, tableA_spells 9, by decide, _, exec_eq _ _,
    by decide +kernel⟩

theorem witness_HufDecodeExactly :
    (decA9 9).input ≠ [] ∧ HufTableAt (decA9 9).input tableA trailerA9 ∧ TableSound tableA ∧
      HufTrailerAt trailerA9 (List.replicate 9 false) ∧ Spells tableA (List.replicate 9 false) (List.replicate 9 0x41) :=
  ⟨by rw [decA9_input]; simp, tableA_at _, tableA_sound, trailerA9_at, tableA_spells 9⟩

/-- HUF_DECODE running on the frame that HUF_ENCODE makes of "AB" (95_test_vectors.md 2.5). -/
def copiedAB : State :=
  running Config.reference .hufDecode [0x00, 0x02, 0x41, 0x01, 0x00, 0x42, 0x01, 0x80, 0x00, 0x00, 0x00, 0x02, 0x06, 0x40]

theorem witness_HufRoundTrip :
    let s := running Config.reference .hufEncode [0x41, 0x42]
    let t := s.runCommand hufEncode
    s.cfg.wf = true ∧ s.latchedLen.toNat ≤ s.cfg.inCap ∧ s.latchedLen.toNat ≤ s.cfg.outCap ∧ exec .hufEncode s = .next t ∧
      t.err = .ok ∧ copiedAB.cfg = s.cfg ∧ copiedAB.latchedLen = t.res.outLen ∧ t.res.outLen.toNat ≤ s.cfg.inCap ∧
      ∀ i, i < t.res.outLen.toNat → copiedAB.ibufByte i = t.obufByte i := by
  refine ⟨by decide, by decide, by decide, rfl, ?_⟩
  decide +kernel

theorem witness_PackAndUnpack :
    7 < 8 * (pack [true]).length ∧ 8 ≤ 8 * ([0x7F] : List Byte).length ∧ 7 < 8 ∧ 255 < 2 ^ 8 := by decide

theorem witness_BigEndianFields :
    1 + 2 ≤ ([0x00, 0x01, 0x02] : List Byte).length ∧ 0 + 4 ≤ ([0x00, 0x00, 0x00, 0x13] : List Byte).length ∧
      65535 < 2 ^ 16 ∧ 4294967295 < 2 ^ 32 := by decide

theorem witness_StepRunsTheCommand :
    busyA.turn = .core ∧ busyA.seq = .busy .lzwEncode ∧
      (({ State.reset with schedule := [.core] } : State).turn = .core ∧ State.reset.seq = .idle) ∧
      State.reset.turn = .host ∧ decode (BitVec.ofNat 32 (4 % 2 ^ 32)) = .ok .hufDecode := by decide

theorem witness_ResetEvent :
    ({ busyA with schedule := [.reset] } : State).cfg.wf = true ∧
      ({ busyA with schedule := [.reset] } : State).turn = .reset := by decide

/-- A host that writes a word to COMMAND. -/
def writing (v : Word) : State := { State.reset with host := [.txn (.regWrite 32 0 v)] }

theorem witness_WhatChangesTheFlags :
    (busyA.turn = .core ∧ busyA.seq = .busy .lzwEncode ∧ ∃ t, step busyA = .next t) ∧
      (({ busyA with schedule := [.reset] } : State).turn = .reset ∧
        ∃ t, step { busyA with schedule := [.reset] } = .next t) ∧
      ((writing 1).WritesCommand 1 ∧ (writing 1).seq = .idle ∧ decode 1 = .ok .lzwEncode ∧ ∃ t, step (writing 1) = .next t) ∧
      ((writing 5).WritesCommand 5 ∧ (writing 5).seq = .idle ∧ decode 5 = .error .badOpcode ∧
        ∃ t, step (writing 5) = .next t) ∧
      (State.reset.turn ≠ .reset ∧ ¬ (State.reset.turn = .core ∧ ∃ op, State.reset.seq = .busy op) ∧
        ¬ ((∃ v, State.reset.WritesCommand v) ∧ State.reset.seq = .idle) ∧ ∃ t, step State.reset = .next t) := by
  refine ⟨⟨rfl, rfl, _, by rw [step_eq]; rfl⟩, ⟨rfl, _, by rw [step_eq]; rfl⟩,
    ⟨⟨rfl, _, rfl⟩, rfl, by decide, _, by rw [step_eq]; rfl⟩, ⟨⟨rfl, _, rfl⟩, rfl, by decide, _, by rw [step_eq]; rfl⟩,
    by decide, fun h => ?_, fun h => ?_, _, by rw [step_eq]; rfl⟩
  · exact absurd h.1 (by decide)
  · obtain ⟨⟨v, _, rest, h⟩, _⟩ := h
    cases h

theorem witness_InvariantAtReset : (withAll 1 1 256).wf = true := by decide

theorem witness_InvariantKept : busyA.Inv ∧ ∃ t, step busyA = .next t := ⟨busyA_inv, _, by rw [step_eq]; rfl⟩

theorem witness_MemoryForm :
    Memory.wf [(0, 1), (2, 3)] = true ∧ ∀ a, Memory.read [(0, 1), (2, 3)] a = Memory.read [(0, 1), (2, 3)] a :=
  ⟨by decide, fun _ => rfl⟩

theorem witness_StartedCommandsComplete :
    let s : State := { busyA with schedule := List.replicate 2 .host ++ .core :: [], host := [.wait, .dump] }
    let u : State := { busyA with schedule := List.replicate 0 .host ++ .core :: [], host := [.txn (.obufRead 65536)] }
    (s.seq = .busy .lzwEncode ∧ s.schedule = List.replicate 2 .host ++ .core :: [] ∧
      HostLine.turnsInContract s.cfg 2 s.host = true ∧ ∃ v : State, Sys2Proof.core.run 2 s = Host.Outcome.next v) ∧
      (u.schedule = List.replicate 0 .host ++ .core :: [] ∧ HostLine.turnsInContract u.cfg 0 u.host = true) ∧
      HostLine.turnsInContract s.cfg 3 [.txn (.regWrite 32 0 2), .copyByte 16383] = true ∧
      HostLine.turnsInContract s.cfg 1 [.dump] = true :=
  ⟨⟨rfl, rfl, rfl, _, rfl⟩, ⟨rfl, rfl⟩, by decide, rfl⟩

theorem witness_HostsInContractAreNotRefused :
    (step { State.reset with host := [.txn (.obufRead 65536)] } = .refused (.obufIndex 65536)) ∧
      (({ State.reset with host := [.txn (.obufRead 65536)] } : State).turn = .host ∧
        ({ State.reset with host := [.txn (.obufRead 65536)] } : State).NextLineRefused (.obufIndex 65536)) ∧
      ({ State.reset with host := [.copyByte 65536, .dump] } : State).NextLineRefused (.obufIndex 65536) ∧
      ∀ l ∈ [HostLine.wait, .txn (.regRead 32 0x3C), .copyByte 16383], l.inContract Config.reference = true :=
  ⟨by rw [step_eq]; rfl, ⟨rfl, _, _, rfl, .inl ⟨_, rfl, rfl⟩⟩, ⟨_, _, rfl, .inr ⟨_, rfl, rfl⟩⟩, by decide⟩

theorem witness_OnlyTheInputMatters :
    let u : State :=
      { busyA with
        host := [.wait], inLen := 5, done := true, cfg := { busyA.cfg with place := { reg := 1, ibuf := 1, obuf := 1 } } }
    busyA.cfg.wf = true ∧ u.cfg.inCap = busyA.cfg.inCap ∧ u.cfg.outCap = busyA.cfg.outCap ∧
      u.cfg.dictSize = busyA.cfg.dictSize ∧ u.latchedLen = busyA.latchedLen ∧
      (∀ j, j < busyA.latchedLen.toNat → u.ibufByte j = busyA.ibufByte j) ∧ ∃ t, exec .lzwEncode busyA = .next t :=
  ⟨by decide, rfl, rfl, rfl, rfl, fun _ _ => rfl, _, exec_eq _ _⟩

end Sys2Proof.Tests
end

/-! ## Proofs: CORE's state (10_state.md)

First the rules these proofs share: what a COMMAND write, a register read or write and a completion leave, and what the
CAP registers read as. Then the obligations, the invariant first. -/

namespace Sys2Proof.Machine

/-! ### The COMMAND write -/

/-- R116: an accepted word starts its command, with its opcode in LAST_OP. -/
theorem State.commandWrite_accepted {s : State} (h : s.seq = .idle) {v : Word} {i : Instr} (hd : decode v = .ok i) :
    s.commandWrite v = State.startCommand i { s with lastOp := i.opcode } := by
  rw [State.commandWrite, h, hd, opField_of_decode hd]

/-- R315: a rejected word completes within the write. -/
theorem State.commandWrite_rejected {s : State} (h : s.seq = .idle) {v : Word} {e : CommandError}
    (hd : decode v = .error e) :
    s.commandWrite v =
      State.completeErr (Raise.badCommand (badCommandDetail e)) { s with lastOp := opField v } := by
  rw [State.commandWrite, h, hd]

/-! ### Register reads and writes -/

/-- R93: a read that no running command leaves open shows the register's value and does nothing else. -/
theorem State.hostReadReg_settled {s : State} {r : Reg} (h : s.isBusy = false ∨ r.isResult = false) :
    s.hostReadReg r = s.sees (.reg r.offset (s.regValue r)) := by
  have hb : (s.isBusy && r.isResult) = false := Bool.and_eq_false_iff.mpr h
  simp [State.hostReadReg, State.readReg, hb]

/-- R52: while BUSY a result register answers the next free word. -/
theorem State.hostReadReg_open {s : State} {r : Reg} (hb : s.isBusy = true) (hr : r.isResult = true) :
    s.hostReadReg r =
      ({ s with draws := s.draws + 1 } : State).sees (.reg r.offset (Config.freeWord s.draws)) := by
  simp [State.hostReadReg, State.readReg, hb, hr]

/-- R38: a write of IN_LEN. -/
theorem transact_inLen (v : Word) (s : State) : transact (.regWrite 32 0x08 v) s = .next (s.writeInLen v) :=
  transact_regWrite .inLen v s

/-- R53: a write of any other register than COMMAND and IN_LEN is ignored. -/
theorem State.writeReg_ignored {r : Reg} (hc : r ≠ .command) (hl : r ≠ .inLen) (s : State) (v : Word) :
    s.writeReg r v = s := by
  cases r
  case command => exact absurd rfl hc
  case inLen => exact absurd rfl hl
  all_goals rfl

/-- R33: while IDLE every register answers the value it holds. -/
theorem reads_of_idle {s : State} (h : s.seq = .idle) (r : Reg) {n : Nat} (hn : (s.regValue r).toNat = n) :
    s.Reads r.offset n :=
  hn ▸ reads_reg (.inl (State.isBusy_idle h))

/-- R52: a register that is no result register answers the value it holds at all times. -/
theorem reads_of_not_result (s : State) (r : Reg) (h : r.isResult = false) {n : Nat} (hn : (s.regValue r).toNat = n) :
    s.Reads r.offset n :=
  hn ▸ reads_reg (.inr h)

/-- R48: in a configuration in range the CAP registers read as its parameters, in every state. -/
theorem reads_caps {s : State} (h : s.cfg.wf = true) :
    s.Reads 0x30 s.cfg.inCap ∧ s.Reads 0x34 s.cfg.outCap ∧ s.Reads 0x38 s.cfg.dictSize := by
  have hin := wf_inCap h
  have hout := wf_outCap h
  have hdict := (wf_dictSize h).2
  have hval : ∀ n, n < 2 ^ 32 → (BitVec.ofNat 32 n).toNat = n := fun _ => Nat.mod_eq_of_lt
  exact ⟨reads_of_not_result s .capIn rfl (hval _ (by omega)),
    reads_of_not_result s .capOut rfl (hval _ hout),
    reads_of_not_result s .capDict rfl (hval _ (by omega))⟩

/-! ### What a command reads and leaves -/

/-- R117: the input of a command is the bytes of IBUF below the latched length. -/
theorem State.input_eq_map (s : State) : s.input = (List.range s.latchedLen.toNat).map s.ibufByte := by
  simp [State.input, State.memRead]

/-- R38: no command writes IN_LEN. -/
theorem exec_inLen {i : Instr} {s t : State} (ht : exec i s = .next t) : t.inLen = s.inLen := by
  rw [exec_eq] at ht
  cases ht
  rcases s.runCommand_cases (engineOf i) with ⟨_, h⟩ | ⟨_, e, _, h⟩ | ⟨_, r, x, _, h⟩ <;> rw [h] <;> rfl

/-- R86: an engine looks at the two capacities and DICT_SIZE only. -/
theorem engineOf_congr (i : Instr) {c d : Config} (hin : d.inCap = c.inCap) (hout : d.outCap = c.outCap)
    (hdict : d.dictSize = c.dictSize) (X : List Byte) : engineOf i d X = engineOf i c X := by
  have hd : d = { c with place := d.place } := by
    cases d
    simp_all
  rw [hd, engineOf_place]

/-- R98: OBUF after a success holds its output, whatever the state it came in. -/
theorem State.completeOk_obufByte {r : Success} {j : Nat} (hj : j < r.out.length) (s : State) :
    (State.completeOk r s).obufByte j = r.out[j] := by
  simp [State.obufByte, Memory.read_ofBytes, hj]

/-! ### The invariant -/

/-- R64: a state whose registers and buffers are at their values after reset meets the invariant. -/
theorem inv_of_reset_values {s : State} (hc : s.cfg.wf = true) (hseq : s.seq = .idle) (herr : s.err = .ok)
    (hres : s.res = {}) (hibuf : s.ibuf = []) (hobuf : s.obuf = [])
    (hdraws : s.ibufDraw < s.draws ∧ s.obufDraw < s.draws) : s.Inv where
  cfg_wf := hc
  ibuf_wf := by rw [hibuf]; rfl
  ibuf_below := by rw [hibuf]; rfl
  obuf_lists := by rw [hobuf, hres]; rfl
  outLen_le := by rw [hres]; exact Nat.zero_le _
  busy_status := fun i h => by rw [hseq] at h; cases h
  notDone_ok := fun _ => herr
  detail_kind := fun _ => by rw [hres, herr]; rfl
  error_zero := fun _ => by rw [hres]; rfl
  errPos_zero := fun _ _ => by rw [hres]
  one_engine := by rw [hres]; exact .inl ⟨rfl, rfl⟩
  width_ok := by rw [hres]; rfl
  symbols_le := by rw [hres]; exact Nat.zero_le _
  pad_eq := by rw [hres]; rfl
  draws_lt := hdraws

theorem inv_resetWith {c : Config} (hc : c.wf = true) : (State.resetWith c).Inv :=
  inv_of_reset_values hc rfl rfl rfl rfl rfl ⟨Nat.zero_lt_two, Nat.one_lt_two⟩

/-- Settles O55: the values after reset meet the invariant, in the reference configuration as in every one in range. -/
theorem invariantAtReset : Obligations.InvariantAtReset :=
  ⟨inv_resetWith (by decide), fun _ hc => inv_resetWith hc⟩

theorem inv_resetEvent {s : State} (hc : s.cfg.wf = true) : s.resetEvent.Inv :=
  inv_of_reset_values hc rfl rfl rfl rfl rfl ⟨by simp, by simp⟩

theorem inv_hostTurn {s t : State} (h : s.Inv) (ht : hostTurn s = .next t) : t.Inv := by
  unfold hostTurn at ht
  split at ht
  · cases ht
    exact h
  · exact inv_runLine (h.outside _ _ _ (le_refl _)) ht

theorem inv_coreTurn {s t : State} (h : s.Inv) (ht : coreTurn s = .next t) : t.Inv := by
  unfold coreTurn at ht
  split at ht
  · cases ht
    exact h
  · exact inv_exec h ht

theorem inv_takeTurn {turn : Turn} {s t : State} (h : s.Inv) (ht : takeTurn turn s = .next t) : t.Inv := by
  cases turn with
  | host => exact inv_hostTurn h ht
  | core => exact inv_coreTurn h ht
  | reset =>
    cases ht
    exact inv_resetEvent h.cfg_wf

/-- Settles O56: the turn taken from the schedule keeps the invariant, whoever moves. -/
theorem invariantKept : Obligations.InvariantKept := by
  intro s t h ht
  rw [step_eq] at ht
  exact inv_takeTurn (h.outside _ _ _ (le_refl _)) ht

/-! ### The registers -/

/-- Settles O5, from the rules of the register file, of the COMMAND write and of a command's core step. -/
theorem inLenRegister : Obligations.InLenRegister := by
  refine ⟨fun s v h => ?_, fun s op v h => ?_, fun s => ?_, fun s t i h ht => ?_, fun i s h => ?_,
    fun i s t ht => exec_inLen ht⟩
  · rw [transact_inLen, State.writeInLen, State.isBusy_idle h]
    rfl
  · rw [transact_inLen, State.writeInLen, State.isBusy_busy h]
    rfl
  · exact (transact_regRead .inLen s).trans (by rw [State.hostReadReg_settled (.inr rfl)]; rfl)
  · rw [transact_command, State.commandWrite_accepted h (decode_encode i)] at ht
    cases ht
    exact ⟨rfl, State.input_eq_map _⟩
  · exact ⟨_, exec_capInLen h, State.failed_completeErr (Raise.good_capacity rfl) s⟩

/-- Settles O6, by cases on the transaction: reads only show values, and no other register than COMMAND and IN_LEN takes
a write. -/
theorem onlyThreeTransactionsChangeCore : Obligations.OnlyThreeTransactionsChangeCore := by
  intro s x hx hcommand hinLen hibuf
  cases x with
  | regRead w off =>
    refine ⟨_, transact_next hx, ?_⟩
    simp only [State.perform]
    split
    · exact sameCore_hostReadReg s _ []
    · rfl
  | regWrite w off v =>
    have hok : registerOk w off = true := by
      by_contra hn
      simp [Transaction.inContract, Transaction.refusal, hn] at hx
    obtain ⟨rfl, r, rfl⟩ := Reg.offset_of_ok hok
    have hr : s.writeReg r v = s :=
      State.writeReg_ignored (by rintro rfl; exact hcommand v rfl) (by rintro rfl; exact hinLen v rfl) s v
    exact ⟨s, by rw [transact_regWrite, hr], rfl⟩
  | ibufRead i => exact ⟨_, transact_next hx, rfl⟩
  | ibufWrite i b => exact absurd rfl (hibuf i b)
  | obufRead i => exact ⟨_, transact_next hx, sameCore_hostReadObuf s i []⟩
  | obufWrite i b => exact ⟨_, transact_next hx, rfl⟩

/-- Settles O7: every register answers the value it holds, whose unused upper bits are 0. -/
theorem registerMapWhileIdle : Obligations.RegisterMapWhileIdle := by
  intro s hc hidle
  have hread := fun r n => reads_of_idle hidle r (n := n)
  obtain ⟨hin, hout, hdict⟩ := reads_caps hc
  have hstatus : s.statusWord.toNat = s.lastOp.toNat * 2 ^ 8 + s.err.code.toNat * 2 ^ 4 + s.done.toNat * 2 := by
    simp [State.statusWord_toNat, State.isBusy_idle hidle]
  exact ⟨hread .command _ rfl, hread .status _ hstatus, hread .inLen _ rfl, hread .outLen _ rfl,
    hread .lzwWidth _ (BitVec.toNat_setWidth_of_le (by decide)), hread .lzwCount _ rfl,
    hread .hufSymbols _ (BitVec.toNat_setWidth_of_le (by decide)), hread .hufBitlen _ rfl,
    hread .hufPad _ (BitVec.toNat_setWidth_of_le (by decide)),
    hread .errDetail _ (BitVec.toNat_setWidth_of_le (by decide)), hread .errPos _ rfl, hread .reserved2C _ rfl,
    hin, hout, hdict, hread .reserved3C _ rfl⟩

/-- Settles O8: a result register answers a fresh word; STATUS is what the invariant says of a running command. -/
theorem readsWhileBusy : Obligations.ReadsWhileBusy := by
  intro s op hinv hbusy
  have hb := State.isBusy_busy hbusy
  obtain ⟨hdone, herr, hlast⟩ := hinv.busy_status op hbusy
  obtain ⟨hin, hout, hdict⟩ := reads_caps hinv.cfg_wf
  have hstatus : s.statusWord.toNat = op.opcode.toNat * 2 ^ 8 + 1 := by
    simp [State.statusWord_toNat, hb, hdone, herr, hlast, ErrKind.code]
  refine ⟨fun r hr => ?_, reads_of_not_result s .command rfl rfl, reads_of_not_result s .status rfl hstatus,
    reads_of_not_result s .inLen rfl rfl, reads_of_not_result s .reserved2C rfl rfl, hin, hout, hdict,
    reads_of_not_result s .reserved3C rfl rfl⟩
  rw [transact_regRead, State.hostReadReg_open hb hr]

/-- Settles O9: the CAP registers read as the configuration, which no step changes. -/
theorem capRegistersNeverChange : Obligations.CapRegistersNeverChange := by
  refine ⟨fun c hc => reads_caps (s := State.resetWith c) hc, fun s t hc ht => ?_⟩
  rw [← step_cfg ht] at hc ⊢
  exact reads_caps hc

/-! ### The buffers -/

/-- Settles O57, from the rules of the memory. -/
theorem memoryForm : Obligations.MemoryForm :=
  ⟨fun _ a b h => ⟨Memory.write_wf h a b, Memory.read_write h a b⟩, fun _ _ hm hn h => Memory.ext hm hn h⟩

/-- Settles O11: IBUF's canonical form, which the invariant holds, makes a write change its own byte only. -/
theorem bufferTransactions : Obligations.BufferTransactions := by
  intro s hinv
  refine ⟨fun i b hi hidle => ?_, fun i hi => transact_ibufRead hi, fun i b hi => transact_obufWrite hi b,
    fun i hi hidle => ?_, fun i op hi hbusy => ?_⟩
  · have hw : s.writeIbuf i b = { s with ibuf := s.ibuf.write i b } := by
      rw [State.writeIbuf_eq, State.isBusy_idle hidle]
      rfl
    refine ⟨_, by rw [transact_ibufWrite hi, hw], ?_, fun j hj => ?_, rfl⟩
    · simp [State.ibufByte, Memory.read_write hinv.ibuf_wf]
    · simp [State.ibufByte, Memory.read_write hinv.ibuf_wf, hj]
  · simp [transact_obufRead hi, State.hostReadObuf, State.readObuf, State.isBusy_idle hidle]
  · simp [transact_obufRead hi, State.hostReadObuf, State.readObuf, State.isBusy_busy hbusy]

/-! ### Reset, the flags, and what a command depends on -/

/-- Settles O53: the map as it reads while IDLE, at the values the reset event leaves. -/
theorem resetEvent : Obligations.ResetEvent := by
  intro s hc hturn
  obtain ⟨h00, h04, h08, h0C, h10, h14, h18, h1C, h20, h24, h28, h2C, h30, h34, h38, h3C⟩ :=
    registerMapWhileIdle ({ s with schedule := s.schedule.tail } : State).resetEvent hc rfl
  have hstatus : ({ s with schedule := s.schedule.tail } : State).resetEvent.Reads 0x04 0 := by
    simpa [ErrKind.code] using h04
  exact ⟨_, by rw [step_eq, hturn]; rfl, rfl, h00, hstatus, h08, h0C, h10, h14, h18, h1C, h20, h24, h28, h2C, h30,
    h34, h38, h3C, fun _ => rfl, fun _ => rfl, rfl, rfl, rfl⟩

/-- R63, R86, R91: of the state a command looks only at the capacities, DICT_SIZE, the latched length and the bytes of
IBUF below it. -/
theorem exec_congr {i : Instr} {s u t : State} (hin : u.cfg.inCap = s.cfg.inCap)
    (hout : u.cfg.outCap = s.cfg.outCap) (hdict : u.cfg.dictSize = s.cfg.dictSize)
    (hlen : u.latchedLen = s.latchedLen) (hbytes : ∀ j, j < s.latchedLen.toNat → u.ibufByte j = s.ibufByte j)
    (ht : exec i s = .next t) :
    ∃ v, exec i u = .next v ∧ v.err = t.err ∧ v.res = t.res ∧
      ∀ j, j < t.res.outLen.toNat → v.obufByte j = t.obufByte j := by
  have hengine : engineOf i u.cfg u.input = engineOf i s.cfg s.input := by
    rw [engineOf_congr i hin hout hdict, State.input_congr hlen hbytes]
  rw [exec_eq] at ht
  cases ht
  refine ⟨_, exec_eq i u, ?_⟩
  rcases s.runCommand_cases (engineOf i) with ⟨hc, h⟩ | ⟨hc, e, he, h⟩ | ⟨hc, r, x, he, h⟩ <;>
    rw [← hin, ← hlen] at hc <;> rw [h]
  · rw [State.runCommand, if_pos hc]
    exact ⟨rfl, rfl, fun _ hj => absurd hj (Nat.not_lt_zero _)⟩
  · rw [State.runCommand_error hc (hengine.trans he)]
    exact ⟨rfl, rfl, fun _ hj => absurd hj (Nat.not_lt_zero _)⟩
  · rw [State.runCommand_ok hc (hengine.trans he)]
    refine ⟨rfl, rfl, fun j hj => ?_⟩
    have hlt : j < r.out.length := by
      rw [State.completeOk_res_outLen, BitVec.toNat_ofNat] at hj
      exact Nat.lt_of_lt_of_le hj (Nat.mod_le _ _)
    exact (State.completeOk_obufByte hlt _).trans (State.completeOk_obufByte hlt _).symm

/-- Settles O60: what a completion writes comes from the engine's answer alone, a function of the parameters and the
input. -/
theorem onlyTheInputMatters : Obligations.OnlyTheInputMatters :=
  fun _ _ _ _ _ hin hout hdict hlen hbytes ht => exec_congr hin hout hdict hlen hbytes ht

/-- R310: the core's turn while a command runs completes it, as the command does wherever the schedule stands. -/
theorem step_completes {s t : State} {op : Instr} (hturn : s.turn = .core) (hbusy : s.seq = .busy op)
    (ht : step s = .next t) :
    t.seq = .idle ∧ t.done = true ∧ t.lastOp = s.lastOp ∧ t.err = t.res.errDetail.kind ∧
      ∃ u, exec op s = .next u ∧ t.err = u.err ∧ t.res = u.res := by
  have hexec : exec op { s with schedule := s.schedule.tail } = .next t := by
    rw [step_eq, hturn] at ht
    simpa only [takeTurn, coreTurn, hbusy] using ht
  obtain ⟨hseq, hdone, hlast, _⟩ := exec_done hexec
  obtain ⟨u, hu, herr, hres, _⟩ :=
    exec_congr (s := { s with schedule := s.schedule.tail }) (u := s) rfl rfl rfl rfl (fun _ _ => rfl) hexec
  exact ⟨hseq, hdone, hlast, exec_kind hexec, u, hu, herr.symm, hres.symm⟩

/-- R32, R50, R51: a step that is none of the four leaves SEQ, the flags, LAST_OP and the result registers. -/
theorem step_keeps_flags {s t : State} (ht : step s = .next t) (hreset : s.turn ≠ .reset)
    (hcore : ¬ (s.turn = .core ∧ ∃ op, s.seq = .busy op))
    (hwrite : ¬ ((∃ v, s.WritesCommand v) ∧ s.seq = .idle)) :
    t.seq = s.seq ∧ t.done = s.done ∧ t.err = s.err ∧ t.lastOp = s.lastOp ∧ t.res = s.res := by
  rw [step_eq] at ht
  cases hturn : s.turn with
  | reset => exact absurd hturn hreset
  | core =>
    rcases s.seq_cases with hidle | hbusy
    · rw [hturn] at ht
      simp only [takeTurn, coreTurn, hidle] at ht
      cases ht
      exact ⟨hidle.symm, rfl, rfl, rfl, rfl⟩
    · exact absurd ⟨hturn, hbusy⟩ hcore
  | host =>
    rw [hturn] at ht
    rcases s.seq_cases with hidle | ⟨op, hbusy⟩
    · refine hostTurn_flags (s := { s with schedule := s.schedule.tail }) ht ?_
      rintro ⟨v, rest, hline⟩
      exact hwrite ⟨⟨v, hturn, rest, hline⟩, hidle⟩
    · have hsame := hostTurn_busy (s := { s with schedule := s.schedule.tail }) hbusy ht
      rw [hsame]
      exact ⟨rfl, rfl, rfl, rfl, rfl⟩

/-- Settles O54: each of the four changing steps by its own rule, every other step by `step_keeps_flags`. -/
theorem whatChangesTheFlags : Obligations.WhatChangesTheFlags := by
  intro s t ht
  refine ⟨fun hturn op hbusy => step_completes hturn hbusy ht, fun hturn => ?_, fun v i hw hidle hd => ?_,
    fun v e hw hidle hd => ?_, step_keeps_flags ht⟩
  · rw [step_eq, hturn] at ht
    cases ht
    exact ⟨rfl, rfl, rfl, rfl, rfl⟩
  · obtain ⟨rest, rfl⟩ := step_commandWrite hw ht
    rw [State.commandWrite_accepted (s := { s with schedule := s.schedule.tail, host := rest }) hidle hd]
    exact ⟨rfl, rfl, rfl, rfl, rfl⟩
  · obtain ⟨rest, rfl⟩ := step_commandWrite hw ht
    rw [State.commandWrite_rejected (s := { s with schedule := s.schedule.tail, host := rest }) hidle hd]
    exact ⟨(State.failed_completeErr (Raise.good_badCommand e) _).of_draws rfl, rfl, rfl⟩

end Sys2Proof.Machine

/-! ## Proofs: the memory map and the host's transactions (20_memory.md)

First what CORE ignores while it runs a command, when a transaction is refused, and what a core turn does. Then the
obligations. -/

namespace Sys2Proof.Machine

/-! ### While a command runs -/

/-- R96: a COMMAND write while BUSY is ignored. -/
theorem State.commandWrite_busy {s : State} {op : Instr} (h : s.seq = .busy op) (v : Word) : s.commandWrite v = s := by
  rw [State.commandWrite, h]

/-- R96: an IN_LEN write while BUSY is ignored. -/
theorem State.writeInLen_busy {s : State} (h : s.isBusy = true) (v : Word) : s.writeInLen v = s := by
  rw [State.writeInLen_eq, if_pos h]

/-- R96: an IBUF write while BUSY is ignored. -/
theorem State.writeIbuf_busy {s : State} (h : s.isBusy = true) (i : Nat) (b : Byte) : s.writeIbuf i b = s := by
  rw [State.writeIbuf_eq, if_pos h]

/-- R117: what a running command is and reads is CORE's own. -/
theorem State.SameCore.command_eq {s t : State} (h : s.SameCore t) :
    t.seq = s.seq ∧ t.latchedLen = s.latchedLen ∧ t.input = s.input := by
  rw [h]
  exact ⟨rfl, rfl, rfl⟩

/-- Settles O4: each of the three writes is ignored while BUSY, and a turn of the host, whatever its line, keeps all
that is CORE's. -/
theorem hostCannotDisturbARunningCommand : Obligations.HostCannotDisturbARunningCommand := by
  intro s op hbusy
  have hb := State.isBusy_busy hbusy
  refine ⟨fun v => ?_, fun v => ?_, fun i b hi => ?_, fun t ht => ?_⟩
  · rw [transact_command, State.commandWrite_busy hbusy]
  · rw [transact_inLen, State.writeInLen_busy hb]
  · rw [transact_ibufWrite hi, State.writeIbuf_busy hb]
  · have hsame := hostTurn_busy hbusy ht
    obtain ⟨hseq, hlen, hinput⟩ := hsame.command_eq
    exact ⟨hsame, hseq.trans hbusy, hlen, hinput⟩

/-! ### The contract -/

/-- R84: a transaction is refused exactly for the reason that puts it outside the contract. -/
theorem transact_refused_iff {x : Transaction} {s : State} {r : Refusal} :
    transact x s = .refused r ↔ x.refusal s.cfg = some r := by
  cases hx : x.refusal s.cfg <;> simp [transact, hx]

/-- R82, R84: the register accesses outside the contract. -/
theorem registerOk_eq_false {width off : Nat} (h : width ≠ 32 ∨ off % 4 ≠ 0 ∨ 0x3C < off) :
    registerOk width off = false := by
  by_contra hok
  simp only [registerOk, Bool.not_eq_false, Bool.and_eq_true, beq_iff_eq, decide_eq_true_eq] at hok
  omega

/-- R82: the offsets at which a 32-bit access meets a register. -/
theorem Reg.exists_offset {off : Nat} (hm : off % 4 = 0) (hle : off ≤ 0x3C) : ∃ r : Reg, r.offset = off :=
  (Reg.offset_of_ok (width := 32) (by simp [registerOk, hm, hle])).2

/-- Settles O10: the width, the offset or the index decides a refusal; within the contract each transaction has its
rule; and a host's line is refused as its transaction is. -/
theorem transactionsOutsideTheContract : Obligations.TransactionsOutsideTheContract := by
  intro s
  refine ⟨fun width off h => transact_register_refused (registerOk_eq_false h) s, fun off hm hle => ?_, fun i hi => ?_,
    fun i hi => ⟨⟨_, transact_ibufRead hi⟩, fun b => ⟨_, transact_ibufWrite hi b⟩⟩, fun i hi => ?_,
    fun i hi => ⟨⟨_, transact_obufRead hi⟩, fun b => ⟨_, transact_obufWrite hi b⟩⟩, fun x r rest hline hx => ?_⟩
  · obtain ⟨r, rfl⟩ := Reg.exists_offset hm hle
    exact ⟨⟨_, transact_regRead r s⟩, fun v => ⟨_, transact_regWrite r v s⟩⟩
  · simp [transact_refused_iff, Transaction.refusal, hi]
  · simp [transact_refused_iff, Transaction.refusal, hi]
  · exact hostTurn_refused_iff.mpr ⟨_, rest, hline, .inl ⟨x, rfl, transact_refused_iff.mp hx⟩⟩

/-! ### Turns -/

/-- R310: a core turn answers a next state, and leaves the host's lines and the configuration. -/
theorem coreTurn_next (s : State) : ∃ t, coreTurn s = .next t ∧ t.host = s.host ∧ t.cfg = s.cfg := by
  rcases s.seq_cases with hidle | ⟨i, hbusy⟩
  · exact ⟨s, by rw [coreTurn, hidle], rfl, rfl⟩
  · have hexec := exec_eq i s
    obtain ⟨_, _, _, _, hhost, hcfg⟩ := exec_done hexec
    exact ⟨_, by rw [coreTurn, hbusy]; exact hexec, hhost, hcfg⟩

/-- R84, R95: only a turn of the host can be refused. -/
theorem takeTurn_refused_iff {turn : Turn} {s : State} {r : Refusal} :
    takeTurn turn s = .refused r ↔ turn = .host ∧ s.NextLineRefused r := by
  cases turn with
  | host => simp [takeTurn, hostTurn_refused_iff]
  | core =>
    obtain ⟨t, ht, _⟩ := coreTurn_next s
    simp [takeTurn, ht]
  | reset => simp [takeTurn]

/-- R84, R95: no turn is refused where the host's lines are within the contract, and they stay so. -/
theorem takeTurn_inContract (turn : Turn) {s : State} (h : ∀ l ∈ s.host, l.inContract s.cfg = true) :
    ∃ t, takeTurn turn s = .next t ∧ ∀ l ∈ t.host, l.inContract t.cfg = true := by
  cases turn with
  | host =>
    obtain ⟨t, ht, _, hlines⟩ := hostTurn_inContract h
    exact ⟨t, ht, hlines⟩
  | core =>
    obtain ⟨t, ht, hhost, hcfg⟩ := coreTurn_next s
    exact ⟨t, ht, by rwa [hhost, hcfg]⟩
  | reset => exact ⟨_, rfl, h⟩

/-- Settles O59: a step is the scheduled turn, in a state that differs in the schedule only. -/
theorem hostsInContractAreNotRefused : Obligations.HostsInContractAreNotRefused := by
  refine ⟨fun s r => ?_, fun s h => ?_⟩ <;> rw [step_eq]
  · exact takeTurn_refused_iff
  · exact takeTurn_inContract s.turn h

/-- R116: an accepted word that is placed makes the next step its command's core step. -/
theorem step_withFetchWord {s : State} {nbits w : Nat} {i : Instr}
    (hd : decode (BitVec.ofNat 32 (w % 2 ^ nbits)) = .ok i) :
    step (s.withFetchWord nbits w) =
      exec i { s with seq := .busy i, latchedLen := s.inLen, done := false, err := .ok, lastOp := i.opcode } := by
  rw [State.withFetchWord, State.placeCommand, State.commandWrite_accepted rfl hd, step_eq]
  rfl

/-- Settles O52: the turn that the schedule names is the step, and a placed word has the core move next. -/
theorem stepRunsTheCommand : Obligations.StepRunsTheCommand := by
  refine ⟨fun s i hturn hbusy => ?_, fun s hturn hidle => ?_, fun s hturn => ?_, fun _ _ _ _ => step_withFetchWord⟩ <;>
    rw [step_eq, hturn]
  · simp only [takeTurn, coreTurn, hbusy]
  · simp only [takeTurn, coreTurn, hidle]
  · rfl

end Sys2Proof.Machine

/-! ## Proofs: the encoding (30_encoding.md)

First the COMMAND word, then the empty input, the LZW frame and the Huffman frame, each with the facts it needs. -/

namespace Sys2Proof.Machine

/-! ### The COMMAND word -/

/-- R114: the words of the four commands are 1 to 4. -/
theorem exists_eq_encode_iff (w : Word) : (∃ i, w = encode i) ↔ 1 ≤ w.toNat ∧ w.toNat ≤ 4 := by
  constructor
  · rintro ⟨i, rfl⟩
    cases i <;> decide
  · rintro ⟨h1, h4⟩
    have hw : w.toNat = 1 ∨ w.toNat = 2 ∨ w.toNat = 3 ∨ w.toNat = 4 := by omega
    rcases hw with h | h | h | h
    · exact ⟨.lzwEncode, BitVec.eq_of_toNat_eq h⟩
    · exact ⟨.lzwDecode, BitVec.eq_of_toNat_eq h⟩
    · exact ⟨.hufEncode, BitVec.eq_of_toNat_eq h⟩
    · exact ⟨.hufDecode, BitVec.eq_of_toNat_eq h⟩

/-- R113: no other words are rejected for their reserved bits. -/
theorem decode_eq_reservedBits_iff (w : Word) : decode w = .error .reservedBits ↔ 16 ≤ w.toNat := by
  refine ⟨fun h => ?_, decode_reserved⟩
  by_contra hlt
  rw [decode, if_neg (not_not_intro ((rsvdField_iff w).mpr (by omega)))] at h
  split at h <;> cases h

/-- R111, R114: an accepted word has RSVD zero and the command's opcode in OP, which is the command's word. -/
theorem decode_eq_ok_iff (w : Word) (i : Instr) : decode w = .ok i ↔ w = encode i := by
  refine ⟨fun h => BitVec.eq_of_toNat_eq ?_, fun h => h ▸ decode_encode i⟩
  have hlt : w.toNat < 16 := by
    by_contra hge
    rw [decode_reserved (by omega)] at h
    cases h
  have hop := opField_toNat w
  rw [opField_of_decode h, Nat.mod_eq_of_lt hlt, ← opField_encode, opField_toNat] at hop
  rw [← hop]
  cases i <;> rfl

/-- R115: what is rejected for its opcode is what is neither a command nor rejected for its reserved bits. -/
theorem decode_eq_badOpcode_iff (w : Word) :
    decode w = .error .badOpcode ↔ w.toNat = 0 ∨ (5 ≤ w.toNat ∧ w.toNat ≤ 15) := by
  have hok : (∃ i, decode w = .ok i) ↔ 1 ≤ w.toNat ∧ w.toNat ≤ 4 := by
    rw [← exists_eq_encode_iff]
    exact exists_congr (decode_eq_ok_iff w)
  have hres := decode_eq_reservedBits_iff w
  cases h : decode w with
  | ok i =>
    have := hok.mp ⟨i, h⟩
    exact iff_of_false (by simp) (by omega)
  | error e =>
    cases e with
    | reservedBits =>
      have := hres.mp h
      exact iff_of_false (by simp) (by omega)
    | badOpcode =>
      have hno : ¬ (1 ≤ w.toNat ∧ w.toNat ≤ 4) := hok.not.mp (by simp [h])
      have hlt : ¬ 16 ≤ w.toNat := hres.not.mp (by simp [h])
      exact iff_of_true rfl (by omega)

/-- Settles O1: the table's words are the encodings of the four commands. -/
theorem commandWordsOfTheTable : Obligations.CommandWordsOfTheTable :=
  ⟨decode_encode .lzwEncode, decode_encode .lzwDecode, decode_encode .hufEncode, decode_encode .hufDecode⟩

/-- Settles O2, one result of the decoder at a time. -/
theorem eachWordHasOneMeaning : Obligations.EachWordHasOneMeaning := fun w =>
  ⟨decode_eq_ok_iff w, decode_eq_reservedBits_iff w, decode_eq_badOpcode_iff w⟩

/-! ### The empty input -/

/-- Settles O17: the length 0 passes the check of R316, and every engine answers the empty input with the empty output. -/
theorem emptyInputs : Obligations.EmptyInputs :=
  fun _ s hlen => ⟨_, exec_nil hlen, succeeded_nil _, State.frame_completeOk _ _ s⟩

/-! ### The LZW frame -/

/-- R118: the code fields stand behind the header. -/
theorem lzwFrame_drop (codes : List Nat) :
    (lzwFrame codes).drop 5 = pack (lzwPayload codes (lzwWidth (maxCode codes))) := by
  simp [lzwFrame, be32]

/-- R122: no legal width below `lzw_width(m)` covers `m`. -/
theorem lzwWidth_le {m v : Nat} (hv : v ∈ [1, 2, 4, 8, 16, 32]) (h : m < 2 ^ v) : lzwWidth m ≤ v := by
  simp only [List.mem_cons, List.not_mem_nil, or_false] at hv
  unfold lzwWidth
  rcases hv with rfl | rfl | rfl | rfl | rfl | rfl <;> split_ifs <;> omega

/-- Settles O19: the parser reads the frame's fields back as the codes, and what it accepts it reads bit by bit. -/
theorem lzwFrameLayout : Obligations.LzwFrameLayout := by
  intro codes _ hlen hlt
  have hreads := (lzwParse_reads (lzwParse_lzwFrame hlen hlt)).1
  refine ⟨_, hreads, fun v hv hcov => lzwWidth_le hv (maxCode_lt (Nat.two_pow_pos v) hcov), fun j hj _ => ?_⟩
  rw [lzwFrame_drop, pack_bitAt]
  exact List.getD_eq_default _ _ (by rwa [lzwPayload_length])

/-- R182 to R186: a non-empty frame that LZW_DECODE accepts reads as codes, and they decode to its output. -/
theorem lzwDecode_reads {cfg : Config} {F : List Byte} (hd : 256 ≤ cfg.dictSize) (hF : F ≠ []) {r : Success} {h : Hidden}
    (hok : lzwDecode cfg F = .ok (r, h)) :
    ∃ w ks es, LzwFrameReads F w ks ∧ LzwDecodesTo cfg.dictSize ks es ∧ r.out = es.flatten ∧
      r.out.length ≤ cfg.outCap := by
  have h0 : F.length ≠ 0 := by simpa using hF
  cases hp : lzwParse F with
  | error e =>
    rw [lzwDecode_of_parse_error cfg h0 hp] at hok
    cases hok
  | ok x =>
    obtain ⟨w, n, ks⟩ := x
    rcases lzwDecode_of_parse cfg h0 hp with ⟨e, _, hx⟩ | ⟨d, hid, hloop, hx⟩ <;> rw [hx] at hok <;> cases hok
    obtain ⟨es, hat, hdec⟩ := lzwDecLoop_sound hd ks (DecAt.init hd) (lzwDecodesTo_nil _) hloop
    have hcap := (lzwDecLoop_good (cfg := cfg) ks (i := 0) (d := LzwDec.init) (Nat.zero_le _)).1 d hloop
    exact ⟨w, ks, es, (lzwParse_reads hp).1, hdec, hat.out, hcap⟩

/-- Settles O26: the code loop is sound for the strings its codes stand for, and complete where they fit OBUF. -/
theorem lzwDecodeExactly : Obligations.LzwDecodeExactly := by
  intro cfg F out hd hF
  constructor
  · rintro ⟨r, h, hok, rfl⟩
    exact lzwDecode_reads hd hF hok
  · rintro ⟨w, ks, es, hreads, hdec, rfl, hcap⟩
    obtain ⟨hid, hok⟩ := lzwDecode_of_reads hd hreads hdec hcap
    exact ⟨_, hid, hok, rfl⟩

/-! ### The Huffman frame -/

/-- R134: the frame lists the symbols in ascending order. -/
theorem frameTable_ascending (X : List Byte) : (frameTable X).Pairwise fun e f => e.1.toNat < f.1.toNat := by
  rw [frameTable, distinctSyms, List.pairwise_map, List.pairwise_map]
  refine (List.pairwise_lt_range.filter _).imp_of_mem fun {a b} ha hb hab => ?_
  have ha := List.mem_range.mp (List.mem_filter.mp ha).1
  have hb := List.mem_range.mp (List.mem_filter.mp hb).1
  simpa [Nat.mod_eq_of_lt ha, Nat.mod_eq_of_lt hb] using hab

/-- R125: the frame's table has an entry with its codeword for each symbol of the input. -/
theorem mem_frameTable_iff {X : List Byte} {x : Byte} : (x, (hufBuild X).code.bits x) ∈ frameTable X ↔ x ∈ X := by
  rw [← mem_distinctSyms, frameTable, List.mem_map]
  constructor
  · rintro ⟨s, hs, he⟩
    exact (Prod.mk.inj he).1 ▸ hs
  · exact fun hx => ⟨x, hx, rfl⟩

/-- R242: the payload is the codewords of the input, one after the other. -/
theorem spells_hufPayload {T : List Entry} {t : CodeTable} {X : List Byte} (h : ∀ x ∈ X, (x, t.bits x) ∈ T) :
    Spells T (hufPayload t X) X := by
  refine ⟨X.map fun x => (x, t.bits x), ?_, ?_, ?_⟩
  · intro e he
    obtain ⟨x, hx, rfl⟩ := List.mem_map.mp he
    exact h x hx
  · rw [hufPayload, List.flatMap_map]
  · simp [List.map_map, Function.comp_def]

/-- R287: a 16-bit count and the entries written out stand as a table at the head of a frame. -/
theorem HufTableAt.written {T : List Entry} (hlen : T.length ≤ 256) (h : ∀ e ∈ T, 1 ≤ e.2.length ∧ e.2.length ≤ 255)
    (R : List Byte) : HufTableAt (be16 T.length ++ (T.flatMap fun e => serializeEntry e.1 e.2) ++ R) T R := by
  refine ⟨_, _, _, rfl, ?_, hlen, TableReads.written T h⟩
  simp
  omega

/-- R125: the frame is the count, the entries of the input's table, the trailer and the payload. -/
theorem hufFrame_eq {X : List Byte} (h : BuiltOk X) (payload : List Bool) :
    hufFrame (hufBuild X).code (hufBuild X).nSym payload =
      be16 (frameTable X).length ++ ((frameTable X).flatMap fun e => serializeEntry e.1 e.2) ++
        (be32 payload.length ++ [BitVec.ofNat 8 (padLen payload.length)] ++ pack payload) := by
  rw [hufFrame, serializeTable_eq h, hufBuild_nSym, frameTable, List.length_map]
  simp only [List.append_assoc]

/-- Settles O41: what the serializer writes for the builder's table and payload, part by part. -/
theorem hufFrameLayout : Obligations.HufFrameLayout := by
  rintro X _ _ _ hX hlen rfl rfl rfl
  have hb := builtOk hX
  have hpayload := hufPayload_le hX
  have hframe := hufFrame_eq hb (hufPayload (hufBuild X).code X)
  have hcount : (frameTable X).length = (hufBuild X).nSym := by rw [hufBuild_nSym, frameTable, List.length_map]
  have h256 : (frameTable X).length ≤ 256 := by
    rw [hcount, hufBuild_nSym]
    exact distinctSyms_length_le X
  refine ⟨frameTable X, _, frameTable_ascending X, fun _ => mem_frameTable_iff.symm,
    hcount.trans (hufBuild_nSym_dedup X), ?_, tableSound_iff.mpr (frameTable_ok hb), HufTrailerAt.written (by omega),
    spells_hufPayload fun _ => mem_frameTable_iff.mpr, hframe⟩
  rw [hframe]
  exact HufTableAt.written h256 (frameTable_bounds hb) _

end Sys2Proof.Machine

/-! ## Proofs: LZW (40_lzw.md)

First the encoder and its dictionary, then the decoder, then the two together. -/

namespace Sys2Proof.Machine

/-! ### LZW_ENCODE and the source's algorithm -/

/-- R161: the source's dictionary holds every one-byte string. -/
theorem singleton_mem_seededStrings (x : Byte) : [x] ∈ seededStrings := by
  rw [← Dict.strings_init]
  exact Dict.mem_strings.mpr ⟨x.toNat, x.isLt, strIn_byte _ x⟩

/-- Settles O20: from the first match on the two encoders run in step, the one's match being the string of the other's. -/
theorem lzwEncodeIsTheSourcesAlgorithm : Obligations.LzwEncodeIsTheSourcesAlgorithm := by
  intro n X hn
  cases X with
  | nil => rfl
  | cons x xs =>
    have hstr : Dict.init.str x.toNat = [x] := strIn_byte _ x
    calc lzwCodes n (x :: xs)
      _ = lzwEmit n Dict.init x.toNat xs := lzwCodes_cons n x xs
      _ = sourceEncode n Dict.init.strings (Dict.init.str x.toNat) xs := (sourceEncode_emit xs (EncMap.init hn x)).symm
      _ = sourceEncode n seededStrings [x] xs := by rw [Dict.strings_init, hstr]
      _ = sourceEncode n seededStrings [] (x :: xs) := by
        rw [sourceEncode, List.nil_append, if_pos (singleton_mem_seededStrings x)]

/-! ### The dictionary -/

/-- Settles O21: the encoder keeps its codes apart, so the code that `find` answers is the only one with its string. -/
theorem findIsTheMapping : Obligations.FindIsTheMapping := by
  intro n x xs p c k hn hp
  have hmap := lzwScan_map hn x xs
  exact hmap.inj.find hmap.ok.wf hp c k

/-- R162: an insert while there is room. -/
theorem Dict.insert_of_room {n : Nat} {d : Dict} (p : Nat) (c : Byte) (h : d.nextCode < n) :
    (d.insert n p c).nextCode = d.nextCode + 1 ∧ (d.insert n p c).str d.nextCode = d.str p ++ [c] ∧
      ∀ k, k < d.nextCode → (d.insert n p c).str k = d.str k := by
  rcases d.insert_cases n p c with ⟨hfull, _⟩ | ⟨_, hnext, hold, hnew⟩
  · omega
  · exact ⟨hnext, hnew, hold⟩

/-- R163: an insert into a full dictionary. -/
theorem Dict.insert_of_full {n : Nat} {d : Dict} (p : Nat) (c : Byte) (h : n ≤ d.nextCode) : d.insert n p c = d :=
  if_neg (Nat.not_lt.mpr h)

/-- Settles O22, by the two cases of an insert. -/
theorem dictionaryGrowth : Obligations.DictionaryGrowth :=
  fun _ _ p c _ => ⟨Dict.insert_of_room p c, Dict.insert_of_full p c, strIn_byte _, rfl⟩

/-! ### Corner cases of the encoder -/

/-- R168: a symbol that does not extend the match is emitted apart. -/
theorem lzwEmit_of_absent {n : Nat} {d : Dict} {w : Nat} {c : Byte} (cs : List Byte) (h : d.find w c = none) :
    lzwEmit n d w (c :: cs) = w :: lzwEmit n (d.insert n w c) c.toNat cs := by
  rw [lzwEmit, h]

/-- R168: a symbol that extends the match is not. -/
theorem lzwEmit_of_found {n : Nat} {d : Dict} {w k : Nat} {c : Byte} (cs : List Byte) (h : d.find w c = some k) :
    lzwEmit n d w (c :: cs) = lzwEmit n d k cs := by
  rw [lzwEmit, h]

/-- R173: with DICT_SIZE 256 the dictionary is full from the start, so every byte is its own code. -/
theorem lzwEmit_dictSize_256 (x : Byte) (xs : List Byte) :
    lzwEmit 256 Dict.init x.toNat xs = (x :: xs).map BitVec.toNat := by
  induction xs generalizing x with
  | nil => rfl
  | cons c cs ih => rw [lzwEmit_of_absent cs rfl, Dict.insert_of_full _ c (le_refl 256), ih, List.map_cons (a := x)]

/-- R162, R165: after an insert `find` answers none for every other pair it answered none for. -/
theorem Dict.find_insert_none {d : Dict} {n p q : Nat} {b c : Byte} (h : d.find q b = none) (hne : ¬(p = q ∧ c = b)) :
    (d.insert n p c).find q b = none := by
  rw [Dict.insert]
  split
  · rw [Dict.find, findIn, if_neg hne]
    exact h
  · exact h

/-- R173: an input none of whose pairs of neighbours is in the dictionary or comes twice is emitted byte by byte. -/
theorem lzwEmit_no_repeated_pair {n : Nat} {d : Dict} {x : Byte} {xs : List Byte}
    (habsent : ∀ p ∈ (x :: xs).zip xs, d.find p.1.toNat p.2 = none) (hnodup : ((x :: xs).zip xs).Nodup) :
    lzwEmit n d x.toNat xs = (x :: xs).map BitVec.toNat := by
  induction xs generalizing d x with
  | nil => rfl
  | cons c cs ih =>
    rw [List.zip_cons_cons] at habsent hnodup
    obtain ⟨hx, hrest⟩ := List.nodup_cons.mp hnodup
    obtain ⟨hfirst, hothers⟩ := List.forall_mem_cons.mp habsent
    rw [lzwEmit_of_absent cs hfirst, ih ?_ hrest, List.map_cons (a := x)]
    intro p hp
    refine Dict.find_insert_none (hothers p hp) ?_
    rintro ⟨h1, h2⟩
    have hpair : p = (x, c) := Prod.ext (BitVec.eq_of_toNat_eq h1.symm) h2.symm
    exact hx (hpair ▸ hp)

/-- R173: an input without a repeated pair of neighbours. -/
theorem lzwCodes_no_repeated_pair {n : Nat} {X : List Byte} (h : (X.zip X.tail).Nodup) :
    lzwCodes n X = X.map BitVec.toNat := by
  cases X with
  | nil => rfl
  | cons x xs =>
    rw [lzwCodes_cons]
    exact lzwEmit_no_repeated_pair (fun _ _ => rfl) h

/-- R173: "AAA". The second `A` makes the entry that the third one finds. -/
theorem lzwCodes_three_equal {n : Nat} (h : 256 < n) (a : Byte) : lzwCodes n [a, a, a] = [a.toNat, 256] := by
  have hinsert : Dict.init.insert n a.toNat a = { entries := [{ pre := a.toNat, suf := a }] } := if_pos h
  have hfind : ({ entries := [{ pre := a.toNat, suf := a }] } : Dict).find a.toNat a = some 256 := if_pos ⟨rfl, rfl⟩
  rw [lzwCodes_cons, lzwEmit_of_absent [a] rfl, hinsert, lzwEmit_of_found [] hfind, lzwEmit]

/-- Settles O23: the bounds hold of every emitted code; without a repeated pair, or without room for an entry, no match
is ever extended. -/
theorem lzwEncodeCornerCases : Obligations.LzwEncodeCornerCases := by
  refine ⟨fun n X hn hX => ?_, fun _ _ => rfl, fun X => ?_, fun _ _ _ h => lzwCodes_no_repeated_pair h,
    fun n a hn => ⟨lzwCodes_no_repeated_pair (List.nodup_singleton _), lzwCodes_three_equal hn a⟩⟩
  · obtain ⟨hpos, hle⟩ := lzwCodes_ne_nil n hX
    have hX0 := List.length_pos_iff.mpr hX
    refine ⟨hpos, hle, fun k hk => ?_⟩
    have := lzwCodes_mem_lt hn hX k hk
    omega
  · cases X with
    | nil => rfl
    | cons x xs => rw [lzwCodes_cons, lzwEmit_dictSize_256]

/-! ### What the encoders leave -/

/-- R119, R126: a command on an empty input. -/
theorem exec_empty_input {i : Instr} {s : State} (h : s.input = []) :
    ∃ t, exec i s = .next t ∧ t.Succeeded [] 0 0 0 0 0 ∧ s.CommandFrame t :=
  emptyInputs i s (latchedLen_of_nil h)

/-- Settles O18, from what LZW_ENCODE hands to its completion. -/
theorem lzwEncodeResult : Obligations.LzwEncodeResult := by
  intro s hc hlen
  refine ⟨exec_empty_input, ?_⟩
  rintro _ hX rfl hfits
  obtain ⟨hid, hok⟩ := lzwEncode_ok hX hfits
  exact exec_succeeds (i := .lzwEncode) hc hlen hok

/-- R13, R174: under R13 the LZW frame of an input of at most IN_CAP bytes fits OBUF. -/
theorem lzwFrame_fits {cfg : Config} (hc : cfg.wf = true) (hbound : cfg.MeetsBound) {X : List Byte} (hX : X ≠ [])
    (hlen : X.length ≤ cfg.inCap) : (lzwFrame (lzwCodes cfg.dictSize X)).length ≤ cfg.outCap := by
  obtain ⟨hd, hd'⟩ := wf_dictSize hc
  calc (lzwFrame (lzwCodes cfg.dictSize X)).length
    _ ≤ cfg.lzwBound X.length := lzwFrame_le_bound hd hd' hX
    _ ≤ cfg.lzwBound cfg.inCap := lzwBound_mono cfg hlen
    _ ≤ cfg.outCap := (max_le_iff.mp hbound).1

/-- R13, R252: under R13 the Huffman frame of an input of at most IN_CAP bytes fits OBUF. -/
theorem hufFrame_fits {cfg : Config} (hbound : cfg.MeetsBound) {X : List Byte} (hX : X ≠ [])
    (hlen : X.length ≤ cfg.inCap) :
    (hufFrame (hufBuild X).code (hufBuild X).nSym (hufPayload (hufBuild X).code X)).length ≤ cfg.outCap :=
  calc (hufFrame (hufBuild X).code (hufBuild X).nSym (hufPayload (hufBuild X).code X)).length
    _ ≤ Config.hufBound X.length := hufFrame_le_bound hX
    _ ≤ Config.hufBound cfg.inCap := hufBound_mono hlen
    _ ≤ cfg.outCap := (max_le_iff.mp hbound).2

/-- R174, R252: an encoder fails only for a frame that does not fit OBUF. -/
theorem encoder_does_not_fail {i : Instr} (hi : i = .lzwEncode ∨ i = .hufEncode) {cfg : Config} (hc : cfg.wf = true)
    (hbound : cfg.MeetsBound) {X : List Byte} (hX : X.length ≤ cfg.inCap) (e : Raise) : engineOf i cfg X ≠ .error e := by
  intro herr
  rcases hi with rfl | rfl
  · rcases lzwEncode_cases cfg X with ⟨_, hok⟩ | ⟨hne, hlong, _⟩ | ⟨_, _, _, hok⟩
    · cases hok.symm.trans herr
    · exact Nat.not_lt.mpr (lzwFrame_fits hc hbound hne hX) hlong
    · cases hok.symm.trans herr
  · rcases hufEncode_cases cfg X with ⟨_, hok⟩ | ⟨hne, hlong, _⟩ | ⟨_, _, _, hok⟩
    · cases hok.symm.trans herr
    · exact Nat.not_lt.mpr (hufFrame_fits hbound hne hX) hlong
    · cases hok.symm.trans herr

/-- Settles O31: neither the length check nor the encoder fails, so the command succeeds with what the encoder hands over. -/
theorem encodersNeverFail : Obligations.EncodersNeverFail := by
  intro i s hi hc hbound hlen
  have hX : s.input.length ≤ s.cfg.inCap := by rwa [State.input_length]
  cases he : engineOf i s.cfg s.input with
  | error e => exact absurd he (encoder_does_not_fail hi hc hbound hX e)
  | ok x =>
    obtain ⟨r, h⟩ := x
    obtain ⟨t, ht, hsucceeded, _⟩ := exec_succeeds hc hlen he
    have hin := wf_inCap hc
    exact ⟨t, _, _, _, _, _, _, ht, hsucceeded, (engineOf_hands (by omega) he).out_le⟩

/-! ### The errors of each command -/

/-- R172, R245: the one error of an encoder. -/
theorem encoder_raises {i : Instr} (hi : i = .lzwEncode ∨ i = .hufEncode) {cfg : Config} {X : List Byte} {e : Raise}
    (he : engineOf i cfg X = .error e) : e.detail = .capOut := by
  rcases hi with rfl | rfl
  · rcases lzwEncode_cases cfg X with ⟨_, h⟩ | ⟨_, _, h⟩ | ⟨_, _, _, h⟩ <;> cases h.symm.trans he
    rfl
  · rcases hufEncode_cases cfg X with ⟨_, h⟩ | ⟨_, _, h⟩ | ⟨_, _, _, h⟩ <;> cases h.symm.trans he
    rfl

/-- R188: the errors of LZW_DECODE. -/
theorem lzwDecode_raises {cfg : Config} {F : List Byte} {e : Raise} (he : lzwDecode cfg F = .error e) :
    e.detail ∈ [.lzwHdrShort, .lzwBadWidth, .lzwLenMismatch, .lzwBadCode, .capOut] := by
  rcases lzwDecode_cases cfg F with ⟨_, _, h, _⟩ | ⟨d, hd, h⟩ | ⟨_, _, h⟩ | h <;> cases h.symm.trans he
  · rcases hd with rfl | rfl | rfl <;> simp [Raise.malformed]
  · simp [Raise.malformed]
  · simp [Raise.capacity]

/-- R263: the errors of HUF_DECODE. -/
theorem hufDecode_raises {cfg : Config} {F : List Byte} {e : Raise} (he : hufDecode cfg F = .error e) :
    e.detail ∈ [.hufHdrShort, .hufBadCount, .hufBadLength, .hufDupSymbol, .hufNotPrefixFree, .hufPadMismatch,
      .hufLenMismatch, .capOut, .hufTrailingBits] := by
  rcases hufDecode_cases cfg F with ⟨_, _, h, _⟩ | ⟨d, hd, h⟩ | ⟨_, _, h⟩ | h <;> cases h.symm.trans he
  · rcases hd with rfl | rfl | rfl | rfl | rfl | rfl | rfl <;> simp [Raise.malformed]
  · simp [Raise.malformed]
  · simp [Raise.capacity]

/-- R312: the detail a command ends with is none, that of the length check, or one of its engine's. -/
theorem exec_detail_mem {i : Instr} {s t : State} (hc : s.cfg.wf = true) (ht : exec i s = .next t) {ds : List Detail}
    (hds : ∀ e, engineOf i s.cfg s.input = .error e → e.detail ∈ ds) : t.res.errDetail ∈ .none :: .capInLen :: ds := by
  rcases exec_cases i hc with ⟨e, _, hx, ⟨_, rfl⟩ | ⟨_, he⟩⟩ | ⟨r, h, _, hx, _⟩ <;> rw [hx] at ht <;> cases ht
  · exact .tail _ (.head _)
  · exact .tail _ (.tail _ (hds e he))
  · exact .head _

/-- R314: only two details record a position. -/
theorem exec_errPos {i : Instr} {s t : State} (hc : s.cfg.wf = true) (ht : exec i s = .next t)
    (hcode : t.res.errDetail ≠ .lzwBadCode) (hbits : t.res.errDetail ≠ .hufTrailingBits) : t.res.errPos = 0 := by
  rcases exec_cases i hc with ⟨e, hg, hx, _⟩ | ⟨r, h, _, hx, _⟩ <;> rw [hx] at ht <;> cases ht
  · simp [hg.pos hcode hbits]
  · rfl

/-- Settles O15, from the errors of each engine. -/
theorem eachCommandRaisesOnlyItsErrors : Obligations.EachCommandRaisesOnlyItsErrors := by
  intro i s t hc ht
  refine ⟨exec_kind ht, exec_errPos hc ht, fun hi => exec_detail_mem hc ht fun e he => ?_, ?_, ?_⟩
  · exact List.mem_singleton.mpr (encoder_raises hi he)
  · rintro rfl
    exact exec_detail_mem hc ht fun _ he => lzwDecode_raises he
  · rintro rfl
    exact exec_detail_mem hc ht fun _ he => hufDecode_raises he

/-! ### LZW_DECODE -/

/-- R321: a command that ends with an error has failed. -/
theorem exec_failed {i : Instr} {s t : State} (hc : s.cfg.wf = true) (ht : exec i s = .next t) (herr : t.err ≠ .ok) :
    ∃ d pos, s.Failed t d pos := by
  rcases exec_cases i hc with ⟨e, hg, hx, _⟩ | ⟨r, h, _, hx, _⟩ <;> rw [hx] at ht <;> cases ht
  · exact ⟨_, _, State.failed_completeErr hg s⟩
  · exact absurd rfl herr

theorem lzwParse_hdrShort {F : List Byte} (h : F.length < 5) : lzwParse F = .error (Raise.malformed .lzwHdrShort 0) :=
  if_pos h

theorem lzwParse_badWidth {F : List Byte} (h5 : 5 ≤ F.length) (hw : byteAt F 0 ∉ [1, 2, 4, 8, 16, 32]) :
    lzwParse F = .error (Raise.malformed .lzwBadWidth 0) := by
  rw [← legalWidth_iff, Bool.not_eq_true] at hw
  rw [lzwParse, if_neg (by omega)]
  simp [hw]

theorem lzwParse_lenMismatch {F : List Byte} (h5 : 5 ≤ F.length) (hw : byteAt F 0 ∈ [1, 2, 4, 8, 16, 32])
    (hl : F.length ≠ 5 + ceilDiv (be32Read F 1 * byteAt F 0) 8) :
    lzwParse F = .error (Raise.malformed .lzwLenMismatch 0) := by
  rw [← legalWidth_iff] at hw
  rw [lzwParse, if_neg (by omega)]
  simp [hw, hl]

/-- R181: LZW_DECODE on a frame that fails a check. -/
theorem exec_lzwDecode_parse_error {s : State} (hc : s.cfg.wf = true) (hlen : s.latchedLen.toNat ≤ s.cfg.inCap)
    (h0 : s.input.length ≠ 0) {d : Detail} (hp : lzwParse s.input = .error (Raise.malformed d 0)) :
    ∃ t, exec .lzwDecode s = .next t ∧ s.Failed t d 0 ∧ s.CommandFrame t :=
  exec_fails (i := .lzwDecode) hc hlen (lzwDecode_of_parse_error s.cfg h0 hp)

/-- Settles O24, check by check. -/
theorem lzwParseChecks : Obligations.LzwParseChecks := by
  intro s hc hlen
  have hfail := fun h0 d => exec_lzwDecode_parse_error hc hlen h0 (d := d)
  refine ⟨fun h0 => exec_empty_input (List.length_eq_zero_iff.mp h0),
    fun h1 h5 => hfail (by omega) _ (lzwParse_hdrShort h5),
    fun h5 hw => hfail (by omega) _ (lzwParse_badWidth h5 hw),
    fun h5 hw hl => hfail (by omega) _ (lzwParse_lenMismatch h5 hw hl), fun _ hw hl => ?_⟩
  have hreads := LzwFrameReads.of_checks hw hl
  exact ⟨_, hreads, by rw [hreads.parse, codesOf_length]⟩

/-- Settles O25: codes that decode run through the code loop; an error is one of R321. -/
theorem lzwDecodeResult : Obligations.LzwDecodeResult := by
  intro s hc hlen
  refine ⟨exec_empty_input, fun w ks es hreads hdec hcap => ?_, fun t ht herr => exec_failed hc ht herr⟩
  obtain ⟨hid, hok⟩ := lzwDecode_of_reads (wf_dictSize hc).1 hreads hdec hcap
  exact exec_succeeds (i := .lzwDecode) hc hlen hok

/-- R182, R183: the decoder finds no string for a code of 256 or more that is the first, beyond the next code, or not below
DICT_SIZE. -/
theorem DecAt.entry_eq_none {n : Nat} {ks : List Nat} {es : List (List Byte)} {d : LzwDec} (hn : 256 ≤ n)
    (h : DecAt n ks es d) {k : Nat} (hk : 256 ≤ k) (hbad : ks = [] ∨ 256 + ks.length ≤ k ∨ n ≤ k) :
    lzwEntry n d k = none := by
  rw [Option.eq_none_iff_forall_ne_some]
  intro e he
  have hlen := h.len
  rcases (h.entry hn k e).mp he with ⟨hlt, _⟩ | ⟨j, hj, hkj, hjn, _⟩
  · omega
  · rw [← List.length_eq_zero_iff] at hbad
    omega

/-- R320: the code loop stops at the first code that is not decodable. -/
theorem lzwDecLoop_badCode {cfg : Config} {ks : List Nat} {k : Nat} {d : LzwDec} (i : Nat) {d0 : LzwDec}
    (hks : lzwDecLoop cfg i ks d0 = .ok d) (hk : lzwEntry cfg.dictSize d k = none) (rest : List Nat) :
    lzwDecLoop cfg i (ks ++ k :: rest) d0 = .error (Raise.malformed .lzwBadCode (i + ks.length)) := by
  simp only [lzwDecLoop_append, hks, lzwDecLoop, lzwDecStep, hk]

/-- Settles O27: the codes before the bad one run through the code loop, which then finds no string for it. -/
theorem lzwBadCodes : Obligations.LzwBadCodes := by
  intro s w ks k rest es hc hlen hreads hdec hcap hk hbad
  have hn := (wf_dictSize hc).1
  have h5 := hreads.five_le
  rcases lzwDecLoop_decodes hn ks (DecAt.init hn) (fs := es) hdec with ⟨d, hloop, hat, _⟩ | ⟨_, hover⟩
  · have herr := lzwDecLoop_badCode 0 hloop (hat.entry_eq_none hn hk hbad) rest
    rw [Nat.zero_add] at herr
    rcases lzwDecode_of_parse s.cfg (by omega) hreads.parse with ⟨e, hl, hx⟩ | ⟨_, _, hl, _⟩
    · cases herr.symm.trans hl
      exact exec_fails (i := .lzwDecode) hc hlen hx
    · cases herr.symm.trans hl
  · rw [List.nil_append] at hover
    omega

/-- R184: the string of the next code. -/
theorem lzwEntry_next {n pk : Nat} {prev : List Byte} {d : LzwDec} (hp : d.prev = some (pk, prev))
    (hroom : d.dict.nextCode < n) : lzwEntry n d d.dict.nextCode = some (prev ++ [prev.headD 0]) := by
  simp [lzwEntry, hp, hroom]

/-- R183: a code beyond a full dictionary has no string. -/
theorem lzwEntry_full {n pk k : Nat} {prev : List Byte} {d : LzwDec} (hp : d.prev = some (pk, prev))
    (hfull : d.dict.nextCode = n) (hk : n ≤ k) : lzwEntry n d k = none := by
  simp [lzwEntry, hp, hfull, hk]

/-- Settles O28: the insert that follows appends the first byte of the entry, which is that of `prev`. -/
theorem lzwSelfReference : Obligations.LzwSelfReference := by
  intro cfg i pk prev d hp hpk hstr
  have hne : prev ≠ [] := hstr ▸ strIn_ne_nil hpk
  refine ⟨fun hroom hcap => ?_, fun k hfull hk => ?_⟩
  · have hlearn : lzwLearn cfg.dictSize d (prev ++ [prev.headD 0]) = d.dict.insert cfg.dictSize pk (prev.headD 0) := by
      rw [lzwLearn, hp]
      simp only [headD_append hne]
    obtain ⟨hnext, hnew, _⟩ := Dict.insert_of_room pk (prev.headD 0) hroom
    rw [lzwDecStep, lzwEntry_next hp hroom]
    refine ⟨_, if_neg (by rw [List.length_append, List.length_singleton]; omega), rfl, rfl, ?_, ?_⟩
    · simp only [hlearn, hnext]
    · simp only [hlearn, hnew, hstr]
  · rw [lzwDecStep, lzwEntry_full hp hfull hk]

/-! ### The round trip -/

/-- R191, R192: LZW_DECODE of what LZW_ENCODE wrote, in another configuration. -/
theorem lzwDecode_of_lzwEncode {E D : Config} (hE : E.wf = true) (hD : 256 ≤ D.dictSize) {X : List Byte}
    (hX : X.length ≤ E.inCap) {r : Success} {h : Hidden} (hr : lzwEncode E X = .ok (r, h)) (hcap : X.length ≤ D.outCap) :
    (∃ r' h', lzwDecode D r.out = .ok (r', h') ∧ r'.out = X) ∨
      (D.dictSize < E.dictSize ∧ ∃ j, lzwDecode D r.out = .error (Raise.malformed .lzwBadCode j)) := by
  have hin := wf_inCap hE
  obtain ⟨hn, hn'⟩ := wf_dictSize hE
  rcases lzwEncode_cases E X with ⟨rfl, hok⟩ | ⟨_, _, herr⟩ | ⟨hne, _, _, hok⟩
  · cases hok.symm.trans hr
    exact .inl ⟨_, _, lzwDecode_nil D, rfl⟩
  · cases herr.symm.trans hr
  · cases hok.symm.trans hr
    rcases lzwDecode_lzwFrame hn hn' hD hne (by omega) hcap with ⟨hid, hdec⟩ | hbad
    · exact .inl ⟨_, hid, hdec, rfl⟩
    · exact .inr hbad

/-- R186: a larger OBUF changes nothing of a success of LZW_DECODE. -/
theorem lzwDecode_outCap_mono {D : Config} (hD : 256 ≤ D.dictSize) {F : List Byte} {r : Success} {h : Hidden}
    (hok : lzwDecode D F = .ok (r, h)) {cap : Nat} (hcap : D.outCap ≤ cap) :
    ∃ r' h', lzwDecode { D with outCap := cap } F = .ok (r', h') ∧ r'.out = r.out := by
  by_cases hF : F = []
  · subst hF
    cases (lzwDecode_nil D).symm.trans hok
    exact ⟨_, _, lzwDecode_nil _, rfl⟩
  · obtain ⟨w, ks, es, hreads, hdec, hout, hle⟩ := lzwDecode_reads hD hF hok
    have hfits : es.flatten.length ≤ cap := by rw [← hout]; omega
    obtain ⟨hid, hx⟩ := lzwDecode_of_reads (cfg := { D with outCap := cap }) hD hreads hdec hfits
    exact ⟨_, hid, hx, hout.symm⟩

/-- Settles O29: the copied frame is the input of LZW_DECODE, whose dictionary has the encoder's size. -/
theorem lzwRoundTrip : Obligations.LzwRoundTrip := by
  intro s t u hc hlen hcap ht hok hcfg hulen hframe hcopy
  obtain ⟨r, h, hr, rfl, hgood, _⟩ := exec_ok_cases hc ht hok
  have hinput : u.input = r.out := input_of_copy hc hgood hulen hcopy
  have hdict : 256 ≤ u.cfg.dictSize := hcfg ▸ (wf_dictSize hc).1
  rw [← State.input_length] at hlen hcap
  rcases lzwDecode_of_lzwEncode hc hdict hlen hr (hcfg ▸ hcap) with ⟨r', h', hdec, hout⟩ | ⟨hlt, _⟩
  · rw [← hinput] at hdec
    have hcu : u.cfg.wf = true := hcfg ▸ hc
    have hin : u.latchedLen.toNat ≤ u.cfg.inCap := by rw [hulen, hcfg]; exact hframe
    have hu := wf_inCap hcu
    have hgood' : r'.Good u.cfg := engineOf_hands (i := .lzwDecode) (by rw [State.input_length]; omega) hdec
    exact ⟨_, by rw [exec_eq, State.runCommand_ok hin (engine := engineOf .lzwDecode) hdec], rfl,
      output_of_input hcu hgood' hout⟩
  · rw [hcfg] at hlt
    omega

/-- Settles O30: the last part holds also where the input does not fit, since a larger OBUF would change nothing. -/
theorem lzwAcrossInstances : Obligations.LzwAcrossInstances := by
  intro E D X r h hE hD hX hr
  have hdict := (wf_dictSize hD).1
  refine ⟨fun hle hcap => ?_, fun _ hcap => ?_, fun r' h' hok => ?_⟩
  · rcases lzwDecode_of_lzwEncode hE hdict hX hr hcap with hsame | ⟨hlt, _⟩
    · exact hsame
    · omega
  · exact (lzwDecode_of_lzwEncode hE hdict hX hr hcap).imp_right And.right
  · obtain ⟨r₂, h₂, hlarge, hout⟩ := lzwDecode_outCap_mono hdict hok (le_max_left D.outCap X.length)
    rcases lzwDecode_of_lzwEncode (D := { D with outCap := max D.outCap X.length }) hE hdict hX hr (le_max_right _ _) with
      ⟨r₃, h₃, hx, hsame⟩ | ⟨_, j, hx⟩
    · cases hlarge.symm.trans hx
      exact hout.symm.trans hsame
    · cases hlarge.symm.trans hx

end Sys2Proof.Machine

/-! ## Proofs: the Huffman tree (41_huffman_tree.md)

First the table as the frame lists it and optimality, then the arena and its paths, then the lengths. -/

namespace Sys2Proof.Machine

/-! ### The table and its optimality -/

theorem frameTable_syms (X : List Byte) : (frameTable X).map Prod.fst = distinctSyms X := by
  simp [frameTable, List.map_map, Function.comp_def]

/-- R222: the table of a non-empty input is one of the assignments it is compared with. -/
theorem frameTable_assigns {X : List Byte} (hX : X ≠ []) : Assigns (frameTable X) X := by
  have hb := builtOk hX
  obtain ⟨hnodup, hfree⟩ := tableSound_iff.mpr (frameTable_ok hb)
  refine ⟨hnodup, fun s => ?_, hfree, fun e he => (frameTable_bounds hb e he).1⟩
  rw [frameTable_syms, mem_distinctSyms]

/-- An assignment's symbols are the distinct symbols of the input, in some order. -/
theorem Assigns.syms_perm {E : List Entry} {X : List Byte} (h : Assigns E X) :
    (E.map Prod.fst).Perm (distinctSyms X) := by
  rw [List.perm_ext_iff_of_nodup h.nodup (distinctSyms_nodup X)]
  exact fun s => (h.symbols s).trans mem_distinctSyms.symm

/-- R225: the total length of the table is the length of the payload. -/
theorem totalLength_frameTable {X : List Byte} (hX : X ≠ []) :
    totalLength (frameTable X) X = (hufPayload (hufBuild X).code X).length := by
  have hb := builtOk hX
  rw [hufPayload_length hb]
  exact ((frameTable_perm hb).map _).sum_eq

/-- R216: with n_sym 1 the input has one distinct symbol. -/
theorem distinctSyms_of_nSym_one {X : List Byte} (h : (hufBuild X).nSym = 1) : ∃ s, distinctSyms X = [s] :=
  List.length_eq_one_iff.mp (hufBuild_nSym X ▸ h)

/-- R223: a single symbol takes one bit each time. -/
theorem hufPayload_of_nSym_one {X : List Byte} (hX : X ≠ []) (h : (hufBuild X).nSym = 1) :
    (hufPayload (hufBuild X).code X).length = X.length := by
  obtain ⟨s, hs⟩ := distinctSyms_of_nSym_one h
  exact hufPayload_single hs hX

/-- Settles O37: the table's total length is that of the payload, which no assignment of R222 shortens, by the merge
steps and Kraft's inequality. -/
theorem hufIsOptimal : Obligations.HufIsOptimal := by
  intro X hX
  refine ⟨frameTable X, frameTable_assigns hX, fun e he => ?_, fun E hE => ?_, fun h1 => ?_⟩
  · obtain ⟨s, _, rfl⟩ := List.mem_map.mp he
    rfl
  · rw [totalLength_frameTable hX]
    exact hufPayload_minimal hX hE.syms_perm (List.pairwise_map.mpr hE.free) hE.pos
  · rw [totalLength_frameTable hX]
    exact hufPayload_of_nSym_one hX h1

/-- Settles O35: two symbols of the input have different entries in a table whose entries are apart. -/
theorem hufTableIsPrefixFree : Obligations.HufTableIsPrefixFree := by
  intro X x y hx hy hne
  have hT := frameTable_ok (builtOk (List.ne_nil_of_mem hx))
  exact hT.apart (mem_frameTable_iff.mpr hx) (mem_frameTable_iff.mpr hy) fun he => hne (Prod.mk.inj he).1

/-! ### The arena -/

/-- Settles O32: what `take_min` removes comes before every live index. -/
theorem takeMinIsTheLeastPair : Obligations.TakeMinIsTheLeastPair := by
  intro a live hne
  obtain ⟨x, rest, h⟩ := takeMin_some hne
  obtain ⟨hperm, hmin⟩ := takeMin_spec h
  exact ⟨x, rest, h, hperm, fun y hy => notAfter_iff.mpr (hmin y hy)⟩

theorem distinctSyms_ascending (X : List Byte) : (distinctSyms X).Pairwise fun a b => a.toNat < b.toNat :=
  frameTable_syms X ▸ List.pairwise_map.mpr (frameTable_ascending X)

theorem leaves_length (X : List Byte) : (leaves (freqCount X)).length = (distinctSyms X).length := by
  rw [leaves_eq, List.length_map]

/-- R211: the leaf of the `i`-th distinct symbol has the index `i`. -/
theorem leaves_getElem? (X : List Byte) (i : Nat) :
    (leaves (freqCount X))[i]? = (distinctSyms X)[i]?.map fun s => .leaf (X.count s) s := by
  rw [leaves_eq, List.getElem?_map]

/-- R211: no leaf is an internal node. -/
theorem leaves_not_internal (X : List Byte) (i f l r : Nat) :
    (leaves (freqCount X))[i]? ≠ some (.internal f l r) := by
  rw [leaves_getElem?]
  intro h
  obtain ⟨s, _, hs⟩ := Option.map_eq_some_iff.mp h
  cases hs

/-- R212: before the first merge step every leaf is live. -/
theorem liveAt_leaves_iff (X : List Byte) (i x : Nat) : LiveAt (leaves (freqCount X)) i x ↔ x < i :=
  ⟨fun h => h.1, fun h => ⟨h, fun _ _ _ _ _ hj => absurd hj (leaves_not_internal X _ _ _ _)⟩⟩

/-- R220: the arena is what the merge steps make of the leaves. -/
theorem hufBuild_arena (X : List Byte) :
    (hufBuild X).arena =
      mergeLoop ((distinctSyms X).length - 1) (leaves (freqCount X)) (List.range (distinctSyms X).length) := by
  rw [hufBuild, leaves_length]

/-- R211 to R214: the arena of a non-empty input keeps its leaves, and each later node joins the two least live indices. -/
theorem hufBuild_arena_shape {X : List Byte} (hX : X ≠ []) :
    (hufBuild X).arena.length = 2 * (distinctSyms X).length - 1 ∧
    (∀ i, i < (distinctSyms X).length → (hufBuild X).arena[i]? = (leaves (freqCount X))[i]?) ∧
    (∀ i, (distinctSyms X).length ≤ i → i < (hufBuild X).arena.length → Merges (hufBuild X).arena i) := by
  have hpos : 0 < (distinctSyms X).length := List.length_pos_iff.mpr (distinctSyms_ne_nil hX)
  obtain ⟨hsize, hkeep, hmerge, _⟩ := mergeLoop_shape ((distinctSyms X).length - 1) (a := leaves (freqCount X))
    (live := List.range (distinctSyms X).length) (by rw [List.length_range]; omega) List.nodup_range
    (fun x => by rw [List.mem_range, liveAt_leaves_iff, leaves_length])
    (fun _ _ _ _ hj => absurd hj (leaves_not_internal X _ _ _ _))
  rw [← hufBuild_arena, leaves_length] at hsize hkeep hmerge
  exact ⟨by omega, hkeep, fun i hi hlt => hmerge i hi (by omega)⟩

/-- Settles O33: the leaves are those of the distinct symbols, and every later node is a merge step's. -/
theorem hufArenaShape : Obligations.HufArenaShape := by
  intro X hX
  obtain ⟨hsize, hkeep, hmerge⟩ := hufBuild_arena_shape hX
  have h256 := distinctSyms_length_le X
  refine ⟨distinctSyms X, distinctSyms_ascending X, fun _ => mem_distinctSyms, hufBuild_nSym X, hsize, by omega,
    fun i hi => ?_, hmerge⟩
  rw [hkeep i hi, leaves_getElem?, List.getElem?_eq_getElem hi, List.getD_eq_getElem _ _ hi]
  rfl

/-- R218: the tree of an input with two distinct symbols or more: the arena holds it at its last node, and its entries are
the table's. -/
theorem hufBuild_tree_of_two {X : List Byte} (h : 2 ≤ (hufBuild X).nSym) :
    ∃ t : HTree, builtEntries X = t.entries [] ∧ Holds (hufBuild X).arena ((hufBuild X).arena.length - 1) t ∧
      t.leaves.Perm ((distinctSyms X).map fun s => (X.count s, s)) := by
  rw [hufBuild_nSym] at h
  obtain ⟨m, hm⟩ := Nat.exists_eq_add_of_le' h
  obtain ⟨t, hentries, hholds, hleaves, _⟩ := hufBuild_tree hm
  exact ⟨t, hentries, hholds, hleaves⟩

/-- Settles O34: the symbol's entry is one of the tree that the arena holds at its last node, so its codeword is a path. -/
theorem hufCodewordsArePaths : Obligations.HufCodewordsArePaths := by
  intro X s h2 hs
  obtain ⟨t, hentries, hholds, _⟩ := hufBuild_tree_of_two h2
  have hentry := mem_builtEntries_of (builtOk (List.ne_nil_of_mem hs)) hs
  rw [hentries] at hentry
  exact hholds.path (path := []) hentry

/-! ### Lengths -/

/-- R215: the root, the last node, has the frequency of the whole input. -/
theorem hufBuild_root_freq {X : List Byte} (hX : X ≠ []) :
    (hufBuild X).arena.freqAt ((hufBuild X).arena.length - 1) = X.length := by
  have hsum := count_sum X
  by_cases h2 : 2 ≤ (hufBuild X).nSym
  · obtain ⟨t, _, hholds, hleaves⟩ := hufBuild_tree_of_two h2
    rw [hholds.freqAt, t.weight_eq, (hleaves.map Prod.fst).sum_eq, List.map_map]
    exact hsum
  · have hpos := List.length_pos_iff.mpr (distinctSyms_ne_nil hX)
    obtain ⟨s, hs⟩ := distinctSyms_of_nSym_one (X := X) (by rw [hufBuild_nSym] at h2 ⊢; omega)
    obtain ⟨hsize, hkeep, _⟩ := hufBuild_arena_shape hX
    have hroot : (hufBuild X).arena.length - 1 = 0 := by rw [hsize, hs]; rfl
    rw [hs] at hsum
    rw [hroot, Arena.freqAt_congr (hkeep 0 hpos), Arena.freqAt, leaves_getElem?, hs]
    exact hsum

/-- R210: the symbols 0 to 255 are different bytes. -/
theorem bytes_nodup : ((List.range 256).map (BitVec.ofNat 8)).Nodup := by
  refine List.Nodup.map_on (fun a ha b hb hab => ?_) List.nodup_range
  rw [List.mem_range] at ha hb
  simpa [Nat.mod_eq_of_lt ha, Nat.mod_eq_of_lt hb] using congrArg BitVec.toNat hab

/-- R210: each byte is one of the symbols 0 to 255. -/
theorem mem_bytes (x : Byte) : x ∈ (List.range 256).map (BitVec.ofNat 8) :=
  List.mem_map.mpr ⟨x.toNat, List.mem_range.mpr x.isLt, BitVec.eq_of_toNat_eq (Nat.mod_eq_of_lt x.isLt)⟩

/-- R225: a sum over the positions of an input is a sum over a list of the symbols, weighed by their counts. -/
theorem sum_by_count {S : List Byte} (hS : S.Nodup) (f : Byte → Nat) (X : List Byte) (h : ∀ x ∈ X, x ∈ S) :
    (X.map f).sum = (S.map fun s => X.count s * f s).sum := by
  have hsyms : (S.map fun s => ((s, []) : Entry)).map Prod.fst = S := by rw [List.map_map]; exact List.map_id S
  rw [sum_by_symbol (by rwa [hsyms]) f X (by rwa [hsyms]), List.map_map]
  rfl

/-- R225: a sum over the positions of an input is a sum over all symbols, weighed by FREQ. -/
theorem sum_by_freqCount (f : Byte → Nat) (X : List Byte) :
    (X.map f).sum = ((List.range 256).map fun s => (freqCount X).getD s 0 * f (BitVec.ofNat 8 s)).sum := by
  rw [sum_by_count bytes_nodup f X fun x _ => mem_bytes x, List.map_map]
  refine congrArg List.sum (List.map_congr_left fun s hs => ?_)
  rw [freqCount_getD X (List.mem_range.mp hs)]
  rfl

/-- R225: the payload's length, position by position. -/
theorem hufPayload_length_by_position (t : CodeTable) (X : List Byte) :
    (hufPayload t X).length = (X.map fun x => (t.bits x).length).sum := List.length_flatMap

/-- R225: the total length is the length of the payload. -/
theorem hufBuild_totalLength (X : List Byte) :
    (hufBuild X).totalLength = (hufPayload (hufBuild X).code X).length := by
  rw [hufPayload_length_by_position, sum_by_freqCount]
  rfl

/-- Settles O38: by position from the concatenation, by symbol from the total length. -/
theorem hufPayloadLength : Obligations.HufPayloadLength :=
  fun X _ => ⟨hufPayload_length_by_position _ X, (hufBuild_totalLength X).symm⟩

/-- R219: a symbol that does not occur has no codeword. -/
theorem hufBuild_bits_absent {X : List Byte} (hX : X ≠ []) {x : Byte} (hx : x ∉ X) :
    ((hufBuild X).code.bits x).length = 0 := by
  rw [hufBuild_code, codeTable_bits_not_mem (mt (builtOk hX).mem.mp hx)]
  rfl

/-- R227: the codeword of a symbol that occurs has 1 to n_sym - 1 bits, or 1 where n_sym is 1. -/
theorem hufBuild_bits_length {X : List Byte} {x : Byte} (hx : x ∈ X) :
    1 ≤ ((hufBuild X).code.bits x).length ∧
      ((hufBuild X).code.bits x).length ≤ max 1 ((hufBuild X).nSym - 1) := by
  have hb := builtOk (List.ne_nil_of_mem hx)
  rw [hufBuild_nSym]
  exact ⟨hb.pos _ (mem_builtEntries_of hb hx), hb.le _ (mem_builtEntries_of hb hx)⟩

/-- Settles O36, part by part; the bounds on the total length are those on the payload. -/
theorem hufTableBounds : Obligations.HufTableBounds := by
  intro X hX
  rw [hufBuild_totalLength]
  refine ⟨hufBuild_root_freq hX, hufBuild_nSym_dedup X, fun x => hufBuild_bits_absent hX, fun x hx => ?_,
    hufPayload_le hX, hufPayload_le hX, fun h1 => ⟨hufPayload_of_nSym_one hX h1, hufPayload_of_nSym_one hX h1⟩⟩
  obtain ⟨hpos, hle⟩ := hufBuild_bits_length hx
  exact ⟨hpos, fun h1 => by omega, fun h2 => by omega⟩

/-! ### One symbol -/

theorem value_replicate_false (k : Nat) : value (List.replicate k false) = 0 := by
  induction k with
  | zero => rfl
  | succ k ih => rw [List.replicate_succ, value_cons, ih]; simp

/-- R282: bits 0 pack to the byte 0. -/
theorem packByte_replicate_false (k : Nat) : packByte (List.replicate k false) = 0 := by
  rw [packByte, List.replicate_append_replicate, value_replicate_false]
  rfl

theorem packBytes_replicate_false (m k : Nat) : packBytes m (List.replicate k false) = List.replicate m 0 := by
  induction m generalizing k with
  | zero => rfl
  | succ m ih =>
    rw [packBytes, List.take_replicate, List.drop_replicate, packByte_replicate_false, ih, List.replicate_succ]

/-- R282: `k` bits 0 pack to bytes 0. -/
theorem pack_replicate_false (k : Nat) : pack (List.replicate k false) = List.replicate (ceilDiv k 8) 0 := by
  rw [pack, List.length_replicate, packBytes_replicate_false]

/-- R287: the table entry of a symbol whose codeword is `0`. -/
theorem serializeEntry_zero_bit (x : Byte) : serializeEntry x [false] = [x, 0x01, 0x00] :=
  congrArg ([x, 0x01] ++ ·) (pack_replicate_false 1)

/-- R210: the one distinct symbol of a run of `x`. -/
theorem distinctSyms_replicate (x : Byte) {k : Nat} (hk : 1 ≤ k) : distinctSyms (List.replicate k x) = [x] := by
  refine List.perm_singleton.mp ((List.perm_ext_iff_of_nodup (distinctSyms_nodup _) (List.nodup_singleton x)).mpr
    fun s => ?_)
  rw [mem_distinctSyms, List.mem_replicate, List.mem_singleton]
  exact and_iff_right (by omega)

/-- R216: the codeword of a symbol that is the input's only one. -/
theorem hufBuild_bits_single {X : List Byte} {s : Byte} (h : distinctSyms X = [s]) :
    (hufBuild X).code.bits s = [false] := by
  rw [hufBuild_code, builtEntries_single h]
  exact codeTable_bits_mem (es := [(s, [false])]) (List.nodup_singleton s) (List.mem_singleton_self _)

/-- Settles O42: the table is the entry of `x` with the codeword `0`, so the payload is `k` bits 0. -/
theorem hufSingleSymbolFrame : Obligations.HufSingleSymbolFrame := by
  intro x k hk
  have hX : List.replicate k x ≠ [] := by
    rw [ne_eq, List.replicate_eq_nil_iff]
    omega
  have hsyms := distinctSyms_replicate x hk
  have hbits := hufBuild_bits_single hsyms
  have htable : frameTable (List.replicate k x) = [(x, [false])] := by
    rw [frameTable, hsyms, List.map_singleton, hbits]
  have hpayload : hufPayload (hufBuild (List.replicate k x)).code (List.replicate k x) = List.replicate k false := by
    rw [hufPayload, List.flatMap_replicate, hbits, List.flatten_replicate_singleton]
  rw [hufFrame_eq (builtOk hX), htable, hpayload, pack_replicate_false, List.length_replicate,
    List.length_singleton, List.flatMap_singleton, serializeEntry_zero_bit, ← List.append_assoc, ← List.append_assoc]
  rfl

end Sys2Proof.Machine

/-! ## Proofs: the Huffman coder (42_huffman_coder.md)

First how frequency orders the codeword lengths, then the encoder, the checks of the decoder and its scan, then the decoder
as a whole and the round trip. -/

namespace Sys2Proof.Machine

/-! ### Frequencies and codeword lengths -/

/-- The codewords of the table for the distinct symbols of the input, those of `x` and `y` exchanged. -/
def exchangedTable (X : List Byte) (x y : Byte) : List Entry :=
  (distinctSyms X).map fun s => (s, (hufBuild X).code.bits (Equiv.swap x y s))

/-- Exchanging two symbols of the input gives symbols of the input. -/
theorem swap_apply_mem {X : List Byte} {x y s : Byte} (hx : x ∈ X) (hy : y ∈ X) (hs : s ∈ X) : Equiv.swap x y s ∈ X := by
  rw [Equiv.swap_apply_def]
  split_ifs
  · exact hy
  · exact hx
  · exact hs

/-- R222: the table with two codewords exchanged is an assignment too. -/
theorem exchangedTable_assigns {X : List Byte} {x y : Byte} (hx : x ∈ X) (hy : y ∈ X) :
    Assigns (exchangedTable X x y) X := by
  have hsyms : (exchangedTable X x y).map Prod.fst = distinctSyms X := by
    rw [exchangedTable, List.map_map]
    exact List.map_id _
  refine ⟨hsyms ▸ distinctSyms_nodup X, fun s => hsyms ▸ mem_distinctSyms, ?_, fun e he => ?_⟩
  · refine List.pairwise_map.mpr ((distinctSyms_nodup X).imp_of_mem fun {a b} ha hb hab => ?_)
    have hne := (Equiv.swap x y).injective.ne hab
    have ha := swap_apply_mem hx hy (mem_distinctSyms.mp ha)
    have hb := swap_apply_mem hx hy (mem_distinctSyms.mp hb)
    exact ⟨hufTableIsPrefixFree X _ _ ha hb hne, hufTableIsPrefixFree X _ _ hb ha hne.symm⟩
  · obtain ⟨s, hs, rfl⟩ := List.mem_map.mp he
    exact (hufBuild_bits_length (swap_apply_mem hx hy (mem_distinctSyms.mp hs))).1

/-- R222: no assignment is shorter than the table. -/
theorem frameTable_minimal {E : List Entry} {X : List Byte} (hX : X ≠ []) (hE : Assigns E X) :
    totalLength (frameTable X) X ≤ totalLength E X := by
  rw [totalLength_frameTable hX]
  exact hufPayload_minimal hX hE.syms_perm (List.pairwise_map.mpr hE.free) hE.pos

/-- Two distinct symbols of the input stand apart from the others. -/
theorem distinctSyms_perm_pair {X : List Byte} {x y : Byte} (hx : x ∈ X) (hy : y ∈ X) (hne : x ≠ y) :
    ∃ rest, (distinctSyms X).Perm (x :: y :: rest) ∧ x ∉ rest ∧ y ∉ rest := by
  have hp : (distinctSyms X).Perm (x :: y :: ((distinctSyms X).erase x).erase y) :=
    (List.perm_cons_erase (mem_distinctSyms.mpr hx)).trans
      ((List.perm_cons_erase ((List.mem_erase_of_ne hne.symm).mpr (mem_distinctSyms.mpr hy))).cons x)
  have hnodup := hp.nodup_iff.mp (distinctSyms_nodup X)
  simp only [List.nodup_cons, List.mem_cons, not_or] at hnodup
  exact ⟨_, hp, hnodup.1.2, hnodup.2.1⟩

/-- R225: the total length of a table over the distinct symbols, two of them apart from the others. -/
theorem totalLength_of_perm_pair {X : List Byte} {x y : Byte} {rest : List Byte}
    (h : (distinctSyms X).Perm (x :: y :: rest)) (c : Byte → List Bool) :
    totalLength ((distinctSyms X).map fun s => (s, c s)) X =
      X.count x * (c x).length + X.count y * (c y).length +
        (rest.map fun s => X.count s * (c s).length).sum := by
  rw [totalLength, List.map_map, (h.map _).sum_eq]
  simp [Function.comp_def, Nat.add_assoc]

/-- R253: exchanging the codewords of two symbols does not shorten the total length. -/
theorem weighted_lengths_le_exchanged {X : List Byte} {x y : Byte} (hx : x ∈ X) (hy : y ∈ X) (hne : x ≠ y) :
    X.count x * ((hufBuild X).code.bits x).length + X.count y * ((hufBuild X).code.bits y).length ≤
      X.count x * ((hufBuild X).code.bits y).length + X.count y * ((hufBuild X).code.bits x).length := by
  obtain ⟨rest, hperm, hxr, hyr⟩ := distinctSyms_perm_pair hx hy hne
  have hle := frameTable_minimal (List.ne_nil_of_mem hx) (exchangedTable_assigns hx hy)
  have hrest : (rest.map fun s => X.count s * ((hufBuild X).code.bits (Equiv.swap x y s)).length) =
      rest.map fun s => X.count s * ((hufBuild X).code.bits s).length :=
    List.map_congr_left fun s hs => by
      rw [Equiv.swap_apply_of_ne_of_ne (ne_of_mem_of_not_mem hs hxr) (ne_of_mem_of_not_mem hs hyr)]
  rw [frameTable, exchangedTable, totalLength_of_perm_pair hperm, totalLength_of_perm_pair hperm, hrest,
    Equiv.swap_apply_left, Equiv.swap_apply_right] at hle
  exact Nat.le_of_add_le_add_right hle

/-- R210: the distinct symbols of an input are its symbols in ascending order. -/
theorem distinctSyms_eq_of_ascending {X S : List Byte} (hS : S.Pairwise fun a b => a.toNat < b.toNat)
    (hmem : ∀ s, s ∈ X ↔ s ∈ S) : distinctSyms X = S := by
  have hnodup : S.Nodup := hS.imp fun {a b} hab heq => Nat.ne_of_lt hab (congrArg BitVec.toNat heq)
  refine List.Perm.eq_of_pairwise (fun a b _ _ hab hba => absurd hab (Nat.lt_asymm hba)) (distinctSyms_ascending X) hS ?_
  exact (List.perm_ext_iff_of_nodup (distinctSyms_nodup X) hnodup).mpr fun s => mem_distinctSyms.trans (hmem s)

/-- R226: the codewords of Scenario 1. -/
theorem builtEntries_scenario1 :
    builtEntries [0x41, 0x41, 0x41, 0x41, 0x42, 0x42, 0x42, 0x43, 0x43, 0x44] =
      [(0x41, [false]), (0x42, [true, false]), (0x44, [true, true, false]), (0x43, [true, true, true])] := by
  have hsyms : distinctSyms [0x41, 0x41, 0x41, 0x41, 0x42, 0x42, 0x42, 0x43, 0x43, 0x44] = [0x41, 0x42, 0x43, 0x44] :=
    distinctSyms_eq_of_ascending (by decide) (by simp)
  rw [builtEntries, hufBuild_arena, leaves_eq, hsyms]
  decide

/-- Settles O39: exchanging a longer codeword of the more frequent symbol would shorten the minimal total length. -/
theorem hufLargerFrequencyIsNotLonger : Obligations.HufLargerFrequencyIsNotLonger := by
  refine ⟨fun X x y hy hlt => ?_, by rw [hufBuild_code, builtEntries_scenario1]; simp [codeTable_bits]⟩
  have hx : x ∈ X := List.count_pos_iff.mp (Nat.zero_lt_of_lt hlt)
  have hne : x ≠ y := by
    rintro rfl
    exact Nat.lt_irrefl _ hlt
  by_contra hlong
  have hexchange := weighted_lengths_le_exchanged hx hy hne
  have := mul_add_mul_lt_mul_add_mul hlt (not_le.mp hlong)
  omega

/-! ### HUF_ENCODE -/

/-- Settles O40, from what HUF_ENCODE hands to its completion. -/
theorem hufEncodeResult : Obligations.HufEncodeResult := by
  intro s hc hlen
  refine ⟨exec_empty_input, ?_⟩
  rintro _ _ _ hX rfl rfl rfl hfits
  obtain ⟨hid, hok⟩ := hufEncode_ok hX hfits
  rw [← hufBuild_nSym_dedup]
  exact exec_succeeds (i := .hufEncode) hc hlen hok

/-! ### The table's checks -/

/-- R259: HUF_DECODE of a frame whose table is sound and whose trailer fails a check. -/
theorem hufDecode_trailer_error {cfg : Config} {F R : List Byte} {T : List Entry} (hT : HufTableAt F T R)
    (hS : TableSound T) {e : Raise} (he : parseTrailer R 0 = .error e) : hufDecode cfg F = .error e := by
  obtain ⟨hp, hd, h2⟩ := hT.parse
  have hok := tableSound_iff.mp hS
  rw [hufDecode_of_table cfg (by omega) hp, hufDecodeBody, (uniqueSymbols_iff _).mpr hok.syms,
    (prefixFree_iff _).mpr hok.free, parseTrailer_drop (Nat.sub_le _ _), hd, he]
  rfl

/-- R260, R261: the errors of the scan. -/
theorem hufScan_raises {cap : Nat} {T : List Entry} {bits : List Bool} {e : Raise}
    (he : hufScan cap T bits = .error e) : e.detail ∈ [.capOut, .hufTrailingBits] := by
  rcases hufScan_cases cap T bits with ⟨_, h, _⟩ | ⟨_, h, _⟩ | ⟨h, _⟩ <;> cases h.symm.trans he
  · exact .tail _ (.head _)
  · exact .head _

/-- R256: the errors of HUF_DECODE behind a sound table. -/
theorem hufDecode_sound_raises {cfg : Config} {F R : List Byte} {T : List Entry} (hT : HufTableAt F T R)
    (hS : TableSound T) {e : Raise} (he : hufDecode cfg F = .error e) :
    e.detail ∈ [.hufHdrShort, .hufPadMismatch, .hufLenMismatch, .capOut, .hufTrailingBits] := by
  rcases parseTrailer_cases R 0 with ⟨d, hd, ht⟩ | ⟨_, _, _, ht⟩
  · cases (hufDecode_trailer_error hT hS ht).symm.trans he
    rcases hd with rfl | rfl | rfl <;> simp [Raise.malformed]
  · have hR := (HufTrailerAt.of_parse ht).1
    rw [List.drop_zero] at hR
    rcases hufDecode_of_frame hT hS hR with ⟨e', hs, h⟩ | ⟨_, _, _, h⟩ <;> cases h.symm.trans he
    exact .tail _ (.tail _ (.tail _ (hufScan_raises hs)))

/-- R258: a codeword with which another entry's begins, or to which it is equal, makes the table unsound. -/
theorem not_codesFree_of_prefix {T : List Entry} {i j : Nat} (hi : i < T.length) (hj : j < T.length) (hne : i ≠ j)
    (hpre : (T.getD i (0, [])).2 <+: (T.getD j (0, [])).2) : ¬ CodesFree (T.map Prod.snd) := by
  rw [List.getD_eq_getElem _ _ hi, List.getD_eq_getElem _ _ hj] at hpre
  intro hfree
  have hpairs := List.pairwise_iff_getElem.mp (List.pairwise_map.mp hfree)
  rcases Nat.lt_or_gt_of_ne hne with hlt | hgt
  · exact (hpairs i j hi hj hlt).1 hpre
  · exact (hpairs j i hj hi hgt).2 hpre

/-- Settles O44: the two checks of the table by their own rules; no later check raises either error. -/
theorem hufTableChecks : Obligations.HufTableChecks := by
  intro s T R hc hlen hT
  obtain ⟨hdup, hprefix⟩ := hufDecode_unsound (cfg := s.cfg) hT
  refine ⟨fun h => exec_fails (i := .hufDecode) hc hlen (hdup h), ?_, fun hS => ?_⟩
  · rintro hnodup ⟨i, j, hi, hj, hne, hpre⟩
    exact exec_fails (i := .hufDecode) hc hlen (hprefix hnodup (not_codesFree_of_prefix hi hj hne hpre))
  · have hdetail := exec_detail_mem hc (exec_eq .hufDecode s) fun _ he => hufDecode_sound_raises hT hS he
    refine ⟨_, exec_eq _ s, ?_, ?_⟩ <;>
    · intro h
      rw [h] at hdetail
      simp at hdetail

/-! ### The trailer's checks -/

theorem parseTrailer_hdrShort {R : List Byte} (h : R.length < 5) :
    parseTrailer R 0 = .error (Raise.malformed .hufHdrShort 0) :=
  if_pos h

theorem parseTrailer_padMismatch {R : List Byte} (h5 : 5 ≤ R.length) (hp : byteAt R 4 ≠ padLen (be32Read R 0)) :
    parseTrailer R 0 = .error (Raise.malformed .hufPadMismatch 0) := by
  rw [parseTrailer, if_neg (by omega)]
  exact if_pos hp

theorem parseTrailer_lenMismatch {R : List Byte} (h5 : 5 ≤ R.length) (hp : byteAt R 4 = padLen (be32Read R 0))
    (hl : R.length - 5 ≠ ceilDiv (be32Read R 0) 8) :
    parseTrailer R 0 = .error (Raise.malformed .hufLenMismatch 0) := by
  rw [parseTrailer, if_neg (by omega)]
  exact (if_neg (not_not_intro hp)).trans (if_pos hl)

/-- Settles O45, check by check. -/
theorem hufTrailerChecks : Obligations.HufTrailerChecks := by
  intro s T R hc hlen hT hS
  have hfail : ∀ d, parseTrailer R 0 = .error (Raise.malformed d 0) →
      ∃ t, exec .hufDecode s = .next t ∧ s.Failed t d 0 ∧ s.CommandFrame t :=
    fun d he => exec_fails (i := .hufDecode) hc hlen (hufDecode_trailer_error hT hS he)
  refine ⟨fun h => hfail _ (parseTrailer_hdrShort h), fun h5 hp => hfail _ (parseTrailer_padMismatch h5 hp),
    fun h5 hp hl => hfail _ (parseTrailer_lenMismatch h5 hp hl), fun h5 hp hl => ?_⟩
  have hR := HufTrailerAt.of_checks h5 hp hl
  refine ⟨_, hR, ?_⟩
  rw [parseTrailer_drop (Nat.sub_le _ _), hT.parse.2.1]
  exact hR.parse.1

/-! ### The scan -/

/-- R129: every codeword of a frame's table has a bit. -/
theorem HufTableAt.pos {F R : List Byte} {T : List Entry} (h : HufTableAt F T R) : ∀ e ∈ T, 1 ≤ e.2.length := by
  obtain ⟨_, _, _, _, _, _, hG⟩ := h
  exact fun e he => (hG.bounds e he).1

/-- R261: a scan whose last bits begin with no codeword. -/
theorem hufScan_trailing {cap : Nat} {T : List Entry} (hT : TableOk T) (hpos : ∀ e ∈ T, 1 ≤ e.2.length)
    {bits rest : List Bool} {out : List Byte} (hw : Spells T bits out) (hcap : out.length ≤ cap) (hne : rest ≠ [])
    (hno : ∀ e ∈ T, ¬ e.2 <+: rest) :
    hufScan cap T (bits ++ rest) = .error (Raise.malformed .hufTrailingBits bits.length) := by
  obtain ⟨word, hmem, rfl, rfl⟩ := hw
  have hword := (hufScanLoop_word hT hpos (cap := cap) word hmem (j := 0) (out := []) (rest := rest) (Nat.zero_le _)).1
    (by simpa using hcap)
  have hrest := hufScanLoop_none (T := T) (cap := cap) rest (j := 0 + (word.flatMap Prod.snd).length)
    (d := ⟨[], 0 + (word.flatMap Prod.snd).length, [] ++ word.map Prod.fst⟩) fun e he k _ _ hk =>
      hno e he (hk ▸ List.take_prefix k rest)
  rw [hufScan_of_loop (hword.trans hrest), if_neg (by simpa using hne), Nat.zero_add]

/-- Settles O46: the codewords before run through the scan, which then keeps the rest in its accumulator. -/
theorem hufTrailingBits : Obligations.HufTrailingBits := by
  intro s T R bits rest out hc hlen hT hS hR hw hcap hne hno
  have hscan := hufScan_trailing (tableSound_iff.mp hS) hT.pos hw hcap hne hno
  rcases hufDecode_of_frame (cfg := s.cfg) hT hS hR with ⟨e, he, hx⟩ | ⟨_, _, hd, _⟩
  · cases hscan.symm.trans he
    exact exec_fails (i := .hufDecode) hc hlen hx
  · cases hscan.symm.trans hd

/-- R260: what a scan that succeeds has read. -/
theorem hufScan_spells {cap : Nat} {T : List Entry} {bits : List Bool} {d : HufScan}
    (h : hufScan cap T bits = .ok d) : Spells T bits d.out ∧ d.out.length ≤ cap := by
  rcases hufScan_cases cap T bits with ⟨d', hs, hacc, hloop, hcap⟩ | ⟨_, hs, _⟩ | ⟨hs, _⟩ <;> cases hs.symm.trans h
  obtain ⟨word, hmem, hbits, hout⟩ := hufScanLoop_sound bits hloop
  exact ⟨⟨word, hmem, by simpa [HufScan.init, hacc] using hbits, by simpa [HufScan.init] using hout⟩, hcap⟩

/-! ### HUF_DECODE -/

/-- Settles O47: a payload of codewords runs through the scan; an error is one of R321. -/
theorem hufDecodeResult : Obligations.HufDecodeResult := by
  intro s hc hlen
  refine ⟨exec_empty_input, fun T R bits out hT hS hR hw hcap => ?_, fun t ht herr => exec_failed hc ht herr⟩
  obtain ⟨hid, hok⟩ := hufDecode_spells hT hS hR hw hcap
  exact exec_succeeds (i := .hufDecode) hc hlen hok

/-- R256: the checks that a table and its frame have passed when HUF_DECODE succeeds, and its scan. -/
theorem hufDecodeBody_ok {cap : Nat} {F : List Byte} {c : Nat} {T : List Entry} {p : Nat} {r : Success} {h : Hidden}
    (hok : hufDecodeBody cap F c T p = .ok (r, h)) :
    TableSound T ∧ ∃ bits, HufTrailerAt (F.drop p) bits ∧ ∃ d, hufScan cap T bits = .ok d ∧ r.out = d.out := by
  rcases hufDecodeBody_cases cap F c T p with
    ⟨_, hx⟩ | ⟨_, _, hx⟩ | ⟨huniq, hfree, ⟨_, _, hx⟩ | ⟨_, _, _, _, _, hx⟩ | ⟨b, pad, d, hid, ht, hs, hx⟩⟩ <;>
    cases hx.symm.trans hok
  exact ⟨tableSound_iff.mpr ⟨(uniqueSymbols_iff T).mp huniq, (prefixFree_iff T).mp hfree⟩, _,
    (HufTrailerAt.of_parse ht).1, d, hs, rfl⟩

/-- R256 to R261: a non-empty frame that HUF_DECODE accepts has a sound table, a right trailer and a payload that spells
its output. -/
theorem hufDecode_reads {cfg : Config} {F : List Byte} (hF : F ≠ []) {r : Success} {h : Hidden}
    (hok : hufDecode cfg F = .ok (r, h)) :
    ∃ T R bits, HufTableAt F T R ∧ TableSound T ∧ HufTrailerAt R bits ∧ Spells T bits r.out ∧
      r.out.length ≤ cfg.outCap := by
  have h0 : F.length ≠ 0 := by simpa using hF
  cases hp : parseTable F with
  | error e =>
    rw [hufDecode_of_table_error cfg h0 hp] at hok
    cases hok
  | ok x =>
    obtain ⟨c, T, p⟩ := x
    rw [hufDecode_of_table cfg h0 hp] at hok
    obtain ⟨hS, bits, hR, d, hscan, hout⟩ := hufDecodeBody_ok hok
    exact ⟨T, _, bits, (HufTableAt.of_parse hp).1, hS, hR, hout ▸ hufScan_spells hscan⟩

/-- Settles O48: the decoder is sound for what the frame says bit by bit, and complete where the output fits OBUF. -/
theorem hufDecodeExactly : Obligations.HufDecodeExactly := by
  intro cfg F out hF
  constructor
  · rintro ⟨r, h, hok, rfl⟩
    exact hufDecode_reads hF hok
  · rintro ⟨T, R, bits, hT, hS, hR, hw, hcap⟩
    obtain ⟨hid, hok⟩ := hufDecode_spells hT hS hR hw hcap
    exact ⟨_, hid, hok, rfl⟩

/-! ### The round trip -/

/-- R266: HUF_DECODE of what HUF_ENCODE wrote, in any configuration whose OBUF holds the encoder's input. -/
theorem hufDecode_of_hufEncode {E D : Config} {X : List Byte} (hX : X.length < 2 ^ 29) {r : Success} {h : Hidden}
    (hr : hufEncode E X = .ok (r, h)) (hcap : X.length ≤ D.outCap) :
    ∃ r' h', hufDecode D r.out = .ok (r', h') ∧ r'.out = X := by
  rcases hufEncode_cases E X with ⟨rfl, hok⟩ | ⟨_, _, herr⟩ | ⟨hne, _, _, hok⟩
  · cases hok.symm.trans hr
    exact ⟨_, _, hufDecode_nil D, rfl⟩
  · cases herr.symm.trans hr
  · cases hok.symm.trans hr
    obtain ⟨hid, hdec⟩ := hufDecode_hufFrame hne hX hcap
    exact ⟨_, hid, hdec, rfl⟩

/-- A command whose engine answers the input of a command in another state leaves that input in OBUF. -/
theorem exec_restores_input {i : Instr} {s u : State} (hc : u.cfg.wf = true) (hlen : u.latchedLen.toNat ≤ u.cfg.inCap)
    {r : Success} {h : Hidden} (hok : engineOf i u.cfg u.input = .ok (r, h)) (hout : r.out = s.input) :
    ∃ v, exec i u = .next v ∧ v.err = .ok ∧ v.res.outLen = s.latchedLen ∧
      ∀ j, j < s.latchedLen.toNat → v.obufByte j = s.ibufByte j := by
  have hin := wf_inCap hc
  have hgood : r.Good u.cfg := engineOf_hands (by rw [State.input_length]; omega) hok
  exact ⟨_, by rw [exec_eq, State.runCommand_ok hlen hok], rfl, output_of_input hc hgood hout⟩

/-- Settles O49: the copied frame is the input of HUF_DECODE, whose output is the encoder's input. -/
theorem hufRoundTrip : Obligations.HufRoundTrip := by
  intro s t u hc hlen hcap ht hok hcfg hulen hframe hcopy
  obtain ⟨r, h, hr, rfl, hgood, _⟩ := exec_ok_cases hc ht hok
  have hinput : u.input = r.out := input_of_copy hc hgood hulen hcopy
  have hin := wf_inCap hc
  rw [← State.input_length] at hlen hcap
  obtain ⟨r', h', hdec, hout⟩ := hufDecode_of_hufEncode (D := u.cfg) (by omega) hr (hcfg ▸ hcap)
  rw [← hinput] at hdec
  exact exec_restores_input (i := .hufDecode) (hcfg ▸ hc) (by rw [hulen, hcfg]; exact hframe) hdec hout

end Sys2Proof.Machine

/-! ## Proofs: the framing utilities (43_framing.md)

First the bit strings, then the byte fields, then the table parse, each with the facts it needs. -/

namespace Sys2Proof.Machine

/-! ### Bit strings -/

/-- R283: the value of a bit string is the sum of its bits at their places. -/
theorem value_eq_sum (bits : List Bool) :
    value bits =
      ((List.range bits.length).map fun j => (bits.getD j false).toNat * 2 ^ (bits.length - 1 - j)).sum := by
  induction bits with
  | nil => rfl
  | cons b bs ih =>
    rw [value_cons, ih, List.length_cons, List.range_succ_eq_map]
    simp [Function.comp_def, Nat.sub_sub, Nat.add_comm 1]

/-- Settles O50, from the bits of a packed and of an unpacked string. -/
theorem packAndUnpack : Obligations.PackAndUnpack :=
  ⟨fun bits => ⟨pack_length bits, fun j _ => pack_bitAt bits j, unpack_pack bits⟩,
    fun bytes n hn => ⟨unpack_length bytes n hn, fun _ hj => unpack_getD bytes hj⟩,
    value_eq_sum, fun _ _ => value_bitsOf,
    fun b => ⟨rfl, padLen_eq b, Nat.le_of_lt_succ (padLen_lt b)⟩⟩

/-! ### Byte fields -/

/-- R284: the bytes of a 16-bit field. -/
theorem be16_toNat {v : Nat} (h : v < 2 ^ 16) : (be16 v).map BitVec.toNat = [v / 2 ^ 8, v % 2 ^ 8] := by
  have hhigh : v / 2 ^ 8 % 2 ^ 8 = v / 2 ^ 8 := Nat.mod_eq_of_lt (by omega)
  rw [be16, List.map_cons, List.map_singleton, BitVec.toNat_ofNat, BitVec.toNat_ofNat, hhigh]

/-- R284: the bytes of a 32-bit field. -/
theorem be32_toNat {v : Nat} (h : v < 2 ^ 32) :
    (be32 v).map BitVec.toNat = [v / 2 ^ 24, v / 2 ^ 16 % 2 ^ 8, v / 2 ^ 8 % 2 ^ 8, v % 2 ^ 8] := by
  have hhigh : v / 2 ^ 24 % 2 ^ 8 = v / 2 ^ 24 := Nat.mod_eq_of_lt (by omega)
  simp only [be32, List.map_cons, List.map_nil, BitVec.toNat_ofNat, hhigh]

/-- R285: a 16-bit field behind other bytes reads as at the head of a frame. -/
theorem be16Read_append_right (A F : List Byte) : be16Read (A ++ F) A.length = be16Read F 0 := by
  rw [be16Read, byteAt_append_right (le_refl _), byteAt_append_right (Nat.le_add_right _ 1), Nat.sub_self,
    Nat.add_sub_cancel_left, be16Read]

/-- Settles O51: the readers are their sums, and read back what the writers wrote. -/
theorem bigEndianFields : Obligations.BigEndianFields :=
  ⟨fun _ _ _ => rfl, fun _ _ _ => rfl, fun _ => be16_toNat, fun _ => be32_toNat,
    fun v A B hv => by rw [List.append_assoc, be16Read_append_right, be16Read_be16 hv],
    fun _ A B hv => be32Read_be32 hv A B⟩

/-! ### The table parse -/

theorem parseTable_hdrShort {F : List Byte} (h : F.length < 2) :
    parseTable F = .error (Raise.malformed .hufHdrShort 0) :=
  if_pos h

theorem parseTable_badCount {F : List Byte} (h2 : 2 ≤ F.length) (hc : 256 < be16Read F 0) :
    parseTable F = .error (Raise.malformed .hufBadCount 0) := by
  rw [parseTable, if_neg (by omega)]
  exact if_pos hc

/-- R288: a frame whose header passes its checks fails as its entries do. -/
theorem parseTable_entries_error {F : List Byte} (h2 : 2 ≤ F.length) (hc : be16Read F 0 ≤ 256) {e : Raise}
    (he : parseEntries F (be16Read F 0) 2 = .error e) : parseTable F = .error e := by
  rw [parseTable, if_neg (by omega)]
  simp only [he]
  exact if_neg (by omega)

/-- R288: a table parse that reads entries and then fails at the next. -/
theorem parseTable_next_error {hi lo : Byte} {G R : List Byte} {T : List Entry}
    (hc : hi.toNat * 2 ^ 8 + lo.toNat ≤ 256) (hG : TableReads G T) (hmore : T.length < hi.toNat * 2 ^ 8 + lo.toNat)
    {e : Raise} (he : ∀ c, parseEntries (hi :: lo :: (G ++ R)) (c + 1) (2 + G.length) = .error e) :
    parseTable (hi :: lo :: (G ++ R)) = .error e := by
  have hcount : be16Read (hi :: lo :: (G ++ R)) 0 = hi.toNat * 2 ^ 8 + lo.toNat := rfl
  obtain ⟨c, hsplit⟩ := Nat.exists_eq_add_of_lt hmore
  refine parseTable_entries_error (Nat.le_add_left _ _) (hcount ▸ hc) ?_
  have hp := hG.parse (A := [hi, lo]) (R := R) (c := c + 1)
  rw [show [hi, lo].length = 2 from rfl, show [hi, lo] ++ (G ++ R) = hi :: lo :: (G ++ R) from rfl, he c] at hp
  rw [hcount, hsplit]
  exact hp

theorem parseEntries_hdrShort {F : List Byte} {p : Nat} (h : F.length < p + 2) (c : Nat) :
    parseEntries F (c + 1) p = .error (Raise.malformed .hufHdrShort 0) :=
  if_pos h

theorem parseEntries_badLength {F : List Byte} {p : Nat} (h2 : p + 2 ≤ F.length) (h0 : byteAt F (p + 1) = 0) (c : Nat) :
    parseEntries F (c + 1) p = .error (Raise.malformed .hufBadLength 0) := by
  rw [parseEntries, if_neg (by omega)]
  exact if_pos h0

theorem parseEntries_codewordShort {F : List Byte} {p : Nat} (h2 : p + 2 ≤ F.length) (h0 : byteAt F (p + 1) ≠ 0)
    (h : F.length < p + 2 + ceilDiv (byteAt F (p + 1)) 8) (c : Nat) :
    parseEntries F (c + 1) p = .error (Raise.malformed .hufHdrShort 0) := by
  rw [parseEntries, if_neg (by omega)]
  exact (if_neg h0).trans (if_pos h)

/-- R288: HUF_DECODE on a frame whose table parse fails. -/
theorem exec_hufDecode_parse_error {s : State} (hc : s.cfg.wf = true) (hlen : s.latchedLen.toNat ≤ s.cfg.inCap)
    (h0 : s.input.length ≠ 0) {d : Detail} (hp : parseTable s.input = .error (Raise.malformed d 0)) :
    ∃ t, exec .hufDecode s = .next t ∧ s.Failed t d 0 ∧ s.CommandFrame t :=
  exec_fails (i := .hufDecode) hc hlen (hufDecode_of_table_error s.cfg h0 hp)

/-- Settles O43: the header check by check, then the next entry's checks behind the entries read. -/
theorem hufParseChecks : Obligations.HufParseChecks := by
  intro s hc hlen
  have hfail := fun h0 d => exec_hufDecode_parse_error hc hlen h0 (d := d)
  refine ⟨fun h1 => hfail (by omega) _ (parseTable_hdrShort (by omega)),
    fun h2 hcount => hfail (by omega) _ (parseTable_badCount h2 hcount), ?_, fun T R hT => hT.parse.1⟩
  intro hi lo G T R hF hcount hG hmore
  have hl : s.input.length = 2 + G.length + R.length := by
    simp [hF]
    omega
  have hb : byteAt s.input (2 + G.length + 1) = byteAt R 1 := by
    rw [hF, show hi :: lo :: (G ++ R) = (hi :: lo :: G) ++ R from rfl, byteAt_append_right (by simp)]
    congr 1
    simp
    omega
  have hnext : ∀ d, (∀ c, parseEntries s.input (c + 1) (2 + G.length) = .error (Raise.malformed d 0)) →
      ∃ t, exec .hufDecode s = .next t ∧ s.Failed t d 0 ∧ s.CommandFrame t := fun d he =>
    hfail (by omega) d (hF ▸ parseTable_next_error hcount hG hmore (hF ▸ he))
  rw [← hb]
  exact ⟨fun h => hnext _ (parseEntries_hdrShort (by omega)),
    fun h2 h0 => hnext _ (parseEntries_badLength (by omega) h0),
    fun h2 h0 h => hnext _ (parseEntries_codewordShort (by omega) h0 (by omega))⟩

end Sys2Proof.Machine

/-! ## Proofs: completion and errors (60_exceptions.md)

First what a rejected COMMAND word leaves, then how a command ends, then the output that does not fit OBUF. -/

namespace Sys2Proof.Machine

/-! ### The COMMAND write -/

/-- R36, R315, R321: a word that is rejected while IDLE leaves a failure, with the low four bits of the word in LAST_OP. -/
theorem State.commandWrite_rejected_leaves {s : State} (h : s.seq = .idle) {v : Word} {e : CommandError}
    (hd : decode v = .error e) :
    s.Failed (s.commandWrite v) (badCommandDetail e) 0 ∧ (s.commandWrite v).lastOp.toNat = v.toNat % 16 ∧
      { s with lastOp := (s.commandWrite v).lastOp }.CommandFrame (s.commandWrite v) := by
  rw [State.commandWrite_rejected h hd]
  exact ⟨(State.failed_completeErr (Raise.good_badCommand e) _).of_draws rfl, opField_toNat v,
    State.frame_completeErr _ { s with lastOp := opField v }⟩

/-- Settles O3: a write is ignored while BUSY; while IDLE the decoder decides between a failure and a start. -/
theorem commandWriteEffect : Obligations.CommandWriteEffect := by
  intro s v
  refine ⟨_, transact_command v s, fun op hbusy => State.commandWrite_busy hbusy v,
    fun hidle hv => State.commandWrite_rejected_leaves hidle (decode_reserved hv),
    fun hidle hv => State.commandWrite_rejected_leaves hidle ((decode_eq_badOpcode_iff v).mpr hv), ?_⟩
  rintro i hidle rfl
  have hstart := State.commandWrite_accepted hidle (decode_encode i)
  refine ⟨hstart, ?_⟩
  rw [hstart, State.startCommand_lastOp, ← opField_encode, opField_toNat]

/-! ### How a command ends -/

/-- R38, R91, R321: what a command leaves unchanged, however it ends. -/
theorem exec_frame {i : Instr} {s t : State} (ht : exec i s = .next t) : s.CommandFrame t := by
  rw [exec_eq] at ht
  cases ht
  rcases s.runCommand_cases (engineOf i) with ⟨_, h⟩ | ⟨_, e, _, h⟩ | ⟨_, r, x, _, h⟩ <;> rw [h]
  · exact State.frame_completeErr _ s
  · exact State.frame_completeErr e s
  · exact State.frame_completeOk r x s

/-- Settles O12, by the two ends of a command. -/
theorem everyCommandCompletes : Obligations.EveryCommandCompletes := by
  intro i s hc
  rcases exec_cases i hc with ⟨e, hgood, hx, _⟩ | ⟨r, h, hgood, hx, _⟩
  · exact ⟨_, hx, exec_frame hx, .inr ⟨_, _, State.failed_completeErr hgood s⟩⟩
  · exact ⟨_, hx, exec_frame hx, .inl ⟨_, _, _, _, _, _,
      State.succeeded_completeOk (s := { s with hidden := h }) hgood hc, hgood.out_le⟩⟩

/-- Settles O13: the length check comes first, so the failure is the same whatever IBUF holds; the empty input succeeds. -/
theorem oversizedLengthFails : Obligations.OversizedLengthFails := by
  refine ⟨fun i s h => ?_, fun i s h => ⟨_, exec_nil h, rfl⟩⟩
  exact ⟨_, exec_capInLen h, State.failed_completeErr (Raise.good_capacity rfl) s, State.frame_completeErr _ s,
    fun m d => exec_capInLen (s := { s with ibuf := m, ibufDraw := d }) h⟩

/-- Settles O14, for a command and for a rejected word. -/
theorem failedCommandEffects : Obligations.FailedCommandEffects := by
  refine ⟨fun i s t hc ht herr => ⟨exec_failed hc ht herr, exec_frame ht⟩, fun s t v e hidle hd ht => ?_⟩
  rw [transact_command] at ht
  cases ht
  obtain ⟨hfailed, _, hframe⟩ := State.commandWrite_rejected_leaves hidle hd
  exact ⟨⟨_, hfailed⟩, hframe⟩

/-! ### Output that does not fit OBUF -/

/-- R317: LZW_DECODE of a frame whose first codes decode to strings that do not fit OBUF. -/
theorem lzwDecode_overflows {cfg : Config} {F : List Byte} {w : Nat} {ks rest : List Nat} {es : List (List Byte)}
    (hn : 256 ≤ cfg.dictSize) (hreads : LzwFrameReads F w (ks ++ rest)) (hdec : LzwDecodesTo cfg.dictSize ks es)
    (hcap : cfg.outCap < es.flatten.length) : lzwDecode cfg F = .error (Raise.capacity .capOut) := by
  have h5 := hreads.five_le
  have hloop : lzwDecLoop cfg 0 ks LzwDec.init = .error (Raise.capacity .capOut) := by
    rcases lzwDecLoop_decodes hn ks (DecAt.init hn) (fs := es) hdec with ⟨d, hok, hat, _⟩ | ⟨herr, _⟩
    · have hfits := (lzwDecLoop_good (cfg := cfg) ks (i := 0) (d := LzwDec.init) (Nat.zero_le _)).1 d hok
      rw [hat.out, List.nil_append] at hfits
      omega
    · exact herr
  have hall : lzwDecLoop cfg 0 (ks ++ rest) LzwDec.init = .error (Raise.capacity .capOut) := by
    rw [lzwDecLoop_append, hloop]
  rcases lzwDecode_of_parse cfg (by omega) hreads.parse with ⟨e, hl, hx⟩ | ⟨_, _, hl, _⟩
  · cases hall.symm.trans hl
    exact hx
  · cases hall.symm.trans hl

/-- Settles O16: an encoder's frame fits OBUF under R13; a decoder stops at the first overflow. -/
theorem outputOverflow : Obligations.OutputOverflow := by
  refine ⟨fun s hc hlen hX hlong => ?_, fun s hc hlen hX hlong => ?_,
    fun s w ks rest es hc hlen hreads hdec hcap => ?_, fun s T R bits rest out hc hlen hT hS hR hw hcap => ?_⟩
  · refine ⟨exec_fails (i := .lzwEncode) hc hlen (lzwEncode_capOut hX hlong), fun hbound => ?_⟩
    exact Nat.not_lt.mpr (lzwFrame_fits hc hbound hX (s.input_length.trans_le hlen)) hlong
  · refine ⟨exec_fails (i := .hufEncode) hc hlen (hufEncode_capOut hX hlong), fun hbound => ?_⟩
    exact Nat.not_lt.mpr (hufFrame_fits hbound hX (s.input_length.trans_le hlen)) hlong
  · exact exec_fails (i := .lzwDecode) hc hlen (lzwDecode_overflows (wf_dictSize hc).1 hreads hdec hcap)
  · exact exec_fails (i := .hufDecode) hc hlen (hufDecode_overflows hT hS hR hw hcap)

end Sys2Proof.Machine

/-! ## Proofs: reset and hazards (70_reset_and_hazards.md)

First the host's turns that come before the core's, then the core's turn behind them. Then the obligation. -/

namespace Sys2Proof.Machine

/-! ### Host turns before the core's -/

/-- R95: the next turn of a schedule that names the host. -/
theorem step_host {s : State} {sched : List Turn} (h : s.schedule = .host :: sched) :
    step s = hostTurn { s with schedule := sched } := by
  rw [step_eq, State.turn, h]
  rfl

/-- R95, R96: a host turn that is not refused takes nothing but itself from a running command. -/
theorem step_host_busy {s t : State} {op : Instr} {sched : List Turn} (hbusy : s.seq = .busy op)
    (hsched : s.schedule = .host :: sched) (ht : step s = .next t) : s.SameCore t ∧ t.schedule = sched := by
  rw [step_host hsched] at ht
  have hsame := hostTurn_busy (s := { s with schedule := sched }) hbusy ht
  exact ⟨State.SameCore.trans (t := { s with schedule := sched }) rfl hsame, (hostTurn_keeps ht).2⟩

/-- R95, R96: a run of host turns, none of them refused, takes nothing but these turns from a running command. -/
theorem run_hostTurns_sameCore {op : Instr} {sched : List Turn} {k : Nat} : ∀ {s v : State}, s.seq = .busy op →
    s.schedule = List.replicate k .host ++ sched → Sys2Proof.core.run k s = Host.Outcome.next v →
    s.SameCore v ∧ v.schedule = sched := by
  induction k with
  | zero =>
    intro s v _ hsched hrun
    cases hrun
    exact ⟨rfl, hsched⟩
  | succ k ih =>
    intro s v hbusy hsched hrun
    cases hstep : step s with
    | next t =>
      obtain ⟨hst, ht⟩ := step_host_busy hbusy hsched hstep
      rw [core_run_next k hstep] at hrun
      obtain ⟨htv, hv⟩ := ih (hst.command_eq.1.trans hbusy) ht hrun
      exact ⟨hst.trans htv, hv⟩
    | fault r => cases r
    | refused r =>
      rw [core_run_refused k hstep] at hrun
      cases hrun

/-- R82, R84: host turns whose lines are within the contract are not refused while a command runs. -/
theorem run_hostTurns_inContract {op : Instr} {sched : List Turn} {k : Nat} : ∀ {s : State}, s.seq = .busy op →
    s.schedule = List.replicate k .host ++ sched → HostLine.turnsInContract s.cfg k s.host = true →
    ∃ v : State, Sys2Proof.core.run k s = Host.Outcome.next v := by
  induction k with
  | zero => exact fun {s} _ _ _ => ⟨s, rfl⟩
  | succ k ih =>
    intro s hbusy hsched hlines
    obtain ⟨t, hturn, _, htlines⟩ :=
      hostTurn_turnsInContract (s := { s with schedule := List.replicate k .host ++ sched }) hbusy hlines
    have hstep := (step_host hsched).trans hturn
    obtain ⟨hst, ht⟩ := step_host_busy hbusy hsched hstep
    rw [core_run_next k hstep]
    exact ih (hst.command_eq.1.trans hbusy) ht htlines

/-! ### The core's turn -/

/-- R95, R310: the core's turn in a state that differs from `s` in nothing of CORE's ends the command that runs in `s`, with
the result it has in `s`. -/
theorem step_core_of_sameCore {s v : State} {op : Instr} {rest : List Turn} (hbusy : s.seq = .busy op)
    (hsame : s.SameCore v) (hsched : v.schedule = .core :: rest) :
    ∃ t u : State, step v = .next t ∧ exec op s = .next u ∧ t.seq = .idle ∧ t.done = true ∧ t.err = u.err ∧
      t.res = u.res ∧ t.schedule = rest ∧ ∀ i, i < u.res.outLen.toNat → t.obufByte i = u.obufByte i := by
  obtain ⟨hseq, hlen, _⟩ := hsame.command_eq
  have hstep : step v = exec op { v with schedule := rest } := by
    have hturn : v.turn = .core := by rw [State.turn, hsched]; rfl
    rw [stepRunsTheCommand.1 v op hturn (hseq.trans hbusy), hsched]
    rfl
  have hexec := exec_eq op s
  obtain ⟨t, ht, herr, hres, hobuf⟩ := exec_congr (u := { v with schedule := rest })
    (by rw [hsame]) (by rw [hsame]) (by rw [hsame]) hlen (fun _ _ => by rw [hsame]; rfl) hexec
  obtain ⟨hidle, hdone, _, hrest, _⟩ := exec_done ht
  exact ⟨t, _, hstep.trans ht, hexec, hidle, hdone, herr, hres, hrest, hobuf⟩

/-- Settles O58: the host turns keep all that is CORE's, so the core's turn behind them ends the command as it would at
once. -/
theorem startedCommandsComplete : Obligations.StartedCommandsComplete := by
  intro s op k rest hbusy hsched
  refine ⟨run_hostTurns_inContract hbusy hsched, fun v hrun => ?_⟩
  obtain ⟨hsame, hv⟩ := run_hostTurns_sameCore hbusy hsched hrun
  rw [core_run_last k s v hrun]
  exact step_core_of_sameCore hbusy hsame hv

end Sys2Proof.Machine
